-- ==== Sys2Proof/Word.lean ====
section
/-! DEFINITION. The word types of the block (00_scope.md R5, R6).

Bits are numbered from 0 at the least significant end (R6). -/

namespace Sys2Proof

/-- A bus word, a command word: `BUSW` = 32 bits (00_scope.md R5). -/
abbrev Word := BitVec 32

/-- The contents of a data or constant register: `W` = 256 bits (00_scope.md R5, 10_state.md R14). -/
abbrev U256 := BitVec 256

/-- One byte lane of the bus (20_memory.md R32). -/
abbrev Byte := BitVec 8

/-- A byte offset inside the 0x400-byte register window: `bus_addr` (20_memory.md R28, R29). -/
abbrev Offset := BitVec 10

end Sys2Proof
end

