-- ==== Sys2Proof/Config.lean ====
section
/-! DEFINITION. The parameters of 00_scope.md R5: fixed constants of the block, and the OPEN
parameters and free answers as opaque constants (no body, so no proof can see their value). -/

namespace Sys2Proof.Config

/-- `SECP_P` = 2^256 - 2^32 - 977 (10_state.md R18). -/
def secpP : Nat := 0xFFFFFFFFFFFFFFFFFFFFFFFFFFFFFFFFFFFFFFFFFFFFFFFFFFFFFFFEFFFFFC2F

/-- `SECP_N`, the group order (10_state.md R18). -/
def secpN : Nat := 0xFFFFFFFFFFFFFFFFFFFFFFFFFFFFFFFEBAAEDCE6AF48A03BBFD25E8CD0364141

/-- `SECP_GX` (10_state.md R18). -/
def secpGX : Nat := 0x79BE667EF9DCBBAC55A06295CE870B07029BFCDB2DCE28D959F2815B16F81798

/-- `SECP_GY` (10_state.md R18). -/
def secpGY : Nat := 0x483ADA7726A3C4655DA4FBFC0E1108A8FD17B448A68554199C47D08FFB10D4B8

/-- `SECP_A` = 0 (10_state.md R18). -/
def secpA : Nat := 0

/-- `SECP_B` = 7 (10_state.md R18). -/
def secpB : Nat := 7

/-- `ID_VALUE` (00_scope.md R5, 10_state.md R20). -/
def idValue : Word := 0xEC256001#32

/-- The OPEN parameter behind `ECC_BASE`: which 0x400-byte slot of the platform's address space
holds the window (00_scope.md R5, 20_memory.md R29; log 12). -/
opaque eccSlot : Nat

/-- `ECC_BASE`: a multiple of 0x400, by construction (20_memory.md R29). -/
def eccBase : Nat := 0x400 * eccSlot

/-- The bus error line the platform shows for the n-th access presented while `rst_n = 0`: the
platform's, so free (70_reset_and_hazards.md R112; log 6). -/
opaque platformErr : Nat → Bool

/-- The read data the platform shows for the n-th access presented while `rst_n = 0`: free
(70_reset_and_hazards.md R112; log 6). -/
opaque platformData : Nat → Word

/-- The two readings of `DIGEST_CONVENTION`, host side only (00_scope.md R5, 43_ecdsa.md R89). -/
inductive DigestConvention where
  | doubleHex
  | single
deriving DecidableEq, Repr, Inhabited

/-- `DIGEST_CONVENTION` is OPEN (00_scope.md R5; log 13). -/
opaque digestConvention : DigestConvention

/-- The hash primitive, an external collaborator (00_scope.md R4; log 13): a 32-byte digest,
byte 0 first. -/
opaque hash : List Byte → Vector Byte 32

/-- The hex string of a digest; its letter case is part of the OPEN convention
(93_implementation_defined.md row 22; log 13). -/
opaque hexEncode : Vector Byte 32 → List Byte

end Sys2Proof.Config
end

