-- ==== Sys2Proof/Machine/Arith.lean ====
section
/-! DEFINITION. Exact modular arithmetic (00_scope.md R7, 40_field.md R56, R58): every intermediate is
an unbounded integer, every result the canonical residue. -/

namespace Sys2Proof.Machine

/-- `a mod m`: the unique `r` with `0 <= r < m` and `m` dividing `a - r`, also for negative `a`
(00_scope.md R7). -/
def residue (a : Int) (m : Nat) : Nat := (a % (m : Int)).toNat

/-- The loop of repeated squaring: `acc * b^e mod m`, one bit of `e` a round. -/
def modExpLoop (m : Nat) : Nat → Nat → Nat → Nat → Nat
  | 0, acc, _, _ => acc
  | fuel + 1, acc, b, e =>
    if e = 0 then acc
    else modExpLoop m fuel (if e % 2 = 1 then acc * b % m else acc) (b * b % m) (e / 2)

/-- `a^e mod m` for `e >= 0`, by repeated squaring from 1, so `a^0 = 1` for every `a`
(00_scope.md R7, 40_field.md R58). The fuel is the bit length of `e`. -/
def modExp (a e m : Nat) : Nat := modExpLoop m (e.log2 + 1) (1 % m) (a % m) e

/-- `Pow(a, e, m)` (40_field.md R58): a negative exponent is first taken modulo `m - 1`; a non-negative
one is not reduced. -/
def pow (a : Nat) (e : Int) (m : Nat) : Nat :=
  if 0 ≤ e then modExp a e.toNat m else modExp a (residue e (m - 1)) m

/-- `Pow(a, m - 2, m)`: Fermat's inverse, the modular_inverter (40_field.md R64, R66). -/
def fermatInverse (a m : Nat) : Nat := pow a ((m : Int) - 2) m

end Sys2Proof.Machine
end

