-- ==== Sys2Proof/Machine/Curve.lean ====
section
/-! DEFINITION. Points, curves, the group law and scalar multiplication: elliptic_curve_point_adder
(00_scope.md R9, R10, 41_point.md R70) and scalar_multiplier (42_scalar.md R76). -/

namespace Sys2Proof.Machine

/-- A point: `Inf`, or `Aff(x, y)` (00_scope.md R9). -/
inductive Point where
  | inf
  | aff (x y : Nat)
deriving DecidableEq, Repr

/-- A curve `(m, a, b)` (00_scope.md R10). -/
structure Curve where
  m : Nat
  a : Nat
  b : Nat
deriving DecidableEq, Repr

/-- `SECP = (SECP_P, 0, 7)` (00_scope.md R10). -/
def secp : Curve := ⟨Config.secpP, Config.secpA, Config.secpB⟩

/-- `G = Aff(SECP_GX, SECP_GY)` (10_state.md R18). -/
def generator : Point := .aff Config.secpGX Config.secpGY

/-- `OnCurve` (00_scope.md R10). -/
def onCurve (C : Curve) : Point → Bool
  | .inf => true
  | .aff x y => decide (y * y % C.m = (x * x * x + C.a * x + C.b) % C.m)

/-- The third point of the line with slope `s` through `(x1, y1)`: `x3 = s*s - x1 - x2`,
`y3 = s*(x1 - x3) - y1`, both mod m (41_point.md R70). -/
def thirdPoint (m : Nat) (s x1 y1 x2 : Nat) : Point :=
  let x3 := residue ((s : Int) * s - x1 - x2) m
  .aff x3 (residue ((s : Int) * ((x1 : Int) - x3) - y1) m)

/-- Case 3, the chord slope `(y2 - y1) / (x2 - x1)` (41_point.md R70). -/
def chordSlope (m x1 y1 x2 y2 : Nat) : Nat :=
  residue ((y2 : Int) - y1) m * fermatInverse (residue ((x2 : Int) - x1) m) m % m

/-- Case 4, the tangent slope `(3*x1*x1 + a) / (2*y1)` (41_point.md R70). -/
def tangentSlope (m a x1 y1 : Nat) : Nat :=
  (3 * x1 * x1 + a) % m * fermatInverse (2 * y1 % m) m % m

/-- `PointAdd(C, P1, P2)`, the five cases in the source's order (41_point.md R70). -/
def pointAdd (C : Curve) (P1 P2 : Point) : Point :=
  match P1, P2 with
  | .inf, _ => P2
  | .aff _ _, .inf => P1
  | .aff x1 y1, .aff x2 y2 =>
    if x1 = x2 ∧ y1 ≠ y2 then .inf
    else if x1 ≠ x2 then thirdPoint C.m (chordSlope C.m x1 y1 x2 y2) x1 y1 x2
    else if y1 ≠ 0 then thirdPoint C.m (tangentSlope C.m C.a x1 y1) x1 y1 x1
    else .inf

/-- The loop of `ScalarMul`: one bit of `k` a round, least significant first; the accumulator is the
first operand, the current point the second and doubled each round (42_scalar.md R76). -/
def scalarMulLoop (C : Curve) : Nat → Point → Point → Nat → Point
  | 0, acc, _, _ => acc
  | fuel + 1, acc, cur, k =>
    if k = 0 then acc
    else scalarMulLoop C fuel (if k % 2 = 1 then pointAdd C acc cur else acc)
      (pointAdd C cur cur) (k / 2)

/-- `ScalarMul(C, P, k)` (42_scalar.md R76). The fuel is the bit length of `k`. -/
def scalarMul (C : Curve) (P : Point) (k : Nat) : Point :=
  scalarMulLoop C (k.log2 + 1) .inf P k

/-- The affine x coordinate; `Inf` has none, and 0 stands in its place (log 9). -/
def Point.xCoord : Point → Nat
  | .inf => 0
  | .aff x _ => x

/-- The affine y coordinate; `Inf` has none, and 0 stands in its place (log 9). -/
def Point.yCoord : Point → Nat
  | .inf => 0
  | .aff _ y => y

end Sys2Proof.Machine
end

