-- ==== Sys2Proof/Syntax.lean ====
section
/-! DEFINITION. The 14 commands of 30_encoding.md R49 as syntax: one constructor a row of
spec/opcode_table.json, with the selector fields the row leaves open. -/

namespace Sys2Proof

/-- Curve select CS of the point commands (30_encoding.md R46): `secp` is CS = 0 (`.K`), `user` is
CS = 1 (`.U`), the curve of registers M, CA, CB. -/
inductive CurveSel where
  | secp
  | user
deriving DecidableEq, Repr

/-- A command. `ms` is the modulus select MS (30_encoding.md R45: 0 = P, 1 = N, 2 = M; 3 is ill
formed), `cs` the curve select, `neg` the exponent sign NEG of FPOW (R47). Operands are fixed
registers, so no constructor has a register field (R48). -/
inductive Instr where
  | nop
  | fadd (ms : BitVec 2)
  | fsub (ms : BitVec 2)
  | fmul (ms : BitVec 2)
  | fdiv (ms : BitVec 2)
  | fpow (ms : BitVec 2) (neg : Bool)
  | finv (ms : BitVec 2)
  | fchk (ms : BitVec 2)
  | pchk (cs : CurveSel)
  | padd (cs : CurveSel)
  | pmul (cs : CurveSel)
  | keyld
  | sign
  | verify
deriving DecidableEq, Repr

end Sys2Proof
end

