-- ==== Sys2Proof/WellFormed.lean ====
section
/-! DEFINITION. Well-formed commands: the one selector value the syntax can hold and the encoding
forbids is MS = 3 (30_encoding.md R49, R50). -/

namespace Sys2Proof

/-- MS is one of 0 (P), 1 (N), 2 (M) (30_encoding.md R45). -/
def legalModulusSelect (ms : BitVec 2) : Bool := ms != 3#2

/-- The legal field values of 30_encoding.md R49. CS and NEG are fields only where a row leaves them
open, so MS is all there is to check. -/
def Instr.wellFormed : Instr → Bool
  | .nop => true
  | .fadd ms => legalModulusSelect ms
  | .fsub ms => legalModulusSelect ms
  | .fmul ms => legalModulusSelect ms
  | .fdiv ms => legalModulusSelect ms
  | .fpow ms _ => legalModulusSelect ms
  | .finv ms => legalModulusSelect ms
  | .fchk ms => legalModulusSelect ms
  | .pchk _ => true
  | .padd _ => true
  | .pmul _ => true
  | .keyld => true
  | .sign => true
  | .verify => true

/-- The proposition form of `Instr.wellFormed`. -/
abbrev Instr.WellFormed (i : Instr) : Prop := i.wellFormed = true

end Sys2Proof
end

