-- ==== Sys2Proof/Decode.lean ====
section
/-! DEFINITION. Decoding and encoding of command words (30_encoding.md R42, R43, R49 to R51), the
byte form of a word (20_memory.md R32), the opcode table as data, and the assembly text of R49. -/

namespace Sys2Proof

/-- Why a word is no command. Each is ILLEGAL_COMMAND to the machine (30_encoding.md R50, R51). -/
inductive DecodeError where
  /-- fewer than the four bytes of a command word were given -/
  | truncated
  /-- a bit of RSV, [31:12], is set -/
  | reservedBits
  /-- OP is outside the opcode map of R49 -/
  | unassignedOpcode
  /-- MS has a value the row does not list -/
  | modulusSelect
  /-- CS has a value the row does not list -/
  | curveSelect
  /-- NEG has a value the row does not list -/
  | exponentSign
deriving DecidableEq, Repr

/-! ### Fields (30_encoding.md R42) -/

/-- OP, bits [7:0]. -/
def opField (w : Word) : BitVec 8 := w.extractLsb' 0 8

/-- MS, bits [9:8]. -/
def msField (w : Word) : BitVec 2 := w.extractLsb' 8 2

/-- CS, bit [10]. -/
def csField (w : Word) : BitVec 1 := w.extractLsb' 10 1

/-- NEG, bit [11]. -/
def negField (w : Word) : BitVec 1 := w.extractLsb' 11 1

/-- RSV, bits [31:12]. -/
def rsvField (w : Word) : BitVec 20 := w.extractLsb' 12 20

/-! ### Decode (30_encoding.md R50) -/

/-- A row of the control and ecdsa families: MS = 0, CS = 0, NEG = 0. -/
def decodeBare (w : Word) (i : Instr) : Except DecodeError Instr :=
  if msField w ≠ 0#2 then .error .modulusSelect
  else if csField w ≠ 0#1 then .error .curveSelect
  else if negField w ≠ 0#1 then .error .exponentSign
  else .ok i

/-- A row of the field family other than FPOW: MS in 0, 1, 2, CS = 0, NEG = 0. -/
def decodeField (w : Word) (mk : BitVec 2 → Instr) : Except DecodeError Instr :=
  if legalModulusSelect (msField w) = false then .error .modulusSelect
  else if csField w ≠ 0#1 then .error .curveSelect
  else if negField w ≠ 0#1 then .error .exponentSign
  else .ok (mk (msField w))

/-- FPOW: MS in 0, 1, 2, CS = 0, NEG free. -/
def decodePow (w : Word) : Except DecodeError Instr :=
  if legalModulusSelect (msField w) = false then .error .modulusSelect
  else if csField w ≠ 0#1 then .error .curveSelect
  else .ok (.fpow (msField w) (negField w == 1#1))

/-- CS as the curve it selects (30_encoding.md R46). -/
def curveOfBit (b : BitVec 1) : CurveSel := if b = 0#1 then .secp else .user

/-- A row of the point family: MS = 0, CS free, NEG = 0. -/
def decodePoint (w : Word) (mk : CurveSel → Instr) : Except DecodeError Instr :=
  if msField w ≠ 0#2 then .error .modulusSelect
  else if negField w ≠ 0#1 then .error .exponentSign
  else .ok (mk (curveOfBit (csField w)))

/-- `Decode(w)` of 30_encoding.md R50, total on every word: the command of R49 for OP with its
selectors, or the reason the word is illegal. -/
def decodeWord (w : Word) : Except DecodeError Instr :=
  if rsvField w ≠ 0#20 then .error .reservedBits
  else if opField w = 0x00#8 then decodeBare w .nop
  else if opField w = 0x01#8 then decodeField w .fadd
  else if opField w = 0x02#8 then decodeField w .fsub
  else if opField w = 0x03#8 then decodeField w .fmul
  else if opField w = 0x04#8 then decodeField w .fdiv
  else if opField w = 0x05#8 then decodePow w
  else if opField w = 0x06#8 then decodeField w .finv
  else if opField w = 0x07#8 then decodeField w .fchk
  else if opField w = 0x10#8 then decodePoint w .pchk
  else if opField w = 0x11#8 then decodePoint w .padd
  else if opField w = 0x12#8 then decodePoint w .pmul
  else if opField w = 0x20#8 then decodeBare w .keyld
  else if opField w = 0x21#8 then decodeBare w .sign
  else if opField w = 0x22#8 then decodeBare w .verify
  else .error .unassignedOpcode

/-! ### Bytes (20_memory.md R32, 30_encoding.md R43) -/

/-- A word from its byte lanes, lane 0 (the lowest address) the least significant. -/
def wordOfBytes (b0 b1 b2 b3 : Byte) : Word := b3 ++ b2 ++ b1 ++ b0

/-- The byte lanes of a word, lane 0 first. -/
def bytesOfWord (w : Word) : List Byte :=
  [w.extractLsb' 0 8, w.extractLsb' 8 8, w.extractLsb' 16 8, w.extractLsb' 24 8]

/-- Decode the command at the head of a byte list: every command is four bytes (R43), so the length
is known without looking. Answers the command and the bytes after it. -/
def decodeBytes : List Byte → Except DecodeError (Instr × List Byte)
  | b0 :: b1 :: b2 :: b3 :: rest =>
    match decodeWord (wordOfBytes b0 b1 b2 b3) with
    | .ok i => .ok (i, rest)
    | .error e => .error e
  | _ => .error .truncated

/-- The word that `nbits` table bits of `w` stand for, every higher bit 0. -/
def tableWord (nbits w : Nat) : Word := BitVec.ofNat 32 (w % 2 ^ nbits)

/-- The command this decoder reads from a table word laid out in byte lanes. -/
def decodeTableWord (nbits w : Nat) : Option Instr :=
  match decodeBytes (bytesOfWord (tableWord nbits w)) with
  | .ok (i, _) => some i
  | .error _ => none

/-! ### Encode (30_encoding.md R42, R49) -/

/-- The one format: the concatenation RSV, NEG, CS, MS, OP with RSV = 0 (R42). -/
def commandWord (op : BitVec 8) (ms : BitVec 2) (cs neg : BitVec 1) : Word :=
  0#20 ++ neg ++ cs ++ ms ++ op

/-- The CS bit of a curve select (30_encoding.md R46). -/
def bitOfCurve : CurveSel → BitVec 1
  | .secp => 0#1
  | .user => 1#1

/-- The command word of R49. -/
def encode : Instr → Word
  | .nop => commandWord 0x00 0 0 0
  | .fadd ms => commandWord 0x01 ms 0 0
  | .fsub ms => commandWord 0x02 ms 0 0
  | .fmul ms => commandWord 0x03 ms 0 0
  | .fdiv ms => commandWord 0x04 ms 0 0
  | .fpow ms neg => commandWord 0x05 ms 0 (BitVec.ofBool neg)
  | .finv ms => commandWord 0x06 ms 0 0
  | .fchk ms => commandWord 0x07 ms 0 0
  | .pchk cs => commandWord 0x10 0 (bitOfCurve cs) 0
  | .padd cs => commandWord 0x11 0 (bitOfCurve cs) 0
  | .pmul cs => commandWord 0x12 0 (bitOfCurve cs) 0
  | .keyld => commandWord 0x20 0 0 0
  | .sign => commandWord 0x21 0 0 0
  | .verify => commandWord 0x22 0 0 0

/-- The four byte lanes of a command. -/
def encodeBytes (i : Instr) : List Byte := bytesOfWord (encode i)

/-! ### The opcode table as data (spec/opcode_table.json) -/

/-- The mnemonic of a command's row. -/
def mnemonic : Instr → String
  | .nop => "NOP"
  | .fadd _ => "FADD"
  | .fsub _ => "FSUB"
  | .fmul _ => "FMUL"
  | .fdiv _ => "FDIV"
  | .fpow _ _ => "FPOW"
  | .finv _ => "FINV"
  | .fchk _ => "FCHK"
  | .pchk _ => "PCHK"
  | .padd _ => "PADD"
  | .pmul _ => "PMUL"
  | .keyld => "KEYLD"
  | .sign => "SIGN"
  | .verify => "VERIFY"

/-- A row: a word belongs to it when `w &&& mask = pattern`. -/
structure OpcodeRow where
  mnemonic : String
  pattern : Word
  mask : Word
deriving DecidableEq, Repr

/-- The rows' `match` and `mask` columns. -/
def opcodeTable : List OpcodeRow :=
  [⟨"NOP", 0x00000000#32, 0xFFFFFFFF#32⟩, ⟨"FADD", 0x00000001#32, 0xFFFFFCFF#32⟩,
   ⟨"FSUB", 0x00000002#32, 0xFFFFFCFF#32⟩, ⟨"FMUL", 0x00000003#32, 0xFFFFFCFF#32⟩,
   ⟨"FDIV", 0x00000004#32, 0xFFFFFCFF#32⟩, ⟨"FPOW", 0x00000005#32, 0xFFFFF4FF#32⟩,
   ⟨"FINV", 0x00000006#32, 0xFFFFFCFF#32⟩, ⟨"FCHK", 0x00000007#32, 0xFFFFFCFF#32⟩,
   ⟨"PCHK", 0x00000010#32, 0xFFFFFBFF#32⟩, ⟨"PADD", 0x00000011#32, 0xFFFFFBFF#32⟩,
   ⟨"PMUL", 0x00000012#32, 0xFFFFFBFF#32⟩, ⟨"KEYLD", 0x00000020#32, 0xFFFFFFFF#32⟩,
   ⟨"SIGN", 0x00000021#32, 0xFFFFFFFF#32⟩, ⟨"VERIFY", 0x00000022#32, 0xFFFFFFFF#32⟩]

/-- The word belongs to the row. -/
def OpcodeRow.covers (r : OpcodeRow) (w : Word) : Bool := w &&& r.mask == r.pattern

/-! ### Assembly text (30_encoding.md R49, R52) -/

/-- The modulus suffix: `.P`, `.N`, `.M` (MS = 3 has none). -/
def modulusSuffix (ms : BitVec 2) : String :=
  if ms = 0#2 then ".P" else if ms = 1#2 then ".N" else if ms = 2#2 then ".M" else ".?"

/-- The curve suffix: `.K`, `.U`. -/
def curveSuffix : CurveSel → String
  | .secp => ".K"
  | .user => ".U"

/-- The assembly statement of a command: its mnemonic with its suffixes (R52). -/
def assemblyText : Instr → String
  | .nop => mnemonic .nop
  | .fadd ms => mnemonic (.fadd ms) ++ modulusSuffix ms
  | .fsub ms => mnemonic (.fsub ms) ++ modulusSuffix ms
  | .fmul ms => mnemonic (.fmul ms) ++ modulusSuffix ms
  | .fdiv ms => mnemonic (.fdiv ms) ++ modulusSuffix ms
  | .fpow ms neg => mnemonic (.fpow ms neg) ++ modulusSuffix ms ++ (if neg then ".NEG" else "")
  | .finv ms => mnemonic (.finv ms) ++ modulusSuffix ms
  | .fchk ms => mnemonic (.fchk ms) ++ modulusSuffix ms
  | .pchk cs => mnemonic (.pchk cs) ++ curveSuffix cs
  | .padd cs => mnemonic (.padd cs) ++ curveSuffix cs
  | .pmul cs => mnemonic (.pmul cs) ++ curveSuffix cs
  | .keyld => mnemonic .keyld
  | .sign => mnemonic .sign
  | .verify => mnemonic .verify

end Sys2Proof
end

