-- ==== Sys2Proof/Machine/State.lean ====
section
/-! DEFINITION. The state of the block (10_state.md R14) and of the outside world that drives it, as
plain data, and the state after reset (70_reset_and_hazards.md R113, R114).

The spec's state is `x`, `cmd`, `status`, `ctrl`, `pflags` and `pending` (R14: "Nothing else is
state"). `rstLow`, `response`, `rng`, `events` and `freeIdx` are the model's own fields: the outside
agents of R13 as data the step reads (log 1, 4, 5, 6). -/

namespace Sys2Proof.Machine

/-! ### Registers -/

/-- The names of the 16 data registers (10_state.md R15). A, B, E and R are other names of X1, Y1, K
and XR. -/
inductive Reg where
  | X1 | Y1 | X2 | Y2 | K | Z | KEY | SR | SS | XR | YR | M | CA | CB | PUBX | PUBY
deriving DecidableEq, Repr

/-- The names of the four constant registers (10_state.md R18). They are not state. -/
inductive ConstReg where
  | P | N | GX | GY
deriving DecidableEq, Repr

/-- The contents of the data registers (10_state.md R15), one field a register. -/
structure RegFile where
  x1 : U256
  y1 : U256
  x2 : U256
  y2 : U256
  k : U256
  z : U256
  key : U256
  sr : U256
  ss : U256
  xr : U256
  yr : U256
  m : U256
  ca : U256
  cb : U256
  pubx : U256
  puby : U256
deriving DecidableEq, Repr

/-- STATUS (10_state.md R22). Bits [7:6] and [31:16] read 0 and are not stored. -/
structure Status where
  busy : Bool
  done : Bool
  err : Bool
  valid : Bool
  keyv : Bool
  ovr : Bool
  errcode : BitVec 4
  errinfo : BitVec 4
deriving DecidableEq, Repr

/-- CTRL (10_state.md R24): IE is all it stores. -/
structure Ctrl where
  ie : Bool
deriving DecidableEq, Repr

/-- PFLAGS (10_state.md R25). -/
structure PFlags where
  inf1 : Bool
  inf2 : Bool
  infr : Bool
deriving DecidableEq, Repr

/-- The operand snapshot `S` taken at acceptance (10_state.md R26). -/
structure Snapshot where
  x : RegFile
  inf1 : Bool
  inf2 : Bool
  keyv : Bool
deriving DecidableEq, Repr

/-- A pending command: its word and its snapshot (10_state.md R14, R26). -/
structure Pending where
  word : Word
  snap : Snapshot
deriving DecidableEq, Repr

/-! ### Errors -/

/-- The error kinds of 60_exceptions.md R97 with a name. -/
inductive ErrorCode where
  | outOfRange
  /-- never raised: one modulus per command (R97) -/
  | fieldMismatch
  /-- never raised: one curve per command (R97) -/
  | curveMismatch
  | notOnCurve
  /-- never reported: SIGN retries (R97, 43_ecdsa.md R83) -/
  | degenerateSignature
  | illegalCommand
  | badModulus
  | noKey
deriving DecidableEq, Repr

/-- `Err(code, info)` (00_scope.md R11): `info` is the register index of R98. -/
structure CmdError where
  code : ErrorCode
  info : BitVec 4
deriving DecidableEq, Repr

/-! ### The outside world -/

/-- `bus_size` (20_memory.md R28): 1, 2, 4 bytes, or more. -/
inductive AccessSize where
  | byte | half | word | wider
deriving DecidableEq, Repr

/-- `bus_write` with `bus_wdata` (20_memory.md R28). -/
inductive BusOp where
  | read
  | write (v : Word)
deriving DecidableEq, Repr

/-- One access presented to the window (20_memory.md R28). -/
structure Access where
  off : Offset
  size : AccessSize
  op : BusOp
deriving DecidableEq, Repr

/-- What an access gives back: `bus_err`, and `bus_rdata` for a read (20_memory.md R28, R33). -/
structure Response where
  err : Bool
  rdata : Option Word
deriving DecidableEq, Repr

/-- What happens next outside the block, or when the engine is to complete (10_state.md R13). -/
inductive Event where
  /-- a host step: one bus access (20_memory.md R34) -/
  | bus (a : Access)
  /-- the engine's completion falls here (10_state.md R13) -/
  | complete
  /-- the RNG port offers one more word (20_memory.md R28, 43_ecdsa.md R81) -/
  | rngWord (w : U256)
  /-- `rst_n` falls (70_reset_and_hazards.md R112) -/
  | rstFall
  /-- `rst_n` rises (70_reset_and_hazards.md R112) -/
  | rstRise
deriving DecidableEq, Repr

/-! ### State -/

/-- The block and the outside world that drives it. -/
structure State where
  /-- the data registers (10_state.md R15) -/
  x : RegFile
  /-- CMD: the last accepted command word (10_state.md R21) -/
  cmd : Word
  /-- STATUS (10_state.md R22) -/
  status : Status
  /-- CTRL (10_state.md R24) -/
  ctrl : Ctrl
  /-- PFLAGS (10_state.md R25) -/
  pflags : PFlags
  /-- the pending command and its snapshot (10_state.md R14, R26) -/
  pending : Option Pending
  /-- the level of `rst_n`: true while `rst_n = 0` (70_reset_and_hazards.md R112) -/
  rstLow : Bool
  /-- what the latest bus access gave back (log 5) -/
  response : Option Response
  /-- the words the RNG port will deliver, first first (43_ecdsa.md R81; log 4) -/
  rng : List U256
  /-- what happens next, first first (10_state.md R13; log 1) -/
  events : List Event
  /-- how many of the platform's free answers have been used (70_reset_and_hazards.md R112; log 6) -/
  freeIdx : Nat
deriving DecidableEq, Repr

/-- Why a step stops without a next state. -/
inductive Fault where
  /-- Raised by a command's meaning in a state that has no pending command: completion is enabled only
  "whenever a command is pending" (10_state.md R13), so the spec gives no effect there. Safe: `step`
  never runs a meaning in such a state (log 3). -/
  | noPendingCommand
deriving DecidableEq, Repr

/-- Why an instruction has no meaning. -/
inductive Refusal where
  /-- Raised by an arm of `exec` that has no meaning yet. Safe. No arm of this model raises it. -/
  | notModelled (mnemonic : String)
deriving DecidableEq, Repr

/-! ### Reset values (70_reset_and_hazards.md R113) -/

/-- `x[i] <- 0 for i = 0..15`. -/
def RegFile.zero : RegFile := ⟨0, 0, 0, 0, 0, 0, 0, 0, 0, 0, 0, 0, 0, 0, 0, 0⟩

/-- `STATUS <- 0`. -/
def Status.zero : Status := ⟨false, false, false, false, false, false, 0, 0⟩

/-- `PFLAGS <- 0`. -/
def PFlags.zero : PFlags := ⟨false, false, false⟩

/-- The machine right after reset (70_reset_and_hazards.md R113, R114), `rst_n` high again, nothing
offered by the outside world (log 2, 4, 5, 6). -/
def State.reset : State where
  x := RegFile.zero
  cmd := 0
  status := Status.zero
  ctrl := ⟨false⟩
  pflags := PFlags.zero
  pending := none
  rstLow := false
  response := none
  rng := []
  events := []
  freeIdx := 0

end Sys2Proof.Machine
end

