-- ==== Sys2Proof/Machine/Flags.lean ====
section
/-! DEFINITION. The control registers as words, every setting and clearing of a STATUS flag
(10_state.md R22 to R25), the error numbers (60_exceptions.md R97) and the interrupt line (R104). -/

namespace Sys2Proof.Machine

/-! ### Error numbers and register indices -/

/-- The number written to `STATUS.ERRCODE` (60_exceptions.md R97). -/
def ErrorCode.number : ErrorCode → BitVec 4
  | .outOfRange => 1
  | .fieldMismatch => 2
  | .curveMismatch => 3
  | .notOnCurve => 4
  | .degenerateSignature => 5
  | .illegalCommand => 6
  | .badModulus => 7
  | .noKey => 8

/-- The index of a data register (10_state.md R15): the value ERRINFO reports (60_exceptions.md R98). -/
def Reg.index : Reg → BitVec 4
  | .X1 => 0
  | .Y1 => 1
  | .X2 => 2
  | .Y2 => 3
  | .K => 4
  | .Z => 5
  | .KEY => 6
  | .SR => 7
  | .SS => 8
  | .XR => 9
  | .YR => 10
  | .M => 11
  | .CA => 12
  | .CB => 13
  | .PUBX => 14
  | .PUBY => 15

/-! ### Register words -/

/-- STATUS as read (10_state.md R22): ERRINFO [15:12], ERRCODE [11:8], OVR 5, KEYV 4, VALID 3, ERR 2,
DONE 1, BUSY 0, every other bit 0. -/
def Status.toWord (st : Status) : Word :=
  0#16 ++ st.errinfo ++ st.errcode ++ 0#2 ++ BitVec.ofBool st.ovr ++ BitVec.ofBool st.keyv ++
    BitVec.ofBool st.valid ++ BitVec.ofBool st.err ++ BitVec.ofBool st.done ++ BitVec.ofBool st.busy

/-- CTRL as read (10_state.md R24): IE in bit 0; SRST and KEYCLR read 0. -/
def Ctrl.toWord (c : Ctrl) : Word := 0#31 ++ BitVec.ofBool c.ie

/-- PFLAGS as read (10_state.md R25): INFR 2, INF2 1, INF1 0. -/
def PFlags.toWord (p : PFlags) : Word :=
  0#29 ++ BitVec.ofBool p.infr ++ BitVec.ofBool p.inf2 ++ BitVec.ofBool p.inf1

/-! ### Setting and clearing (10_state.md R23) -/

/-- Acceptance: BUSY set; DONE, ERR, VALID, ERRCODE, ERRINFO cleared; KEYV and OVR kept
(30_encoding.md R44). -/
def Status.accepted (st : Status) : Status :=
  { st with busy := true, done := false, err := false, valid := false, errcode := 0, errinfo := 0 }

/-- Completion: `BUSY <- 0`, `DONE <- 1` (10_state.md R13). -/
def Status.completed (st : Status) : Status := { st with busy := false, done := true }

/-- The report of an error: ERR, ERRCODE, ERRINFO (60_exceptions.md R102). -/
def Status.reported (st : Status) (e : CmdError) : Status :=
  { st with err := true, errcode := e.code.number, errinfo := e.info }

/-- A dropped write: `OVR <- 1` (70_reset_and_hazards.md R116). -/
def Status.overrun (st : Status) : Status := { st with ovr := true }

/-- A host write to STATUS: 1 in bit 1 clears DONE, 1 in bit 5 clears OVR, nothing else
(10_state.md R22, 44_control.md R94). -/
def Status.acknowledge (st : Status) (v : Word) : Status :=
  { st with done := st.done && !v[1], ovr := st.ovr && !v[5] }

/-- A host write to PFLAGS: INF1 from bit 0, INF2 from bit 1; INFR is read-only (10_state.md R25). -/
def PFlags.hostWrite (p : PFlags) (v : Word) : PFlags :=
  { p with inf1 := v[0], inf2 := v[1] }

/-! ### Interrupt -/

/-- `irq = STATUS.DONE and CTRL.IE` (60_exceptions.md R104). -/
def State.irq (s : State) : Bool := s.status.done && s.ctrl.ie

end Sys2Proof.Machine
end

