-- ==== Sys2Proof/Machine/Ops.lean ====
section
/-! DEFINITION. The named operations on registers and on the window: register reads and writes, the
register map (20_memory.md R30, R31), host accesses (R33 to R35), acceptance (30_encoding.md R44),
commit (10_state.md R13), error entry (60_exceptions.md R102) and reset (70_reset_and_hazards.md R112,
R113). -/

namespace Sys2Proof.Machine

/-! ### The data registers (10_state.md R15) -/

/-- `x[r]` (00_scope.md R8). -/
def RegFile.get (x : RegFile) : Reg → U256
  | .X1 => x.x1
  | .Y1 => x.y1
  | .X2 => x.x2
  | .Y2 => x.y2
  | .K => x.k
  | .Z => x.z
  | .KEY => x.key
  | .SR => x.sr
  | .SS => x.ss
  | .XR => x.xr
  | .YR => x.yr
  | .M => x.m
  | .CA => x.ca
  | .CB => x.cb
  | .PUBX => x.pubx
  | .PUBY => x.puby

/-- `x[r] <- v` (00_scope.md R8). -/
def RegFile.set (x : RegFile) (r : Reg) (v : U256) : RegFile :=
  match r with
  | .X1 => { x with x1 := v }
  | .Y1 => { x with y1 := v }
  | .X2 => { x with x2 := v }
  | .Y2 => { x with y2 := v }
  | .K => { x with k := v }
  | .Z => { x with z := v }
  | .KEY => { x with key := v }
  | .SR => { x with sr := v }
  | .SS => { x with ss := v }
  | .XR => { x with xr := v }
  | .YR => { x with yr := v }
  | .M => { x with m := v }
  | .CA => { x with ca := v }
  | .CB => { x with cb := v }
  | .PUBX => { x with pubx := v }
  | .PUBY => { x with puby := v }

/-- The register with index `i` (10_state.md R15). -/
def Reg.ofIndex (i : Fin 16) : Reg :=
  match i.val with
  | 0 => .X1
  | 1 => .Y1
  | 2 => .X2
  | 3 => .Y2
  | 4 => .K
  | 5 => .Z
  | 6 => .KEY
  | 7 => .SR
  | 8 => .SS
  | 9 => .XR
  | 10 => .YR
  | 11 => .M
  | 12 => .CA
  | 13 => .CB
  | 14 => .PUBX
  | _ => .PUBY

/-- The host may write the register: every data register but the four result registers
(10_state.md R15). KEY is writable under R16. -/
def Reg.hostWritable : Reg → Bool
  | .XR | .YR | .PUBX | .PUBY => false
  | .X1 | .Y1 | .X2 | .Y2 | .K | .Z | .KEY | .SR | .SS | .M | .CA | .CB => true

/-- The constant register with index 16 + `i` (10_state.md R18). -/
def ConstReg.ofIndex (i : Fin 4) : ConstReg :=
  match i.val with
  | 0 => .P
  | 1 => .N
  | 2 => .GX
  | _ => .GY

/-- The value of a constant register (10_state.md R18). -/
def ConstReg.value : ConstReg → U256
  | .P => BitVec.ofNat 256 Config.secpP
  | .N => BitVec.ofNat 256 Config.secpN
  | .GX => BitVec.ofNat 256 Config.secpGX
  | .GY => BitVec.ofNat 256 Config.secpGY

/-- Word `j` of a 256-bit value: bits [32*j+31 : 32*j] (20_memory.md R31). -/
def getWord (x : U256) (j : Fin 8) : Word := x.extractLsb' (32 * j.val) 32

/-- `x[32*j+31 : 32*j] <- v` (20_memory.md R31). -/
def setWord (x : U256) (j : Fin 8) (v : Word) : U256 :=
  (x &&& ~~~((0xFFFFFFFF#32).zeroExtend 256 <<< (32 * j.val))) |||
    (v.zeroExtend 256 <<< (32 * j.val))

/-! ### The register map (20_memory.md R29, R30) -/

/-- What an offset of the window names. -/
inductive Target where
  | id
  | cmd
  | status
  | ctrl
  | pflags
  | data (r : Reg) (j : Fin 8)
  | const (c : ConstReg) (j : Fin 8)
  | reserved
deriving DecidableEq, Repr

/-- The word of a 256-bit register at byte offset `n` of the window: registers stand 0x20 apart, words
4 apart (20_memory.md R31). -/
def wordIndex (n : Nat) : Fin 8 := ⟨n % 0x20 / 4, by omega⟩

/-- The register map (20_memory.md R30), for an offset that is a multiple of 4. -/
def Target.ofOffset (off : Offset) : Target :=
  if off.toNat = 0x000 then .id
  else if off.toNat = 0x004 then .cmd
  else if off.toNat = 0x008 then .status
  else if off.toNat = 0x00C then .ctrl
  else if off.toNat = 0x010 then .pflags
  else if h : 0x100 ≤ off.toNat ∧ off.toNat < 0x300 then
    .data (Reg.ofIndex ⟨(off.toNat - 0x100) / 0x20, by omega⟩) (wordIndex off.toNat)
  else if h : 0x300 ≤ off.toNat ∧ off.toNat < 0x380 then
    .const (ConstReg.ofIndex ⟨(off.toNat - 0x300) / 0x20, by omega⟩) (wordIndex off.toNat)
  else .reserved

/-- Which platform addresses reach the block, and at which offset: `ECC_BASE + off` for `off` in
[0, 0x400) (20_memory.md R29). Other addresses are the platform's. -/
def windowOffset (addr : Nat) : Option Offset :=
  if Config.eccBase ≤ addr ∧ addr < Config.eccBase + 0x400 then
    some (BitVec.ofNat 10 (addr - Config.eccBase))
  else none

/-- `MemRead(addr, n)` and `MemWrite(addr, n, v)` as the access the window sees, or none when the address
is not in the window (00_scope.md R8, 20_memory.md R29). -/
def memAccess (addr : Nat) (size : AccessSize) (op : BusOp) : Option Access :=
  (windowOffset addr).map fun off => ⟨off, size, op⟩

/-- Legal accesses: 4 bytes at an offset that is a multiple of 4 (20_memory.md R33). -/
def Access.legal (a : Access) : Bool := a.size == .word && a.off.toNat % 4 == 0

/-! ### Reset (70_reset_and_hazards.md R113) -/

/-- `ResetState()`: every register, the flags and the pending command; the outside world is not the
block's to reset (log 8). -/
def resetState (s : State) : State :=
  { s with
    x := RegFile.zero, cmd := 0, status := Status.zero, ctrl := ⟨false⟩, pflags := PFlags.zero,
    pending := none }

/-- `rst_n` falls: `ResetState()` at once, and the block is held in reset (70_reset_and_hazards.md
R112). -/
def hardwareReset (s : State) : State := { resetState s with rstLow := true }

/-- `rst_n` rises: the block is idle and accepts any access (70_reset_and_hazards.md R112). -/
def releaseReset (s : State) : State := { s with rstLow := false }

/-! ### Acceptance (30_encoding.md R44) -/

/-- The operand snapshot: x[0..15], INF1, INF2 and KEYV (10_state.md R26). -/
def State.snapshot (s : State) : Snapshot :=
  { x := s.x, inf1 := s.pflags.inf1, inf2 := s.pflags.inf2, keyv := s.status.keyv }

/-- Acceptance of a command word by the idle engine (30_encoding.md R44). It is also all there is of a
return from an error: the next acceptance clears the report (60_exceptions.md R103). -/
def accept (v : Word) (s : State) : State :=
  { s with cmd := v, pending := some ⟨v, s.snapshot⟩, status := s.status.accepted }

/-- A write the busy engine drops: `OVR <- 1` and nothing else (70_reset_and_hazards.md R116). -/
def dropWrite (s : State) : State := { s with status := s.status.overrun }

/-! ### Completion (10_state.md R13, 00_scope.md R11) -/

/-- The writes of an `Ok` outcome: result registers, and the flags a command may write. -/
structure Writes where
  regs : List (Reg × U256) := []
  infr : Option Bool := none
  valid : Option Bool := none
  keyv : Option Bool := none
deriving DecidableEq, Repr

/-- The listed register writes, first first. -/
def RegFile.writeAll (x : RegFile) (ws : List (Reg × U256)) : RegFile :=
  ws.foldl (fun x w => x.set w.1 w.2) x

/-- `Commit`: every result register and flag of the outcome, then `BUSY <- 0` and `DONE <- 1`, in one
step; the snapshot is discarded (10_state.md R13, R26). -/
def commit (w : Writes) (s : State) : State :=
  { s with
    x := s.x.writeAll w.regs
    pflags := { s.pflags with infr := w.infr.getD s.pflags.infr }
    status :=
      { s.status with
        valid := w.valid.getD s.status.valid, keyv := w.keyv.getD s.status.keyv }.completed
    pending := none }

/-- Error entry, the block's one way of taking an exception: the report in STATUS, `BUSY <- 0`,
`DONE <- 1`, and nothing else. No state is saved, there is no vector (60_exceptions.md R102). -/
def errorEntry (e : CmdError) (s : State) : State :=
  { s with status := (s.status.reported e).completed, pending := none }

/-- The outcome of a command applied at completion (00_scope.md R11). -/
def applyOutcome (o : Except CmdError Writes) (s : State) : State :=
  match o with
  | .ok w => commit w s
  | .error e => errorEntry e s

/-- The completion of a command whose outcome is a function of its snapshot. It is enabled only when a
command is pending (10_state.md R13; log 3). -/
def completeWith (f : Snapshot → Except CmdError Writes) (s : State) :
    Host.Outcome State Fault Refusal :=
  match s.pending with
  | none => .fault .noPendingCommand
  | some p => .next (applyOutcome (f p.snap) s)

/-- The completion of a word `Decode` rejects (30_encoding.md R50, R51). -/
def completeIllegal (s : State) : State := errorEntry ⟨.illegalCommand, 0⟩ s

/-! ### Host accesses (20_memory.md R33 to R35) -/

/-- `ReadValue`: what a legal read returns. KEY reads 0 (10_state.md R16), so does a reserved offset
(20_memory.md R35). -/
def readTarget (s : State) : Target → Word
  | .id => Config.idValue
  | .cmd => s.cmd
  | .status => s.status.toWord
  | .ctrl => s.ctrl.toWord
  | .pflags => s.pflags.toWord
  | .data r j => if r = .KEY then 0 else getWord (s.x.get r) j
  | .const c j => getWord c.value j
  | .reserved => 0

/-- A write to CMD: dropped with OVR while BUSY, else acceptance (30_encoding.md R44). -/
def writeCmd (v : Word) (s : State) : State :=
  if s.status.busy then dropWrite s else accept v s

/-- A write to a KEY word: dropped with OVR while BUSY, else the word is written and KEYV cleared
(10_state.md R16). -/
def writeKeyWord (j : Fin 8) (v : Word) (s : State) : State :=
  if s.status.busy then dropWrite s
  else
    { s with
      x := s.x.set .KEY (setWord (s.x.get .KEY) j v), status := { s.status with keyv := false } }

/-- A write to a word of a data register other than KEY: ignored by a read-only register
(10_state.md R15), else done at once, also while BUSY. -/
def writeRegWord (r : Reg) (j : Fin 8) (v : Word) (s : State) : State :=
  if r.hostWritable then { s with x := s.x.set r (setWord (s.x.get r) j v) } else s

/-- A write to CTRL: SRST alone acts when set (44_control.md R91, 10_state.md R24); else KEYCLR, dropped
with OVR while BUSY (R92); else IE (R93). -/
def writeCtrl (v : Word) (s : State) : State :=
  if v[1] then resetState s
  else if v[2] then
    if s.status.busy then dropWrite s
    else
      { s with
        x := s.x.set .KEY 0, status := { s.status with keyv := false }, ctrl := ⟨v[0]⟩ }
  else { s with ctrl := ⟨v[0]⟩ }

/-- `WriteEffect`: what a legal write does (20_memory.md R34, R35). -/
def writeTarget (v : Word) (s : State) : Target → State
  | .id => s
  | .cmd => writeCmd v s
  | .status => { s with status := s.status.acknowledge v }
  | .ctrl => writeCtrl v s
  | .pflags => { s with pflags := s.pflags.hostWrite v }
  | .data r j => if r = .KEY then writeKeyWord j v s else writeRegWord r j v s
  | .const _ _ => s
  | .reserved => s

/-- The read data of an answer: a read has some, a write none. -/
def BusOp.answer : BusOp → Word → Option Word
  | .read, w => some w
  | .write _, _ => none

/-- A legal access: a read changes nothing of the block, a write has its effect (20_memory.md R34). -/
def legalAccess (a : Access) (s : State) : State :=
  match a.op with
  | .read => { s with response := some ⟨false, some (readTarget s (Target.ofOffset a.off))⟩ }
  | .write v => { writeTarget v s (Target.ofOffset a.off) with response := some ⟨false, none⟩ }

/-- An illegal access: `bus_err = 1`, read data 0, no state change (20_memory.md R33, 60_exceptions.md
R99). -/
def busError (a : Access) (s : State) : State := { s with response := some ⟨true, a.op.answer 0⟩ }

/-- An access presented while `rst_n = 0`: not performed, and the answer is the platform's, so free
(70_reset_and_hazards.md R112; log 6). -/
def heldAccess (a : Access) (s : State) : State :=
  { s with
    response := some ⟨Config.platformErr s.freeIdx, a.op.answer (Config.platformData s.freeIdx)⟩
    freeIdx := s.freeIdx + 1 }

/-- One host step (10_state.md R13, 20_memory.md R34). -/
def busAccess (a : Access) (s : State) : State :=
  if s.rstLow then heldAccess a s
  else if a.legal then legalAccess a s
  else busError a s

end Sys2Proof.Machine
end

