-- ==== Sys2Proof/Machine/Operands.lean ====
section
/-! DEFINITION. Operand forms of the commands: modulus and curve select, signed exponent, the field
prologue, point operands and their checks, and the writing of a result point. Every operand is read
from the snapshot (10_state.md R26). -/

namespace Sys2Proof.Machine

/-- `x[r]` of the snapshot as the unsigned integer it is (00_scope.md R8, 30_encoding.md R48). -/
def Snapshot.val (S : Snapshot) (r : Reg) : Nat := (S.x.get r).toNat

/-- `if not c: raise Error(code, info)` (00_scope.md R8). -/
def require (c : Bool) (code : ErrorCode) (info : BitVec 4) : Except CmdError Unit :=
  if c then .ok () else .error ⟨code, info⟩

/-- The user modulus: M, odd and at least 3 (30_encoding.md R45, R46). -/
def userModulus (S : Snapshot) : Except CmdError Nat := do
  require (decide (3 ≤ S.val .M) && S.val .M % 2 == 1) .badModulus Reg.M.index
  return S.val .M

/-- `ResolveModulus(ms, S)` (30_encoding.md R45). MS = 3 is ILLEGAL_COMMAND and no decoded command has
it (R50; log 10). -/
def resolveModulus (ms : BitVec 2) (S : Snapshot) : Except CmdError Nat :=
  if ms = 0#2 then .ok Config.secpP
  else if ms = 1#2 then .ok Config.secpN
  else if ms = 2#2 then userModulus S
  else .error ⟨.illegalCommand, 0⟩

/-- `ResolveCurve(cs, S)` (30_encoding.md R46). -/
def resolveCurve (cs : CurveSel) (S : Snapshot) : Except CmdError Curve :=
  match cs with
  | .secp => .ok secp
  | .user => do
    let m ← userModulus S
    require (decide (S.val .CA < m)) .outOfRange Reg.CA.index
    require (decide (S.val .CB < m)) .outOfRange Reg.CB.index
    return ⟨m, S.val .CA, S.val .CB⟩

/-- `Exponent(neg, S)`: sign-magnitude, the magnitude in K (30_encoding.md R47). -/
def exponent (neg : Bool) (S : Snapshot) : Int := if neg then -(S.val .K : Int) else S.val .K

/-- `FieldPrologue(w, S, binary)` after `Decode` (40_field.md R54). -/
def fieldPrologue (ms : BitVec 2) (S : Snapshot) (binary : Bool) : Except CmdError Nat := do
  let m ← resolveModulus ms S
  require (decide (S.val .X1 < m)) .outOfRange Reg.X1.index
  require (!binary || decide (S.val .Y1 < m)) .outOfRange Reg.Y1.index
  return m

/-- `PointOperand(ix, iy, inf, C)` (41_point.md R68). -/
def pointOperand (ix iy : Reg) (inf : Bool) (C : Curve) (S : Snapshot) : Except CmdError Point :=
  if inf then .ok .inf
  else do
    require (decide (S.val ix < C.m)) .outOfRange ix.index
    require (decide (S.val iy < C.m)) .outOfRange iy.index
    return .aff (S.val ix) (S.val iy)

/-- `CheckOnCurve(Pt, ix, C)` (41_point.md R69). -/
def checkOnCurve (P : Point) (ix : Reg) (C : Curve) : Except CmdError Unit :=
  require (onCurve C P) .notOnCurve ix.index

/-- P1 = (X1, Y1, INF1) of the snapshot (41_point.md R74). -/
def firstPoint (C : Curve) (S : Snapshot) : Except CmdError Point := pointOperand .X1 .Y1 S.inf1 C S

/-- P2 = (X2, Y2, INF2) of the snapshot (41_point.md R75). -/
def secondPoint (C : Curve) (S : Snapshot) : Except CmdError Point := pointOperand .X2 .Y2 S.inf2 C S

/-- An integer below 2^256 as a register's contents (00_scope.md R7). -/
def toReg (n : Nat) : U256 := BitVec.ofNat 256 n

/-- The outcome of a field command: XR alone (40_field.md R55). -/
def fieldResult (n : Nat) : Writes := { regs := [(.XR, toReg n)] }

/-- The outcome of a check: nothing written (40_field.md R67, 41_point.md R74). -/
def noWrites : Writes := {}

/-- Writing a result point (41_point.md R73): `Inf` writes 0, 0 and INFR = 1. -/
def pointResult : Point → Writes
  | .inf => { regs := [(.XR, 0), (.YR, 0)], infr := some true }
  | .aff x y => { regs := [(.XR, toReg x), (.YR, toReg y)], infr := some false }

end Sys2Proof.Machine
end

