-- ==== Sys2Proof/Machine/Control.lean ====
section
/-! DEFINITION. The control command NOP (44_control.md R90). The register actions of 44_control.md
(SRST, KEYCLR, IE, acknowledge) are no commands: they are host writes, in Machine/Ops.lean. -/

namespace Sys2Proof.Machine

/-- Outcome of NOP: `Ok`, no register written (44_control.md R90). -/
def nopOutcome (_ : Snapshot) : Except CmdError Writes := .ok noWrites

/-- NOP (44_control.md R90). -/
def execNop (s : State) : Host.Outcome State Fault Refusal := completeWith nopOutcome s

end Sys2Proof.Machine
end

