-- ==== Sys2Proof/Machine/Ecdsa.lean ====
section
/-! DEFINITION. The ECDSA commands KEYLD, SIGN, VERIFY (43_ecdsa.md): unit ECDSA signer/verifier
(00_scope.md R2). All use the curve `SECP` and scalar arithmetic modulo `SECP_N`. -/

namespace Sys2Proof.Machine

/-! ### KEYLD -/

/-- The secret is in `[1, SECP_N - 1]` (43_ecdsa.md R80). -/
def keyInRange (d : Nat) : Bool := decide (1 ≤ d) && decide (d < Config.secpN)

/-- The public point `ScalarMul(SECP, G, d)` (43_ecdsa.md R80). -/
def publicPoint (d : Nat) : Point := scalarMul secp generator d

/-- Outcome of KEYLD: PUBX, PUBY and KEYV (43_ecdsa.md R80). The point is never `Inf` there (R80; for
the coordinates of `Inf` see log 9). -/
def keyldOutcome (S : Snapshot) : Except CmdError Writes := do
  require (keyInRange (S.val .KEY)) .outOfRange Reg.KEY.index
  let Q := publicPoint (S.val .KEY)
  return { regs := [(.PUBX, toReg Q.xCoord), (.PUBY, toReg Q.yCoord)], keyv := some true }

/-! ### SIGN -/

/-- An acceptable nonce word: `1 <= w <= SECP_N - 1` (43_ecdsa.md R81). -/
def nonceAcceptable (w : U256) : Bool := decide (1 ≤ w.toNat) && decide (w.toNat ≤ Config.secpN - 1)

/-- Low-s normalization: `if s > SECP_N div 2: s <- SECP_N - s` (43_ecdsa.md R84). -/
def lowS (s : Nat) : Nat := if s > Config.secpN / 2 then Config.secpN - s else s

/-- `r = rx mod SECP_N` for the nonce point `k*G` (43_ecdsa.md R82). -/
def signR (k : Nat) : Nat := (scalarMul secp generator k).xCoord % Config.secpN

/-- `s = ((z + r*d) * kinv) mod SECP_N`, before normalization (43_ecdsa.md R82). -/
def signRawS (d z k : Nat) : Nat :=
  (z + signR k * d) * fermatInverse k Config.secpN % Config.secpN

/-- One pass of the signing loop: `(r, s)`, or none when `r = 0` or `s = 0` (43_ecdsa.md R82, R83). -/
def signAttempt (d z k : Nat) : Option (Nat × Nat) :=
  if signR k = 0 ∨ signRawS d z k = 0 then none else some (signR k, lowS (signRawS d z k))

/-- The signing loop over the words the RNG delivers: words out of range and nonces that give a
degenerate pair are discarded (43_ecdsa.md R81, R83). Answers the signature and the words left, or none
when the words run out. -/
def signSearch (d z : Nat) : List U256 → Option ((Nat × Nat) × List U256)
  | [] => none
  | w :: rest =>
    if nonceAcceptable w then
      match signAttempt d z w.toNat with
      | some rs => some (rs, rest)
      | none => signSearch d z rest
    else signSearch d z rest

/-- The writes of SIGN: SR and SS (43_ecdsa.md R82). -/
def signResult (rs : Nat × Nat) : Writes := { regs := [(.SR, toReg rs.1), (.SS, toReg rs.2)] }

/-- The completion of SIGN on a snapshot (43_ecdsa.md R82). Without a loaded key it is NO_KEY. When no
word the RNG has delivered so far gives a signature, the words are used up and the command stays
pending, BUSY staying 1 (R81; log 4). -/
def signComplete (S : Snapshot) (s : State) : State :=
  if S.keyv then
    match signSearch (S.val .KEY) (S.val .Z) s.rng with
    | some (rs, rest) => commit (signResult rs) { s with rng := rest }
    | none => { s with rng := [] }
  else errorEntry ⟨.noKey, Reg.KEY.index⟩ s

/-! ### VERIFY -/

/-- A signature component is in `[1, SECP_N - 1]` (43_ecdsa.md R86). -/
def sigInRange (v : Nat) : Bool := decide (1 ≤ v) && decide (v ≤ Config.secpN - 1)

/-- The verdict on a valid public point: 0 when `r` or `s` is out of range, else whether
`T = u*G + v*Q` is not `Inf` and `T.x mod SECP_N = r` (43_ecdsa.md R86). -/
def verdict (Q : Point) (z r s : Nat) : Bool :=
  if sigInRange r && sigInRange s then
    let w1 := fermatInverse s Config.secpN
    let u := z * w1 % Config.secpN
    let v := r * w1 % Config.secpN
    match pointAdd secp (scalarMul secp generator u) (scalarMul secp Q v) with
    | .inf => false
    | .aff x _ => x % Config.secpN == r
  else false

/-- Outcome of VERIFY: VALID alone (43_ecdsa.md R86). -/
def verifyOutcome (S : Snapshot) : Except CmdError Writes := do
  let Q ← firstPoint secp S
  checkOnCurve Q .X1 secp
  return { valid := some (verdict Q (S.val .Z) (S.val .SR) (S.val .SS)) }

/-! ### The commands -/

/-- KEYLD (43_ecdsa.md R80). -/
def execKeyld (s : State) : Host.Outcome State Fault Refusal := completeWith keyldOutcome s

/-- SIGN (43_ecdsa.md R82). -/
def execSign (s : State) : Host.Outcome State Fault Refusal :=
  match s.pending with
  | none => .fault .noPendingCommand
  | some p => .next (signComplete p.snap s)

/-- VERIFY (43_ecdsa.md R86). -/
def execVerify (s : State) : Host.Outcome State Fault Refusal := completeWith verifyOutcome s

end Sys2Proof.Machine
end

