-- ==== Sys2Proof/Machine/Field.lean ====
section
/-! DEFINITION. The field commands FADD, FSUB, FMUL, FDIV, FPOW, FINV, FCHK (40_field.md): units
modular_adder_subtractor, montgomery_multiplier, modular_inverter (00_scope.md R2). -/

namespace Sys2Proof.Machine

/-- Outcome of FADD: `(a + b) mod m` (40_field.md R61). -/
def faddOutcome (ms : BitVec 2) (S : Snapshot) : Except CmdError Writes := do
  let m ← fieldPrologue ms S true
  return fieldResult ((S.val .X1 + S.val .Y1) % m)

/-- Outcome of FSUB: `(a - b) mod m`, the mathematical residue (40_field.md R62). -/
def fsubOutcome (ms : BitVec 2) (S : Snapshot) : Except CmdError Writes := do
  let m ← fieldPrologue ms S true
  return fieldResult (residue ((S.val .X1 : Int) - S.val .Y1) m)

/-- Outcome of FMUL: `(a * b) mod m` of the exact product (40_field.md R63). -/
def fmulOutcome (ms : BitVec 2) (S : Snapshot) : Except CmdError Writes := do
  let m ← fieldPrologue ms S true
  return fieldResult (S.val .X1 * S.val .Y1 % m)

/-- Outcome of FDIV: `(a * Pow(b, m - 2, m)) mod m`; division by zero gives 0 (40_field.md R64). -/
def fdivOutcome (ms : BitVec 2) (S : Snapshot) : Except CmdError Writes := do
  let m ← fieldPrologue ms S true
  return fieldResult (S.val .X1 * fermatInverse (S.val .Y1) m % m)

/-- Outcome of FPOW: `Pow(a, e, m)` with the signed exponent (40_field.md R65). -/
def fpowOutcome (ms : BitVec 2) (neg : Bool) (S : Snapshot) : Except CmdError Writes := do
  let m ← fieldPrologue ms S false
  return fieldResult (pow (S.val .X1) (exponent neg S) m)

/-- Outcome of FINV: `Pow(a, m - 2, m)`; the inverse of zero is 0 (40_field.md R66). -/
def finvOutcome (ms : BitVec 2) (S : Snapshot) : Except CmdError Writes := do
  let m ← fieldPrologue ms S false
  return fieldResult (fermatInverse (S.val .X1) m)

/-- Outcome of FCHK: the range check alone (40_field.md R67). -/
def fchkOutcome (ms : BitVec 2) (S : Snapshot) : Except CmdError Writes := do
  let _ ← fieldPrologue ms S false
  return noWrites

/-- FADD (40_field.md R61). -/
def execFadd (ms : BitVec 2) (s : State) : Host.Outcome State Fault Refusal :=
  completeWith (faddOutcome ms) s

/-- FSUB (40_field.md R62). -/
def execFsub (ms : BitVec 2) (s : State) : Host.Outcome State Fault Refusal :=
  completeWith (fsubOutcome ms) s

/-- FMUL (40_field.md R63). -/
def execFmul (ms : BitVec 2) (s : State) : Host.Outcome State Fault Refusal :=
  completeWith (fmulOutcome ms) s

/-- FDIV (40_field.md R64). -/
def execFdiv (ms : BitVec 2) (s : State) : Host.Outcome State Fault Refusal :=
  completeWith (fdivOutcome ms) s

/-- FPOW (40_field.md R65). -/
def execFpow (ms : BitVec 2) (neg : Bool) (s : State) : Host.Outcome State Fault Refusal :=
  completeWith (fpowOutcome ms neg) s

/-- FINV (40_field.md R66). -/
def execFinv (ms : BitVec 2) (s : State) : Host.Outcome State Fault Refusal :=
  completeWith (finvOutcome ms) s

/-- FCHK (40_field.md R67). -/
def execFchk (ms : BitVec 2) (s : State) : Host.Outcome State Fault Refusal :=
  completeWith (fchkOutcome ms) s

end Sys2Proof.Machine
end

