-- ==== Sys2Proof/Machine/PointCmd.lean ====
section
/-! DEFINITION. The point commands PCHK and PADD (41_point.md) and PMUL (42_scalar.md): units
elliptic_curve_point_adder and scalar_multiplier (00_scope.md R2). -/

namespace Sys2Proof.Machine

/-- Outcome of PCHK: the construction check of P1, nothing written (41_point.md R74). -/
def pchkOutcome (cs : CurveSel) (S : Snapshot) : Except CmdError Writes := do
  let C ← resolveCurve cs S
  let P1 ← firstPoint C S
  checkOnCurve P1 .X1 C
  return noWrites

/-- Outcome of PADD: both points read, then both checked, then added (41_point.md R75). -/
def paddOutcome (cs : CurveSel) (S : Snapshot) : Except CmdError Writes := do
  let C ← resolveCurve cs S
  let P1 ← firstPoint C S
  let P2 ← secondPoint C S
  checkOnCurve P1 .X1 C
  checkOnCurve P2 .X2 C
  return pointResult (pointAdd C P1 P2)

/-- The scalar of PMUL: K reduced modulo `SECP_N` on secp256k1, K whole on the user curve
(42_scalar.md R78). -/
def scalarOf (cs : CurveSel) (S : Snapshot) : Nat :=
  match cs with
  | .secp => S.val .K % Config.secpN
  | .user => S.val .K

/-- Outcome of PMUL (42_scalar.md R79). -/
def pmulOutcome (cs : CurveSel) (S : Snapshot) : Except CmdError Writes := do
  let C ← resolveCurve cs S
  let P1 ← firstPoint C S
  checkOnCurve P1 .X1 C
  return pointResult (scalarMul C P1 (scalarOf cs S))

/-- PCHK (41_point.md R74). -/
def execPchk (cs : CurveSel) (s : State) : Host.Outcome State Fault Refusal :=
  completeWith (pchkOutcome cs) s

/-- PADD (41_point.md R75). -/
def execPadd (cs : CurveSel) (s : State) : Host.Outcome State Fault Refusal :=
  completeWith (paddOutcome cs) s

/-- PMUL (42_scalar.md R79). -/
def execPmul (cs : CurveSel) (s : State) : Host.Outcome State Fault Refusal :=
  completeWith (pmulOutcome cs) s

end Sys2Proof.Machine
end

