-- ==== Sys2Proof/Machine/Dispatch.lean ====
section
/-! DEFINITION. One arm a command: the completion of the pending command as that command
(30_encoding.md R49, R50). -/

namespace Sys2Proof.Machine

def exec (i : Instr) (s : State) : Host.Outcome State Fault Refusal :=
  match i with
  | .nop => Sys2Proof.Machine.execNop s
  | .fadd ms => Sys2Proof.Machine.execFadd ms s
  | .fsub ms => Sys2Proof.Machine.execFsub ms s
  | .fmul ms => Sys2Proof.Machine.execFmul ms s
  | .fdiv ms => Sys2Proof.Machine.execFdiv ms s
  | .fpow ms neg => Sys2Proof.Machine.execFpow ms neg s
  | .finv ms => Sys2Proof.Machine.execFinv ms s
  | .fchk ms => Sys2Proof.Machine.execFchk ms s
  | .pchk cs => Sys2Proof.Machine.execPchk cs s
  | .padd cs => Sys2Proof.Machine.execPadd cs s
  | .pmul cs => Sys2Proof.Machine.execPmul cs s
  | .keyld => Sys2Proof.Machine.execKeyld s
  | .sign => Sys2Proof.Machine.execSign s
  | .verify => Sys2Proof.Machine.execVerify s

end Sys2Proof.Machine
end

