-- ==== Sys2Proof/Machine/Step.lean ====
section
/-! DEFINITION. One step: the next event of the outside world, or the engine's completion
(10_state.md R13), and `withFetchWord`. -/

namespace Sys2Proof.Machine

/-- The engine's turn: completion of the pending command, decoded first (10_state.md R13,
30_encoding.md R50); nothing when none is pending (60_exceptions.md R111) or while `rst_n = 0`
(70_reset_and_hazards.md R112). -/
def engineTurn (s : State) : Host.Outcome State Fault Refusal :=
  if s.rstLow then .next s
  else
    match s.pending with
    | none => .next s
    | some p =>
      match decodeWord p.word with
      | .ok i => exec i s
      | .error _ => .next (completeIllegal s)

/-- What one event does, the event itself already taken off the list. -/
def handle (e : Event) (s : State) : Host.Outcome State Fault Refusal :=
  match e with
  | .bus a => .next (busAccess a s)
  | .complete => engineTurn s
  | .rngWord w => .next { s with rng := s.rng ++ [w] }
  | .rstFall => .next (hardwareReset s)
  | .rstRise => .next (releaseReset s)

/-- One step: the first event; with no event left the engine takes its turn, so a pending command makes
progress (70_reset_and_hazards.md R123; log 1). -/
def step (s : State) : Host.Outcome State Fault Refusal :=
  match s.events with
  | [] => engineTurn s
  | e :: rest => handle e { s with events := rest }

/-- `s` with the table word accepted as the pending command and the engine's completion next: the block
has no fetch, a command reaches it as the data of a CMD write (20_memory.md R40, 30_encoding.md R44;
log 2). -/
def State.withFetchWord (s : State) (nbits w : Nat) : State :=
  { accept (tableWord nbits w) (releaseReset s) with events := .complete :: s.events }

end Sys2Proof.Machine
end

