-- ==== Sys2Proof/Machine/Digest.lean ====
section
/-! DEFINITION. The host's digest adapter (43_ecdsa.md R89): how a 32-byte digest becomes the message
representative of register Z. The hash is outside the block (00_scope.md R4; log 13). -/

namespace Sys2Proof.Machine

/-- `z = sum over i = 0..31 of b[i] * 256^(31 - i)`: the digest's bytes as a big-endian unsigned integer
(43_ecdsa.md R89). -/
def digestInteger (b : Vector Byte 32) : Nat :=
  ((List.finRange 32).map fun i => (b.get i).toNat * 256 ^ (31 - i.val)).sum

/-- The contents of register Z for a digest (43_ecdsa.md R89). -/
def digestToZ (b : Vector Byte 32) : U256 := BitVec.ofNat 256 (digestInteger b)

/-- The digest of a message under a convention: `double_hex` hashes the hex string of the first digest,
`single` hashes once (43_ecdsa.md R89). -/
def messageDigest (c : Config.DigestConvention) (msg : List Byte) : Vector Byte 32 :=
  match c with
  | .doubleHex => Config.hash (Config.hexEncode (Config.hash msg))
  | .single => Config.hash msg

/-- The message representative of a message under the OPEN `DIGEST_CONVENTION` (43_ecdsa.md R89). -/
def messageRepresentative (msg : List Byte) : U256 :=
  digestToZ (messageDigest Config.digestConvention msg)

end Sys2Proof.Machine
end

