-- ==== Sys2Proof/Machine/HostProgram.lean ====
section
/-! DEFINITION. The host's side: the assembly language for programs that drive the block
(30_encoding.md R52), its pseudo-instructions (R53), and a host that runs such a program, one statement a
turn, beside the block (10_state.md R13). Host variables and the host's position in its program are the
host's, not the block's state (44_control.md R95; log 14). -/

namespace Sys2Proof.Machine

/-! ### Statements (30_encoding.md R52) -/

/-- A 32-bit host variable. A 256-bit value `t` of R53 is the eight variables `t_0` to `t_7`; a 32-bit
variable `t` is `t_0`. -/
structure HostVar where
  name : Nat
  word : Fin 8
deriving DecidableEq, Repr

/-- What `WR` writes: a constant or a host variable. -/
inductive Source where
  | lit (v : Word)
  | var (t : HostVar)
deriving DecidableEq, Repr

/-- One statement of the assembly language (30_encoding.md R52). -/
inductive Stmt where
  /-- a command mnemonic with its suffixes: `MemWrite(ECC_BASE + 0x004, 4, word)` -/
  | command (i : Instr)
  /-- `WR off, v` -/
  | wr (off : Offset) (v : Source)
  /-- `RD off -> t` -/
  | rd (off : Offset) (t : HostVar)
  /-- `label:` -/
  | label (l : Nat)
  /-- `BNZ t, mask, label` -/
  | bnz (t : HostVar) (mask : Word) (l : Nat)
deriving DecidableEq, Repr

/-- The offsets that `CMD`, `STATUS`, `CTRL`, `PFLAGS` stand for (20_memory.md R30). -/
def cmdOffset : Offset := 0x004#10
def statusOffset : Offset := 0x008#10
def ctrlOffset : Offset := 0x00C#10
def pflagsOffset : Offset := 0x010#10

/-- `off(i) + 4*j` with `off(i) = 0x100 + 0x20*i`, for a register index 0..19 (30_encoding.md R53,
00_scope.md R8). -/
def regOffset (i : Fin 20) (j : Fin 8) : Offset := BitVec.ofNat 10 (0x100 + 0x20 * i.val + 4 * j.val)

/-! ### Pseudo-instructions (30_encoding.md R53) -/

/-- A 256-bit source: a constant, or a host variable of eight words. -/
inductive Source256 where
  | lit (v : U256)
  | var (name : Nat)
deriving DecidableEq, Repr

/-- Word `j` of a 256-bit source. -/
def Source256.word (v : Source256) (j : Fin 8) : Source :=
  match v with
  | .lit v => .lit (getWord v j)
  | .var n => .var ⟨n, j⟩

namespace Pseudo

/-- `WRX i, v`. -/
def wrx (i : Fin 20) (v : Source256) : List Stmt :=
  (List.finRange 8).map fun j => .wr (regOffset i j) (v.word j)

/-- `RDX i -> t`. -/
def rdx (i : Fin 20) (t : Nat) : List Stmt :=
  (List.finRange 8).map fun j => .rd (regOffset i j) ⟨t, j⟩

/-- `WAIT`, with the label `w` it uses and the variable `t` it reads STATUS into. A program that gives two
WAITs one label repeats that label (log 14). -/
def wait (w t : Nat) : List Stmt :=
  [.label w, .rd statusOffset ⟨t, 0⟩, .bnz ⟨t, 0⟩ 0x1#32 w]

/-- `RUN c`. -/
def run (c : Instr) (w t : Nat) : List Stmt := .command c :: wait w t

/-- `SETINF f1, f2`: `WR PFLAGS, (f2 << 1) OR f1`. -/
def setInf (f1 f2 : Bool) : List Stmt :=
  [.wr pflagsOffset (.lit (((BitVec.ofBool f2).zeroExtend 32 <<< 1) ||| (BitVec.ofBool f1).zeroExtend 32))]

/-- `LDG`, with the INF2 the program wants. -/
def ldg (f2 : Bool) : List Stmt :=
  wrx 0 (.lit ConstReg.GX.value) ++ wrx 1 (.lit ConstReg.GY.value) ++ setInf false f2

/-- `ACK`. -/
def ack : List Stmt := [.wr statusOffset (.lit 0x22#32)]

/-- `MOVX d, s`, through the host variable `t`. -/
def movx (d s : Fin 20) (t : Nat) : List Stmt := rdx s t ++ wrx d (.var t)

/-- `FNEG.m v`. -/
def fneg (ms : BitVec 2) (v : Source256) (w t : Nat) : List Stmt :=
  wrx 0 (.lit 0) ++ wrx 1 v ++ run (.fsub ms) w t

/-- `SRST`. -/
def srst : List Stmt := [.wr ctrlOffset (.lit 0x2#32)]

end Pseudo

/-! ### A host running a program -/

/-- The host: its position and its variables, the latest assignment first. -/
structure HostState where
  pc : Nat
  vars : List (HostVar × Word)
deriving DecidableEq, Repr

/-- The value of a host variable; one never assigned reads 0 (log 14). -/
def HostState.value (h : HostState) (t : HostVar) : Word := (h.vars.lookup t).getD 0

/-- A host variable assigned. -/
def HostState.assign (h : HostState) (t : HostVar) (v : Word) : HostState :=
  { h with vars := (t, v) :: h.vars }

/-- On to the next statement. -/
def HostState.advance (h : HostState) : HostState := { h with pc := h.pc + 1 }

/-- The value a source has for the host. -/
def HostState.source (h : HostState) : Source → Word
  | .lit v => v
  | .var t => h.value t

/-- The 256-bit host value `t = sum t_j * 2^(32*j)` (30_encoding.md R53). -/
def HostState.value256 (h : HostState) (n : Nat) : Nat :=
  ((List.finRange 8).map fun j => (h.value ⟨n, j⟩).toNat * 2 ^ (32 * j.val)).sum

/-- Where a label stands. DESIGN CHOICE: the first place when it stands more than once, as R53's label `w`
does when several WAITs are expanded with it, and past the end when it stands nowhere; the spec is silent
on both (log 14). -/
def labelIndex (prog : List Stmt) (l : Nat) : Nat := prog.findIdx (· == Stmt.label l)

/-- A 4-byte write of the host. DESIGN CHOICE: a bus error in the answer is ignored (60_exceptions.md R99
leaves it to the platform; log 14). -/
def hostWrite (off : Offset) (v : Word) (s : State) : State := busAccess ⟨off, .word, .write v⟩ s

/-- A 4-byte read of the host, and the word it returns. DESIGN CHOICE: a bus error in the answer is ignored
and its read data taken (60_exceptions.md R99 leaves it to the platform; log 14). -/
def hostRead (off : Offset) (s : State) : Word × State :=
  let s' := busAccess ⟨off, .word, .read⟩ s
  ((s'.response.bind Response.rdata).getD 0, s')

/-- The host's turn: one statement, at most one access to the block (10_state.md R13). A host past the
end of its program does nothing. DESIGN CHOICE: after an access answered with `bus_err = 1` the host goes on
to the next statement, an RD having taken the read data of that answer, where 60_exceptions.md R99 leaves
what the host does to the platform (log 14). -/
def hostTurn (prog : List Stmt) (h : HostState) (s : State) : HostState × State :=
  match prog[h.pc]? with
  | none => (h, s)
  | some (.label _) => (h.advance, s)
  | some (.bnz t mask l) =>
    (if h.value t &&& mask ≠ 0 then { h with pc := labelIndex prog l } else h.advance, s)
  | some (.command i) => (h.advance, hostWrite cmdOffset (encode i) s)
  | some (.wr off v) => (h.advance, hostWrite off (h.source v) s)
  | some (.rd off t) => (h.advance.assign t (hostRead off s).1, (hostRead off s).2)

/-- Whose turn it is. -/
inductive Turn where
  | host
  | engine
deriving DecidableEq, Repr

/-- A host and a block. -/
structure HostSystem where
  host : HostState
  block : State
deriving DecidableEq, Repr

/-- One turn of the two agents; every interleaving is some sequence of turns (10_state.md R13,
60_exceptions.md R109). RNG words and `rst_n` edges are no turns (log 14). -/
def HostSystem.turn (prog : List Stmt) (t : Turn) (y : HostSystem) :
    Host.Outcome HostSystem Fault Refusal :=
  match t with
  | .host => .next ⟨(hostTurn prog y.host y.block).1, (hostTurn prog y.host y.block).2⟩
  | .engine =>
    match engineTurn y.block with
    | .next s => .next { y with block := s }
    | .fault f => .fault f
    | .refused r => .refused r

end Sys2Proof.Machine
end

