-- ==== Sys2Proof/Machine/Montgomery.lean ====
section
/-! DEFINITION. The internal form of the montgomery_multiplier (40_field.md R57). No register,
snapshot or result ever holds a value of this form, and no meaning uses this file: R57 says that every
architectural result equals the plain formula, which is what the commands compute. The file gives the
unit of 00_scope.md R2 its internal arithmetic, so that this agreement can be stated. -/

namespace Sys2Proof.Machine

/-- `R = 2^256` (40_field.md R57). -/
def montR : Nat := 2 ^ 256

/-- `R^-1 mod m` for an odd `m`: `(m + 1) div 2` is the inverse of 2 (log 15). -/
def montRInv (m : Nat) : Nat := modExp ((m + 1) / 2) 256 m

/-- Conversion into Montgomery form: `abar = a*R mod m` (40_field.md R57). -/
def toMont (a m : Nat) : Nat := a * montR % m

/-- `MontMul(abar, bbar) = abar*bbar*R^-1 mod m` (40_field.md R57). -/
def montMul (abar bbar m : Nat) : Nat := abar * bbar * montRInv m % m

/-- Conversion back: `abar*R^-1 mod m`, a multiplication by 1 (40_field.md R57). -/
def fromMont (abar m : Nat) : Nat := montMul abar 1 m

end Sys2Proof.Machine
end

