-- ==== Sys2Proof/Safety.lean ====
section
/-! DEFINITION. The words the statements use: what a legal operand is, what a completion writes and
what it leaves alone, what holds of every state a run reaches, and what a host can see of a state. They
are written from the spec's rules, apart from the meanings. -/

namespace Sys2Proof.Machine

/-! ### Legal operands -/

/-- `m` is the modulus MS selects, and legal (30_encoding.md R45). -/
def IsModulus (ms : BitVec 2) (S : Snapshot) (m : Nat) : Prop :=
  (ms = 0#2 ∧ m = Config.secpP) ∨ (ms = 1#2 ∧ m = Config.secpN) ∨
    (ms = 2#2 ∧ m = S.x.m.toNat ∧ 3 ≤ m ∧ m % 2 = 1)

/-- M is no legal user modulus: below 3, or even (30_encoding.md R45, R46). -/
def BadUserModulus (S : Snapshot) : Prop := S.x.m.toNat < 3 ∨ S.x.m.toNat % 2 = 0

/-- `C` is the curve CS selects, its modulus and coefficients legal (30_encoding.md R46). -/
def IsCurve (cs : CurveSel) (S : Snapshot) (C : Curve) : Prop :=
  match cs with
  | .secp => C = ⟨Config.secpP, 0, 7⟩
  | .user =>
    C = ⟨S.x.m.toNat, S.x.ca.toNat, S.x.cb.toNat⟩ ∧ 3 ≤ C.m ∧ C.m % 2 = 1 ∧ C.a < C.m ∧ C.b < C.m

/-- `P` is the point operand in the two registers, its coordinates in range unless the INF flag is set
(41_point.md R68). -/
def IsPointOperand (x y : U256) (inf : Bool) (C : Curve) (P : Point) : Prop :=
  (inf = true ∧ P = .inf) ∨
    (inf = false ∧ P = .aff x.toNat y.toNat ∧ x.toNat < C.m ∧ y.toNat < C.m)

/-- `OnCurve` (00_scope.md R10). -/
def SatisfiesCurve (C : Curve) : Point → Prop
  | .inf => True
  | .aff x y => y ^ 2 % C.m = (x ^ 3 + C.a * x + C.b) % C.m

/-- Both coordinates are below the modulus (00_scope.md R9). -/
def Point.InRange (m : Nat) : Point → Prop
  | .inf => True
  | .aff x y => x < m ∧ y < m

/-- The legal command words, by the arithmetic of the fields OP, MS, CS, NEG, RSV (30_encoding.md R42,
R50). -/
def LegalWord (w : Word) : Prop :=
  let op := w.toNat % 0x100
  let ms := w.toNat / 0x100 % 4
  let cs := w.toNat / 0x400 % 2
  let neg := w.toNat / 0x800 % 2
  w.toNat / 0x1000 = 0 ∧
    ((op = 0x00 ∧ ms = 0 ∧ cs = 0 ∧ neg = 0) ∨
      (0x01 ≤ op ∧ op ≤ 0x07 ∧ ms ≠ 3 ∧ cs = 0 ∧ (neg = 0 ∨ op = 0x05)) ∨
      (0x10 ≤ op ∧ op ≤ 0x12 ∧ ms = 0 ∧ neg = 0) ∨
      (0x20 ≤ op ∧ op ≤ 0x22 ∧ ms = 0 ∧ cs = 0 ∧ neg = 0))

/-- The field commands under one modulus select (30_encoding.md R49). -/
def fieldCommands (ms : BitVec 2) : List Instr :=
  [.fadd ms, .fsub ms, .fmul ms, .fdiv ms, .fpow ms false, .fpow ms true, .finv ms, .fchk ms]

/-- The field commands that read B as well (40_field.md R54). -/
def binaryFieldCommands (ms : BitVec 2) : List Instr := [.fadd ms, .fsub ms, .fmul ms, .fdiv ms]

/-- The point commands under one curve select (30_encoding.md R49). -/
def pointCommands (cs : CurveSel) : List Instr := [.pchk cs, .padd cs, .pmul cs]

/-- Where word `j` of a data register stands in the window (10_state.md R15, 20_memory.md R31). -/
def regWordOffset (r : Reg) (j : Fin 8) : Offset :=
  BitVec.ofNat 10 (0x100 + 0x20 * r.index.toNat + 4 * j.val)

/-- A legal 4-byte write of the host. -/
def wordWrite (off : Offset) (v : Word) : Access := ⟨off, .word, .write v⟩

/-- A legal 4-byte read of the host. -/
def wordRead (off : Offset) : Access := ⟨off, .word, .read⟩

/-! ### Scalar multiplication and signatures -/

/-- The reference sequence of `ScalarMul` as a relation: from `acc`, `cur` and `k` the loop ends with the
answer (42_scalar.md R76). -/
inductive ReferenceRun (C : Curve) : Nat → Point → Point → Point → Prop where
  | stop (acc cur : Point) : ReferenceRun C 0 acc cur acc
  | round (k : Nat) (acc cur ans : Point) : 0 < k →
      ReferenceRun C (k / 2) (if k % 2 = 1 then pointAdd C acc cur else acc) (pointAdd C cur cur) ans →
      ReferenceRun C k acc cur ans

/-- `r` of a nonce (43_ecdsa.md R82). -/
def nonceR (k : Nat) : Nat := (scalarMul secp generator k).xCoord % Config.secpN

/-- `s` of a nonce before low-s normalization (43_ecdsa.md R82). -/
def nonceS (d z k : Nat) : Nat :=
  (z + nonceR k * d) * (k ^ (Config.secpN - 2) % Config.secpN) % Config.secpN

/-- An RNG word that gives a signature: in `[1, SECP_N - 1]`, with `r` and `s` nonzero (43_ecdsa.md R81,
R83). -/
def UsableNonce (d z : Nat) (w : U256) : Prop :=
  1 ≤ w.toNat ∧ w.toNat ≤ Config.secpN - 1 ∧ nonceR w.toNat ≠ 0 ∧ nonceS d z w.toNat ≠ 0

/-- `(r, s)` is a valid signature of `z` under the public point `Q` (43_ecdsa.md R86). -/
def ValidSignature (Q : Point) (z r s : Nat) : Prop :=
  (1 ≤ r ∧ r ≤ Config.secpN - 1) ∧ (1 ≤ s ∧ s ≤ Config.secpN - 1) ∧
    ∃ x y,
      pointAdd secp
          (scalarMul secp generator (z * (s ^ (Config.secpN - 2) % Config.secpN) % Config.secpN))
          (scalarMul secp Q (r * (s ^ (Config.secpN - 2) % Config.secpN) % Config.secpN)) =
        .aff x y ∧
      x % Config.secpN = r

/-! ### What a completion writes -/

/-- The state after an `Ok` completion that writes the registers `x'` and leaves every flag but BUSY and
DONE alone (10_state.md R13). -/
def State.completedWith (s : State) (x' : RegFile) : State :=
  { s with x := x', status := { s.status with busy := false, done := true }, pending := none }

/-- The state after an `Ok` completion that also writes PFLAGS.INFR (41_point.md R73). -/
def State.completedWithPoint (s : State) (x' : RegFile) (inf : Bool) : State :=
  { s with
    x := x', pflags := { s.pflags with infr := inf }
    status := { s.status with busy := false, done := true }, pending := none }

/-- The registers after a result point is written (41_point.md R73). -/
def RegFile.withPoint (x : RegFile) : Point → RegFile
  | .inf => { x with xr := 0, yr := 0 }
  | .aff a b => { x with xr := BitVec.ofNat 256 a, yr := BitVec.ofNat 256 b }

/-- INFR for a result point (41_point.md R73). -/
def Point.isInf : Point → Bool
  | .inf => true
  | .aff _ _ => false

/-- The state after an `Err(code, info)` completion (60_exceptions.md R102). -/
def State.erroredWith (s : State) (code info : BitVec 4) : State :=
  { s with
    status :=
      { s.status with err := true, errcode := code, errinfo := info, busy := false, done := true }
    pending := none }

/-- The data registers a command may write at completion (10_state.md R15, column "written by"). -/
def resultRegs : Instr → List Reg
  | .nop => []
  | .fadd _ => [.XR]
  | .fsub _ => [.XR]
  | .fmul _ => [.XR]
  | .fdiv _ => [.XR]
  | .fpow _ _ => [.XR]
  | .finv _ => [.XR]
  | .fchk _ => []
  | .pchk _ => []
  | .padd _ => [.XR, .YR]
  | .pmul _ => [.XR, .YR]
  | .keyld => [.PUBX, .PUBY]
  | .sign => [.SR, .SS]
  | .verify => []

/-- The window words a completion leaves alone whatever the command: all but STATUS, PFLAGS and the words
of the command's result registers. -/
def Target.untouchedBy (i : Instr) : Target → Prop
  | .status => False
  | .pflags => False
  | .data r _ => r ∉ resultRegs i
  | .id => True
  | .cmd => True
  | .ctrl => True
  | .const _ _ => True
  | .reserved => True

/-! ### What holds of every state a run reaches -/

/-- The ERRCODE and ERRINFO pairs that 60_exceptions.md R97 and R98 let a completion write. -/
def LegalReport (code info : BitVec 4) : Prop :=
  (code = 1#4 ∧ info ∈ [0#4, 1#4, 2#4, 3#4, 6#4, 12#4, 13#4]) ∨ (code = 4#4 ∧ info ∈ [0#4, 2#4]) ∨
    (code = 6#4 ∧ info = 0#4) ∨ (code = 7#4 ∧ info = 11#4) ∨ (code = 8#4 ∧ info = 6#4)

/-- PUBX and PUBY hold the public point of KEY, and KEY is a legal secret (10_state.md R17,
43_ecdsa.md R80). -/
def RegFile.KeyLoaded (x : RegFile) : Prop :=
  1 ≤ x.key.toNat ∧ x.key.toNat < Config.secpN ∧
    x.pubx = BitVec.ofNat 256 (scalarMul secp generator x.key.toNat).xCoord ∧
    x.puby = BitVec.ofNat 256 (scalarMul secp generator x.key.toNat).yCoord

/-- While a command is pending: CMD is its word, the report is cleared, the block is not held in reset,
and KEY and KEYV are still those of the snapshot (10_state.md R16, R21, R23, 44_control.md R92). -/
structure PendingInv (s : State) (p : Pending) : Prop where
  cmd : s.cmd = p.word
  done : s.status.done = false
  err : s.status.err = false
  valid : s.status.valid = false
  running : s.rstLow = false
  key : p.snap.x.key = s.x.key
  keyv : p.snap.keyv = s.status.keyv

/-- What every state that a run from reset reaches satisfies. -/
structure State.Inv (s : State) : Prop where
  /-- `STATUS.BUSY = (pending != none)` (10_state.md R14) -/
  busy : s.status.busy = s.pending.isSome
  /-- ERRCODE and ERRINFO are 0 when `ERR = 0` (10_state.md R22, R23) -/
  noReport : s.status.err = false → s.status.errcode = 0#4 ∧ s.status.errinfo = 0#4
  /-- an error report is one of 60_exceptions.md R97 and R98, and no verdict stands beside it -/
  report : s.status.err = true →
    LegalReport s.status.errcode s.status.errinfo ∧ s.status.valid = false
  /-- a pending command agrees with CMD, STATUS, KEY and KEYV -/
  pending : ∀ p, s.pending = some p → PendingInv s p
  /-- a loaded key is legal and PUBX, PUBY are its public point (10_state.md R17) -/
  key : s.status.keyv = true → s.x.KeyLoaded

/-! ### What can be seen of a state -/

/-- A register file with KEY forgotten. -/
def RegFile.hideKey (x : RegFile) : RegFile := { x with key := 0 }

/-- A state with KEY forgotten, in the registers and in the snapshot (10_state.md R16, R26, R27). -/
def State.hideKey (s : State) : State :=
  { s with
    x := s.x.hideKey
    pending := s.pending.map fun p => ⟨p.word, { p.snap with x := p.snap.x.hideKey }⟩ }

/-- The block's own state (10_state.md R14), the outside world forgotten. -/
def State.block (s : State) : State :=
  { s with rstLow := false, response := none, rng := [], events := [], freeIdx := 0 }

end Sys2Proof.Machine
end

