-- ==== Sys2Proof/Certificates/Slice0/Obligations.lean ====
section
/-! DEFINITION. The statements for the provers, in the order of OBLIGATIONS.json. Each docstring names
the rule of spec/ it formalises. `State.response` is how the model writes an access's answer down: that a
write's answer carries no read data is log 5. -/

open Sys2Proof Sys2Proof.Machine

/-! ### Encoding -/

/-- Decoding an encoded well-formed command gives it back (30_encoding.md R42, R49, R50). -/
def Obligations.DecodeEncodeRoundTrip : Prop :=
  ∀ i : Instr, i.WellFormed → decodeWord (encode i) = .ok i

/-- A word that decodes is the encoding of the command it decodes to, and that command is well formed: no
other word means it (30_encoding.md R49, R51). -/
def Obligations.DecodedWordIsItsEncoding : Prop :=
  ∀ (w : Word) (i : Instr), decodeWord w = .ok i → encode i = w ∧ i.WellFormed

/-- The decoder accepts exactly the words whose fields OP, MS, CS, NEG, RSV are legal (30_encoding.md
R50). -/
def Obligations.DecoderAcceptsExactlyLegalWords : Prop :=
  ∀ w : Word, (∃ i, decodeWord w = .ok i) ↔ LegalWord w

/-- A decoded word lies in the opcode-table row of its mnemonic and in no other row (30_encoding.md R49,
opcode_table.json). -/
def Obligations.DecodedWordLiesInItsTableRow : Prop :=
  ∀ (w : Word) (i : Instr), decodeWord w = .ok i →
    ∀ r ∈ opcodeTable, r.covers w = true ↔ r.mnemonic = mnemonic i

/-- Laid out in little-endian byte lanes, a table word decodes as the word does (20_memory.md R32,
30_encoding.md R43). -/
def Obligations.ByteLanesDecodeAsTheWord : Prop :=
  ∀ (w : Word) (i : Instr), decodeTableWord 32 w.toNat = some i ↔ decodeWord w = .ok i

/-- Six words written out from the opcode map decode to the commands they stand for, and FADD with the
reserved MS = 3 is refused (30_encoding.md R49, R50, R51). -/
def Obligations.WordsOfTheOpcodeMapDecode : Prop :=
  decodeWord 0x00000000#32 = .ok .nop ∧
  decodeWord 0x00000101#32 = .ok (.fadd 1#2) ∧
  decodeWord 0x00000A05#32 = .ok (.fpow 2#2 true) ∧
  decodeWord 0x00000411#32 = .ok (.padd .user) ∧
  decodeWord 0x00000012#32 = .ok (.pmul .secp) ∧
  decodeWord 0x00000022#32 = .ok .verify ∧
  decodeWord 0x00000301#32 = .error .modulusSelect

/-! ### Steps -/

/-- A step takes the first event: a bus access is performed, an RNG word joins the words waiting, and
the engine's step runs the decoded pending command, reports a word the decoder rejects, and does nothing
when no command is pending or while `rst_n` is low (10_state.md R13, 30_encoding.md R50, R51,
60_exceptions.md R111, 70_reset_and_hazards.md R112). The model's choices in it: that an empty event list
is the engine's turn (log 1), that `withFetchWord` stands for the host's CMD write with the completion next
(log 2), that RNG words wait in a list (log 4), that the engine does nothing while `rst_n` is low (log
17). -/
def Obligations.StepRunsTheDecodedCommand : Prop :=
  (∀ (s : State) (p : Pending) (i : Instr),
    s.rstLow = false → s.pending = some p → decodeWord p.word = .ok i →
      (s.events = [] → step s = exec i s) ∧
      (∀ rest, s.events = .complete :: rest → step s = exec i { s with events := rest })) ∧
  (∀ (s : State) (nbits w : Nat) (i : Instr), decodeTableWord nbits w = some i →
    step (s.withFetchWord nbits w) = exec i { s.withFetchWord nbits w with events := s.events }) ∧
  (∀ (s : State) (p : Pending) (e : DecodeError),
    s.rstLow = false → s.pending = some p → decodeWord p.word = .error e →
      (s.events = [] → step s = .next (s.erroredWith 6#4 0#4)) ∧
      (∀ rest, s.events = .complete :: rest →
        step s = .next ({ s with events := rest }.erroredWith 6#4 0#4))) ∧
  (∀ s : State, s.pending = none ∨ s.rstLow = true →
    (s.events = [] → step s = .next s) ∧
    (∀ rest, s.events = .complete :: rest → step s = .next { s with events := rest })) ∧
  (∀ (s : State) (a : Access) (rest : List Event), s.events = .bus a :: rest →
    step s = .next (busAccess a { s with events := rest })) ∧
  (∀ (s : State) (w : U256) (rest : List Event), s.events = .rngWord w :: rest →
    step s = .next { s with rng := s.rng ++ [w], events := rest })

/-- An illegal word written to CMD of an idle block is accepted, and completes with ILLEGAL_COMMAND, info
0, and no other effect (30_encoding.md R51). -/
def Obligations.IllegalWordIsAcceptedThenReported : Prop :=
  ∀ (s : State) (w : Word), s.rstLow = false → s.status.busy = false → ¬ LegalWord w →
    ∃ t, busAccess (wordWrite 0x004#10 w) s = t ∧ t.cmd = w ∧ t.pending = some ⟨w, s.snapshot⟩ ∧
      engineTurn t = .next (t.erroredWith 6#4 0#4)

/-- No step of the block stops: every event, and every completion, answers a next state (derived from
10_state.md R13, 60_exceptions.md R99, R102). -/
def Obligations.StepAlwaysAnswersNext : Prop :=
  ∀ s : State, ∃ t, step s = .next t

/-- From every state that meets the invariant, a pending command other than SIGN is completed, or
abandoned by a reset, by the time the outside world's events have run out. It rests on log 1: that the
engine moves once the event list is empty is the model's choice, where 70_reset_and_hazards.md R123 makes
progress an assumption of fairness. -/
def Obligations.PendingCommandEndsOnceEventsRunOut : Prop :=
  ∀ (s : State) (p : Pending), s.Inv → s.pending = some p → decodeWord p.word ≠ .ok .sign →
    ∃ (k : Nat) (t : State), k ≤ s.events.length + 1 ∧ Host.Core.run Sys2Proof.core k s = .next t ∧
      t.pending = none ∧ t.status.busy = false

/-- Every step keeps the invariant: BUSY agrees with the pending command, reports are those of the error
table, a pending command agrees with CMD and KEY, and KEYV vouches for KEY and PUBX, PUBY (10_state.md
R14, R16, R17, R21, R23, 60_exceptions.md R97, R98). -/
def Obligations.StepKeepsInvariant : Prop :=
  ∀ s t : State, s.Inv → step s = .next t → t.Inv

/-- The state after reset meets the invariant (70_reset_and_hazards.md R113). -/
def Obligations.ResetMeetsInvariant : Prop := State.reset.Inv

/-- The state after reset: every data register 0, CMD, STATUS, CTRL, PFLAGS 0, no pending command, the
interrupt low, and the constants P, N, GX, GY and ID with their values (70_reset_and_hazards.md R114). -/
def Obligations.ResetLeavesTheListedValues : Prop :=
  (∀ r, State.reset.x.get r = 0#256) ∧ State.reset.cmd = 0#32 ∧ State.reset.status.toWord = 0#32 ∧
    State.reset.ctrl.toWord = 0#32 ∧ State.reset.pflags.toWord = 0#32 ∧ State.reset.pending = none ∧
    State.reset.irq = false ∧
    ConstReg.P.value =
      0xFFFFFFFFFFFFFFFFFFFFFFFFFFFFFFFFFFFFFFFFFFFFFFFFFFFFFFFEFFFFFC2F#256 ∧
    ConstReg.N.value =
      0xFFFFFFFFFFFFFFFFFFFFFFFFFFFFFFFEBAAEDCE6AF48A03BBFD25E8CD0364141#256 ∧
    ConstReg.GX.value =
      0x79BE667EF9DCBBAC55A06295CE870B07029BFCDB2DCE28D959F2815B16F81798#256 ∧
    ConstReg.GY.value =
      0x483ADA7726A3C4655DA4FBFC0E1108A8FD17B448A68554199C47D08FFB10D4B8#256 ∧
    readTarget State.reset .id = 0xEC256001#32

/-! ### The window -/

/-- An access that is not 4 bytes at a multiple of 4 answers `bus_err = 1`, read data 0, and changes no
state; every other access answers without an error (20_memory.md R33). -/
def Obligations.IllegalAccessChangesNoState : Prop :=
  ∀ (s : State) (a : Access), s.rstLow = false →
    (a.size ≠ .word ∨ a.off.toNat % 4 ≠ 0 →
      (a.op = .read → busAccess a s = { s with response := some ⟨true, some 0#32⟩ }) ∧
      (∀ v, a.op = .write v → busAccess a s = { s with response := some ⟨true, none⟩ })) ∧
    (a.size = .word → a.off.toNat % 4 = 0 → ∃ d, (busAccess a s).response = some ⟨false, d⟩)

/-- The register map: the five control registers, the words of the data and constant registers, and
nothing else (20_memory.md R30, R31, R35). -/
def Obligations.RegisterMapPlacesEveryWord : Prop :=
  (Target.ofOffset 0x000#10 = .id ∧ Target.ofOffset 0x004#10 = .cmd ∧
    Target.ofOffset 0x008#10 = .status ∧ Target.ofOffset 0x00C#10 = .ctrl ∧
    Target.ofOffset 0x010#10 = .pflags) ∧
  (∀ (r : Reg) (j : Fin 8), Target.ofOffset (regWordOffset r j) = .data r j) ∧
  (∀ j : Fin 8,
    Target.ofOffset (BitVec.ofNat 10 (0x300 + 4 * j.val)) = .const .P j ∧
    Target.ofOffset (BitVec.ofNat 10 (0x320 + 4 * j.val)) = .const .N j ∧
    Target.ofOffset (BitVec.ofNat 10 (0x340 + 4 * j.val)) = .const .GX j ∧
    Target.ofOffset (BitVec.ofNat 10 (0x360 + 4 * j.val)) = .const .GY j) ∧
  (∀ off : Offset,
    (0x014 ≤ off.toNat ∧ off.toNat < 0x100) ∨ 0x380 ≤ off.toNat → Target.ofOffset off = .reserved)

/-- A legal read has no side effect and returns the word of the register at its offset: ID, CMD, STATUS,
CTRL, PFLAGS, a word of a data register (0 for KEY), a word of a constant, 0 for a reserved offset
(20_memory.md R34, R35, 10_state.md R16, R18, R20, R21). -/
def Obligations.LegalReadReturnsTheMappedWord : Prop :=
  ∀ s : State, s.rstLow = false →
    busAccess (wordRead 0x000#10) s = { s with response := some ⟨false, some 0xEC256001#32⟩ } ∧
    busAccess (wordRead 0x004#10) s = { s with response := some ⟨false, some s.cmd⟩ } ∧
    busAccess (wordRead 0x008#10) s = { s with response := some ⟨false, some s.status.toWord⟩ } ∧
    busAccess (wordRead 0x00C#10) s =
      { s with response := some ⟨false, some (if s.ctrl.ie then 1#32 else 0#32)⟩ } ∧
    busAccess (wordRead 0x010#10) s = { s with response := some ⟨false, some s.pflags.toWord⟩ } ∧
    (∀ (r : Reg) (j : Fin 8), busAccess (wordRead (regWordOffset r j)) s =
      { s with
        response := some ⟨false, some (if r = .KEY then 0#32 else getWord (s.x.get r) j)⟩ }) ∧
    (∀ j : Fin 8,
      busAccess (wordRead (BitVec.ofNat 10 (0x300 + 4 * j.val))) s =
        { s with response := some ⟨false, some (getWord (BitVec.ofNat 256 Config.secpP) j)⟩ } ∧
      busAccess (wordRead (BitVec.ofNat 10 (0x320 + 4 * j.val))) s =
        { s with response := some ⟨false, some (getWord (BitVec.ofNat 256 Config.secpN) j)⟩ } ∧
      busAccess (wordRead (BitVec.ofNat 10 (0x340 + 4 * j.val))) s =
        { s with response := some ⟨false, some (getWord (BitVec.ofNat 256 Config.secpGX) j)⟩ } ∧
      busAccess (wordRead (BitVec.ofNat 10 (0x360 + 4 * j.val))) s =
        { s with response := some ⟨false, some (getWord (BitVec.ofNat 256 Config.secpGY) j)⟩ }) ∧
    (∀ off : Offset, off.toNat % 4 = 0 →
      (0x014 ≤ off.toNat ∧ off.toNat < 0x100) ∨ 0x380 ≤ off.toNat →
        busAccess (wordRead off) s = { s with response := some ⟨false, some 0#32⟩ })

/-- A word write to a writable register other than KEY, to an idle block or a busy one, changes that word
and nothing else of the block: the word reads back as written, and every other word of the window, control
registers and constants too, reads as before (20_memory.md R31, R34, R36, R37, 10_state.md R15). -/
def Obligations.WordReadAfterWordWrite : Prop :=
  ∀ (s : State) (r : Reg) (j : Fin 8) (v : Word),
    s.rstLow = false → r.hostWritable = true → r ≠ .KEY →
      busAccess (wordWrite (regWordOffset r j) v) s =
        { s with x := s.x.set r (setWord (s.x.get r) j v), response := some ⟨false, none⟩ } ∧
      (∀ g : Target, readTarget (busAccess (wordWrite (regWordOffset r j) v) s) g =
        if g = .data r j then v else readTarget s g) ∧
      (∀ (r' : Reg) (j' : Fin 8), r' ≠ .KEY →
        (busAccess (wordRead (regWordOffset r' j'))
            (busAccess (wordWrite (regWordOffset r j) v) s)).response =
          some ⟨false, some (if r' = r ∧ j' = j then v else getWord (s.x.get r') j')⟩)

/-- Eight word writes, as `WRX` makes them, leave the 256-bit value in the register and every other
register as it was, also for KEY while the block is idle (20_memory.md R31, 30_encoding.md R53,
10_state.md R16). -/
def Obligations.EightWordWritesSetTheRegister : Prop :=
  ∀ (s : State) (r : Reg) (v : U256),
    s.rstLow = false → r.hostWritable = true → (r = .KEY → s.status.busy = false) →
      ((List.finRange 8).foldl
        (fun t j => busAccess (wordWrite (regWordOffset r j) (getWord v j)) t) s).x = s.x.set r v

/-- Writes to ID, to the result registers XR, YR, PUBX, PUBY, to the constants and to reserved offsets
are ignored (20_memory.md R34, R35, 10_state.md R15, R18, R20). -/
def Obligations.ReadOnlyTargetsIgnoreWrites : Prop :=
  ∀ (s : State) (off : Offset) (v : Word), s.rstLow = false → off.toNat % 4 = 0 →
    (off.toNat = 0x000 ∨ (0x014 ≤ off.toNat ∧ off.toNat < 0x100) ∨
      (0x220 ≤ off.toNat ∧ off.toNat < 0x260) ∨ 0x2C0 ≤ off.toNat) →
    busAccess (wordWrite off v) s = { s with response := some ⟨false, none⟩ }

/-- A write of `v` to CMD of an idle block takes the snapshot and makes `v` the pending command, clearing
the report and keeping KEYV and OVR; to a busy one it only sets OVR (30_encoding.md R44). -/
def Obligations.CmdWriteAcceptsOrDrops : Prop :=
  ∀ (s : State) (v : Word), s.rstLow = false →
    (s.status.busy = false → busAccess (wordWrite 0x004#10 v) s =
      { s with
        cmd := v
        pending := some ⟨v, ⟨s.x, s.pflags.inf1, s.pflags.inf2, s.status.keyv⟩⟩
        status := ⟨true, false, false, false, s.status.keyv, s.status.ovr, 0#4, 0#4⟩
        response := some ⟨false, none⟩ }) ∧
    (s.status.busy = true → busAccess (wordWrite 0x004#10 v) s =
      { s with status := { s.status with ovr := true }, response := some ⟨false, none⟩ })

/-- A write to a KEY word of an idle block writes that word and clears KEYV; to a busy one it is dropped
and sets OVR; a read of any KEY word returns 0 (10_state.md R16). -/
def Obligations.KeyWordAccess : Prop :=
  ∀ (s : State) (j : Fin 8) (v : Word), s.rstLow = false →
    (s.status.busy = false → busAccess (wordWrite (regWordOffset .KEY j) v) s =
      { s with
        x := { s.x with key := setWord s.x.key j v }
        status := { s.status with keyv := false }
        response := some ⟨false, none⟩ }) ∧
    (s.status.busy = true → busAccess (wordWrite (regWordOffset .KEY j) v) s =
      { s with status := { s.status with ovr := true }, response := some ⟨false, none⟩ }) ∧
    (busAccess (wordRead (regWordOffset .KEY j)) s).response = some ⟨false, some 0#32⟩

/-- While BUSY, writes to CMD, to a KEY word and a CTRL write with KEYCLR = 1, SRST = 0 have no effect but
OVR; every other write takes effect (70_reset_and_hazards.md R116). -/
def Obligations.BusyDropsOnlyCommandAndKeyWrites : Prop :=
  ∀ (s : State) (v : Word), s.rstLow = false → s.status.busy = true →
    (∀ off : Offset,
      (off = 0x004#10 ∨ (∃ j, off = regWordOffset .KEY j) ∨
        (off = 0x00C#10 ∧ v[2] = true ∧ v[1] = false)) →
      busAccess (wordWrite off v) s =
        { s with status := { s.status with ovr := true }, response := some ⟨false, none⟩ }) ∧
    (∀ (r : Reg) (j : Fin 8), r.hostWritable = true → r ≠ .KEY →
      busAccess (wordWrite (regWordOffset r j) v) s =
        { s with x := s.x.set r (setWord (s.x.get r) j v), response := some ⟨false, none⟩ }) ∧
    (busAccess (wordWrite 0x008#10 v) s =
      { s with
        status :=
          { s.status with
            done := s.status.done && !v[1], ovr := s.status.ovr && !v[5] }
        response := some ⟨false, none⟩ }) ∧
    (busAccess (wordWrite 0x010#10 v) s =
      { s with
        pflags := ⟨v[0], v[1], s.pflags.infr⟩, response := some ⟨false, none⟩ }) ∧
    (v[1] = true →
      (busAccess (wordWrite 0x00C#10 v) s).block = State.reset) ∧
    (v[1] = false → v[2] = false → busAccess (wordWrite 0x00C#10 v) s =
      { s with ctrl := ⟨v[0]⟩, response := some ⟨false, none⟩ })

/-- A CTRL write with SRST = 1 resets every register and flag and abandons the pending command, whatever
its other bits and whether or not the block is busy (44_control.md R91, 70_reset_and_hazards.md R113). That
it leaves the outside world alone, `rst_n`, the RNG words, the events to come and the free answers, is the
model's reading (log 8; log 4 for the RNG words). -/
def Obligations.SoftResetClearsTheBlock : Prop :=
  ∀ (s : State) (v : Word), s.rstLow = false → v[1] = true →
    busAccess (wordWrite 0x00C#10 v) s =
      { State.reset with
        rstLow := s.rstLow, response := some ⟨false, none⟩, rng := s.rng, events := s.events
        freeIdx := s.freeIdx }

/-- A CTRL write with KEYCLR = 1 and SRST = 0 of an idle block clears KEY and KEYV and sets IE; PUBX and
PUBY stay; of a busy block it only sets OVR (44_control.md R92). -/
def Obligations.KeyClearWrite : Prop :=
  ∀ (s : State) (v : Word), s.rstLow = false → v[2] = true → v[1] = false →
    (s.status.busy = true → busAccess (wordWrite 0x00C#10 v) s =
      { s with status := { s.status with ovr := true }, response := some ⟨false, none⟩ }) ∧
    (s.status.busy = false → busAccess (wordWrite 0x00C#10 v) s =
      { s with
        x := { s.x with key := 0 }, status := { s.status with keyv := false }
        ctrl := ⟨v[0]⟩, response := some ⟨false, none⟩ })

/-- A CTRL write with SRST = KEYCLR = 0 sets IE and nothing else, also while BUSY; a PFLAGS write sets
INF1 and INF2 and leaves INFR (44_control.md R93, 10_state.md R25). -/
def Obligations.InterruptEnableAndPflagsWrites : Prop :=
  ∀ (s : State) (v : Word), s.rstLow = false →
    (v[1] = false → v[2] = false → busAccess (wordWrite 0x00C#10 v) s =
      { s with ctrl := ⟨v[0]⟩, response := some ⟨false, none⟩ }) ∧
    busAccess (wordWrite 0x010#10 v) s =
      { s with
        pflags := ⟨v[0], v[1], s.pflags.infr⟩, response := some ⟨false, none⟩ }

/-- A STATUS write clears DONE where bit 1 is 1 and OVR where bit 5 is 1, and does nothing else: ERR,
ERRCODE, ERRINFO and VALID stay; clearing DONE drops the interrupt (44_control.md R94). -/
def Obligations.AcknowledgeClearsOnlyDoneAndOverrun : Prop :=
  ∀ (s : State) (v : Word), s.rstLow = false →
    busAccess (wordWrite 0x008#10 v) s =
      { s with
        status :=
          { s.status with
            done := if v[1] then false else s.status.done
            ovr := if v[5] then false else s.status.ovr }
        response := some ⟨false, none⟩ } ∧
    (v[1] = true → (busAccess (wordWrite 0x008#10 v) s).irq = false)

/-- STATUS as read has BUSY, DONE, ERR, VALID, KEYV, OVR in bits 0 to 5, ERRCODE in [11:8], ERRINFO in
[15:12] and every other bit 0 (10_state.md R22); PFLAGS has INF1, INF2, INFR in bits 0 to 2 (R25). -/
def Obligations.StatusAndPflagsWordLayout : Prop :=
  (∀ st : Status, st.toWord.toNat =
    st.busy.toNat + 2 * st.done.toNat + 4 * st.err.toNat + 8 * st.valid.toNat + 16 * st.keyv.toNat +
      32 * st.ovr.toNat + 256 * st.errcode.toNat + 4096 * st.errinfo.toNat) ∧
  (∀ p : PFlags, p.toWord.toNat = p.inf1.toNat + 2 * p.inf2.toNat + 4 * p.infr.toNat)

/-- The interrupt is the level DONE and IE: it rises at any completion with IE = 1, when IE is set while
DONE is 1, and falls at acceptance, at reset, when DONE is acknowledged and when IE is cleared
(60_exceptions.md R104). -/
def Obligations.InterruptIsDoneAndEnable : Prop :=
  (∀ s : State, s.irq = (s.status.done && s.ctrl.ie)) ∧
  (∀ (i : Instr) (s t : State), s.pending ≠ none → exec i s = .next t → t.pending = none →
    t.irq = s.ctrl.ie) ∧
  (∀ (s : State) (v : Word), s.rstLow = false → v[1] = false → v[2] = false →
    (busAccess (wordWrite 0x00C#10 v) s).irq = (s.status.done && v[0])) ∧
  (∀ (s : State) (v : Word), s.rstLow = false → v[1] = true →
    (busAccess (wordWrite 0x008#10 v) s).irq = false) ∧
  (∀ (s : State) (v : Word), s.rstLow = false → s.status.busy = false →
    (busAccess (wordWrite 0x004#10 v) s).irq = false) ∧
  (∀ (s : State) (v : Word), s.rstLow = false → v[1] = true →
    (busAccess (wordWrite 0x00C#10 v) s).irq = false) ∧
  (∀ s : State, (hardwareReset s).irq = false)

/-- When `rst_n` falls the block is in its reset state at once, and its pending command abandoned; while it
is low no access and no completion changes the block; when it rises the block is as it was, so from a state
that meets the invariant it is idle, with nothing pending (70_reset_and_hazards.md R112, R113). That the
engine does nothing while `rst_n` is low is the model's reading of "held in reset" (log 17). -/
def Obligations.HardwareResetHoldsTheBlock : Prop :=
  (∀ (s : State) (rest : List Event), s.events = .rstFall :: rest →
    ∃ t, step s = .next t ∧ t.block = State.reset ∧ t.rstLow = true ∧ t.events = rest) ∧
  (∀ (s : State) (a : Access), s.rstLow = true →
    (busAccess a s).block = s.block ∧ (busAccess a s).rstLow = true) ∧
  (∀ s : State, s.rstLow = true → engineTurn s = .next s) ∧
  (∀ (s : State) (rest : List Event), s.events = .rstRise :: rest →
    ∃ t, step s = .next t ∧ t = { s with rstLow := false, events := rest } ∧
      (s.Inv → s.rstLow = true → t.pending = none ∧ t.status.busy = false))

/-- No bus access lets the host learn KEY: from two states that differ only in KEY, the same access gives
the same answer and states that differ only in KEY (10_state.md R16, R27). -/
def Obligations.BusAccessesDoNotRevealKey : Prop :=
  ∀ (a : Access) (s t : State), s.hideKey = t.hideKey →
    (busAccess a s).hideKey = (busAccess a t).hideKey ∧
    (busAccess a s).response = (busAccess a t).response

/-- Only the completions of KEYLD and SIGN depend on KEY: any other command, completed from two states
that differ only in KEY, gives states that differ only in KEY (10_state.md R27, 43_ecdsa.md R80, R82). -/
def Obligations.OnlyKeyldAndSignDependOnKey : Prop :=
  ∀ (i : Instr) (s t s' t' : State), i ≠ .keyld → i ≠ .sign → s.hideKey = t.hideKey →
    exec i s = .next s' → exec i t = .next t' → s'.hideKey = t'.hideKey

/-- A bus access other than a soft reset leaves XR, YR, PUBX, PUBY and INFR as they are and never sets
VALID; SR and SS, which the host may write (10_state.md R15), change only at a write to their own words. So
but for those writes results change only at a completion or a reset (70_reset_and_hazards.md R117). -/
def Obligations.BusAccessesKeepResults : Prop :=
  ∀ (s : State) (a : Access),
    (∀ v, a = wordWrite 0x00C#10 v → v[1] = false) →
      (busAccess a s).x.xr = s.x.xr ∧ (busAccess a s).x.yr = s.x.yr ∧
      (busAccess a s).x.pubx = s.x.pubx ∧ (busAccess a s).x.puby = s.x.puby ∧
      (busAccess a s).pflags.infr = s.pflags.infr ∧
      ((busAccess a s).status.valid = true → s.status.valid = true) ∧
      ((∀ j v, a ≠ wordWrite (regWordOffset .SR j) v) → (busAccess a s).x.sr = s.x.sr) ∧
      ((∀ j v, a ≠ wordWrite (regWordOffset .SS j) v) → (busAccess a s).x.ss = s.x.ss)

/-- A pending command does not see the host's later accesses: after any access but a soft reset it is
still pending with the same snapshot, and completes with the same report, VALID, KEYV and INFR and, without
an error, the same values in its result registers (10_state.md R13, R26, 70_reset_and_hazards.md R118). -/
def Obligations.LaterAccessesDoNotReachThePendingCommand : Prop :=
  ∀ (i : Instr) (s t t' : State) (a : Access),
    s.pending ≠ none → s.status.busy = true → (∀ v, a = wordWrite 0x00C#10 v → v[1] = false) →
      (busAccess a s).pending = s.pending ∧ (busAccess a s).status.busy = true ∧
      (exec i s = .next t → exec i (busAccess a s) = .next t' →
        t'.pending = t.pending ∧ t'.status.err = t.status.err ∧
        t'.status.errcode = t.status.errcode ∧ t'.status.errinfo = t.status.errinfo ∧
        t'.status.valid = t.status.valid ∧ t'.status.keyv = t.status.keyv ∧
        t'.pflags.infr = t.pflags.infr ∧
        (t.pending = none → t.status.err = false →
          ∀ r ∈ resultRegs i, t'.x.get r = t.x.get r))

/-! ### Field commands -/

/-- NOP, FCHK of an operand in range and PCHK of a valid point complete without an error, with no register
and no flag written but BUSY and DONE (44_control.md R90, 40_field.md R67, 41_point.md R74). -/
def Obligations.NopAndPassedChecksWriteNothing : Prop :=
  (∀ (s : State) (p : Pending), s.pending = some p → exec .nop s = .next (s.completedWith s.x)) ∧
  (∀ (s : State) (p : Pending) (ms : BitVec 2) (m : Nat),
    s.pending = some p → IsModulus ms p.snap m → p.snap.x.x1.toNat < m →
      exec (.fchk ms) s = .next (s.completedWith s.x)) ∧
  (∀ (s : State) (p : Pending) (cs : CurveSel) (C : Curve) (P : Point),
    s.pending = some p → IsCurve cs p.snap C →
      IsPointOperand p.snap.x.x1 p.snap.x.y1 p.snap.inf1 C P → SatisfiesCurve C P →
        exec (.pchk cs) s = .next (s.completedWith s.x))

/-- FADD writes `(a + b) mod m` to XR and nothing else (40_field.md R61, R55). -/
def Obligations.FaddWritesSum : Prop :=
  ∀ (s : State) (p : Pending) (ms : BitVec 2) (m : Nat),
    s.pending = some p → IsModulus ms p.snap m → p.snap.x.x1.toNat < m → p.snap.x.y1.toNat < m →
      exec (.fadd ms) s = .next (s.completedWith
        { s.x with xr := BitVec.ofNat 256 ((p.snap.x.x1.toNat + p.snap.x.y1.toNat) % m) })

/-- FSUB writes `(a - b) mod m` to XR and nothing else: `a - b`, or `a + m - b` when the difference is
negative (40_field.md R62, R55). -/
def Obligations.FsubWritesDifference : Prop :=
  ∀ (s : State) (p : Pending) (ms : BitVec 2) (m : Nat),
    s.pending = some p → IsModulus ms p.snap m → p.snap.x.x1.toNat < m → p.snap.x.y1.toNat < m →
      exec (.fsub ms) s = .next (s.completedWith
        { s.x with
          xr := BitVec.ofNat 256
            (if p.snap.x.y1.toNat ≤ p.snap.x.x1.toNat then p.snap.x.x1.toNat - p.snap.x.y1.toNat
             else p.snap.x.x1.toNat + m - p.snap.x.y1.toNat) })

/-- FMUL writes `(a * b) mod m` of the exact product to XR and nothing else (40_field.md R63, R56). -/
def Obligations.FmulWritesProduct : Prop :=
  ∀ (s : State) (p : Pending) (ms : BitVec 2) (m : Nat),
    s.pending = some p → IsModulus ms p.snap m → p.snap.x.x1.toNat < m → p.snap.x.y1.toNat < m →
      exec (.fmul ms) s = .next (s.completedWith
        { s.x with xr := BitVec.ofNat 256 (p.snap.x.x1.toNat * p.snap.x.y1.toNat % m) })

/-- FDIV writes `a * b^(m-2) mod m` to XR and nothing else; division by zero is no error and gives 0
(40_field.md R64). -/
def Obligations.FdivWritesQuotient : Prop :=
  ∀ (s : State) (p : Pending) (ms : BitVec 2) (m : Nat),
    s.pending = some p → IsModulus ms p.snap m → p.snap.x.x1.toNat < m → p.snap.x.y1.toNat < m →
      exec (.fdiv ms) s = .next (s.completedWith
        { s.x with
          xr := BitVec.ofNat 256 (p.snap.x.x1.toNat * (p.snap.x.y1.toNat ^ (m - 2) % m) % m) }) ∧
      (p.snap.x.y1.toNat = 0 →
        exec (.fdiv ms) s = .next (s.completedWith { s.x with xr := 0#256 }))

/-- FPOW writes `a^K mod m`, or for NEG = 1 and K not 0 `a^((-K) mod (m-1)) mod m`, to XR and nothing
else; the exponent 0 gives 1 (40_field.md R58, R65, 30_encoding.md R47). -/
def Obligations.FpowWritesPower : Prop :=
  ∀ (s : State) (p : Pending) (ms : BitVec 2) (neg : Bool) (m : Nat),
    s.pending = some p → IsModulus ms p.snap m → p.snap.x.x1.toNat < m →
      exec (.fpow ms neg) s = .next (s.completedWith
        { s.x with
          xr := BitVec.ofNat 256
            (if neg = true ∧ p.snap.x.k.toNat ≠ 0 then
              p.snap.x.x1.toNat ^ ((-(p.snap.x.k.toNat : Int)) % ((m - 1 : Nat) : Int)).toNat % m
             else p.snap.x.x1.toNat ^ p.snap.x.k.toNat % m) }) ∧
      (p.snap.x.k.toNat = 0 →
        exec (.fpow ms neg) s = .next (s.completedWith { s.x with xr := 1#256 }))

/-- FINV writes `a^(m-2) mod m` to XR and nothing else; the inverse of zero is 0 (40_field.md R66). -/
def Obligations.FinvWritesInverse : Prop :=
  ∀ (s : State) (p : Pending) (ms : BitVec 2) (m : Nat),
    s.pending = some p → IsModulus ms p.snap m → p.snap.x.x1.toNat < m →
      exec (.finv ms) s = .next (s.completedWith
        { s.x with xr := BitVec.ofNat 256 (p.snap.x.x1.toNat ^ (m - 2) % m) }) ∧
      (p.snap.x.x1.toNat = 0 →
        exec (.finv ms) s = .next (s.completedWith { s.x with xr := 0#256 }))

/-- Under a prime modulus FINV of a nonzero operand writes its inverse, and FDIV undoes FMUL
(40_field.md R60, R66). -/
def Obligations.InverseAndQuotientUnderPrimeModulus : Prop :=
  (∀ (s t : State) (p : Pending) (ms : BitVec 2) (m : Nat),
    s.pending = some p → IsModulus ms p.snap m → m.Prime →
      0 < p.snap.x.x1.toNat → p.snap.x.x1.toNat < m → exec (.finv ms) s = .next t →
        p.snap.x.x1.toNat * t.x.xr.toNat % m = 1) ∧
  (∀ (s t : State) (p : Pending) (ms : BitVec 2) (m a : Nat),
    s.pending = some p → IsModulus ms p.snap m → m.Prime → a < m →
      0 < p.snap.x.y1.toNat → p.snap.x.y1.toNat < m →
      p.snap.x.x1.toNat = a * p.snap.x.y1.toNat % m → exec (.fdiv ms) s = .next t →
        t.x.xr.toNat = a)

/-- The errors of the field commands in priority order: BAD_MODULUS before the range of A, the range of A
before the range of B (40_field.md R54, 60_exceptions.md R97, R98, R100). -/
def Obligations.FieldErrorsInPriorityOrder : Prop :=
  ∀ (s : State) (p : Pending) (ms : BitVec 2), s.pending = some p →
    (ms = 2#2 → BadUserModulus p.snap →
      ∀ i ∈ fieldCommands ms, exec i s = .next (s.erroredWith 7#4 11#4)) ∧
    (∀ m, IsModulus ms p.snap m → m ≤ p.snap.x.x1.toNat →
      ∀ i ∈ fieldCommands ms, exec i s = .next (s.erroredWith 1#4 0#4)) ∧
    (∀ m, IsModulus ms p.snap m → p.snap.x.x1.toNat < m → m ≤ p.snap.x.y1.toNat →
      ∀ i ∈ binaryFieldCommands ms, exec i s = .next (s.erroredWith 1#4 1#4))

/-! ### Point commands -/

/-- PADD of two valid points writes their sum to XR, YR and INFR (41_point.md R73, R75), and the sum is the
spec's in each of the five cases, on every curve with a legal modulus (R70): an operand `Inf`; a vertical
line; a chord, with the slope through `d^(m-2) mod m`; a tangent, with the slope through
`(2*y1)^(m-2) mod m`; a vertical tangent. `%` on integers is the residue of 00_scope.md R7. -/
def Obligations.PaddWritesSum : Prop :=
  (∀ (s : State) (p : Pending) (cs : CurveSel) (C : Curve) (P Q : Point),
    s.pending = some p → IsCurve cs p.snap C →
      IsPointOperand p.snap.x.x1 p.snap.x.y1 p.snap.inf1 C P → SatisfiesCurve C P →
      IsPointOperand p.snap.x.x2 p.snap.x.y2 p.snap.inf2 C Q → SatisfiesCurve C Q →
        exec (.padd cs) s = .next
          (s.completedWithPoint (s.x.withPoint (pointAdd C P Q)) (pointAdd C P Q).isInf)) ∧
  (∀ (C : Curve) (P : Point), pointAdd C .inf P = P ∧ pointAdd C P .inf = P) ∧
  (∀ (C : Curve) (x1 y1 x2 y2 : Nat), 3 ≤ C.m →
    (x1 = x2 → y1 ≠ y2 → pointAdd C (.aff x1 y1) (.aff x2 y2) = .inf) ∧
    (x1 ≠ x2 → ∀ s x3 : Int,
      s = ((y2 : Int) - y1) % C.m * ((((x2 : Int) - x1) % C.m) ^ (C.m - 2) % C.m) % C.m →
      x3 = (s * s - x1 - x2) % C.m →
        pointAdd C (.aff x1 y1) (.aff x2 y2) = .aff x3.toNat ((s * (x1 - x3) - y1) % C.m).toNat) ∧
    (y1 ≠ 0 → ∀ s x3 : Int,
      s = (3 * (x1 : Int) * x1 + C.a) % C.m * ((2 * (y1 : Int) % C.m) ^ (C.m - 2) % C.m) % C.m →
      x3 = (s * s - 2 * x1) % C.m →
        pointAdd C (.aff x1 y1) (.aff x1 y1) = .aff x3.toNat ((s * (x1 - x3) - y1) % C.m).toNat) ∧
    (y1 = 0 → pointAdd C (.aff x1 y1) (.aff x1 y1) = .inf))

/-- PMUL of a valid point writes `k*P` to XR, YR and INFR, with `k = K mod SECP_N` on secp256k1 and
`k = K` on the user curve (42_scalar.md R78, R79). -/
def Obligations.PmulWritesMultiple : Prop :=
  ∀ (s : State) (p : Pending) (cs : CurveSel) (C : Curve) (P : Point),
    s.pending = some p → IsCurve cs p.snap C →
      IsPointOperand p.snap.x.x1 p.snap.x.y1 p.snap.inf1 C P → SatisfiesCurve C P →
        ∀ k, k = (match cs with
            | .secp => p.snap.x.k.toNat % Config.secpN
            | .user => p.snap.x.k.toNat) →
          exec (.pmul cs) s = .next
            (s.completedWithPoint (s.x.withPoint (scalarMul C P k)) (scalarMul C P k).isInf)

/-- The errors of the point commands in priority order: BAD_MODULUS, CA, CB, then every coordinate range,
then the curve equation of P1, then of P2 (41_point.md R68, R69, 60_exceptions.md R97, R98, R100). -/
def Obligations.PointErrorsInPriorityOrder : Prop :=
  ∀ (s : State) (p : Pending), s.pending = some p →
    (BadUserModulus p.snap →
      ∀ i ∈ pointCommands .user, exec i s = .next (s.erroredWith 7#4 11#4)) ∧
    (¬ BadUserModulus p.snap → p.snap.x.m.toNat ≤ p.snap.x.ca.toNat →
      ∀ i ∈ pointCommands .user, exec i s = .next (s.erroredWith 1#4 12#4)) ∧
    (¬ BadUserModulus p.snap → p.snap.x.ca.toNat < p.snap.x.m.toNat →
      p.snap.x.m.toNat ≤ p.snap.x.cb.toNat →
      ∀ i ∈ pointCommands .user, exec i s = .next (s.erroredWith 1#4 13#4)) ∧
    (∀ (cs : CurveSel) (C : Curve), IsCurve cs p.snap C →
      (p.snap.inf1 = false → C.m ≤ p.snap.x.x1.toNat →
        ∀ i ∈ pointCommands cs, exec i s = .next (s.erroredWith 1#4 0#4)) ∧
      (p.snap.inf1 = false → p.snap.x.x1.toNat < C.m → C.m ≤ p.snap.x.y1.toNat →
        ∀ i ∈ pointCommands cs, exec i s = .next (s.erroredWith 1#4 1#4)) ∧
      (∀ P, IsPointOperand p.snap.x.x1 p.snap.x.y1 p.snap.inf1 C P →
        (p.snap.inf2 = false → C.m ≤ p.snap.x.x2.toNat →
          exec (.padd cs) s = .next (s.erroredWith 1#4 2#4)) ∧
        (p.snap.inf2 = false → p.snap.x.x2.toNat < C.m → C.m ≤ p.snap.x.y2.toNat →
          exec (.padd cs) s = .next (s.erroredWith 1#4 3#4)) ∧
        (¬ SatisfiesCurve C P →
          exec (.pchk cs) s = .next (s.erroredWith 4#4 0#4) ∧
          exec (.pmul cs) s = .next (s.erroredWith 4#4 0#4)) ∧
        (∀ Q, IsPointOperand p.snap.x.x2 p.snap.x.y2 p.snap.inf2 C Q →
          (¬ SatisfiesCurve C P → exec (.padd cs) s = .next (s.erroredWith 4#4 0#4)) ∧
          (SatisfiesCurve C P → ¬ SatisfiesCurve C Q →
            exec (.padd cs) s = .next (s.erroredWith 4#4 2#4)))))

/-- Under a prime modulus the sum of two points of the curve is a point of the curve, with coordinates in
range (41_point.md R72; the spec marks the curve part as general knowledge). -/
def Obligations.PointAddStaysOnCurve : Prop :=
  ∀ (C : Curve) (P Q : Point), C.m.Prime → 3 ≤ C.m →
    P.InRange C.m → Q.InRange C.m → SatisfiesCurve C P → SatisfiesCurve C Q →
      (pointAdd C P Q).InRange C.m ∧ SatisfiesCurve C (pointAdd C P Q)

/-- Scalar multiplication is the reference sequence, least significant bit first, for every curve, point
and scalar (42_scalar.md R76, R77). -/
def Obligations.ScalarMulIsTheReferenceSequence : Prop :=
  ∀ (C : Curve) (P : Point) (k : Nat), ReferenceRun C k .inf P (scalarMul C P k)

/-- On secp256k1 `k*P` is P added to itself k times, for every valid point P (42_scalar.md R79), and a
multiple `k*G` with `1 <= k < SECP_N` is affine: the spec's derivation that KEYLD and SIGN never meet
`Inf` (43_ecdsa.md R80, R82; log 9). -/
def Obligations.MultiplesOnSecpAreRepeatedSums : Prop :=
  (∀ (P : Point) (k : Nat), P.InRange Config.secpP → SatisfiesCurve secp P →
    scalarMul secp P k = Nat.iterate (pointAdd secp P) k .inf) ∧
  (∀ k : Nat, 1 ≤ k → k < Config.secpN →
    ∃ x y, scalarMul secp generator k = .aff x y ∧ x < Config.secpP ∧ y < Config.secpP)

/-! ### ECDSA commands -/

/-- KEYLD of a secret in `[1, SECP_N - 1]` writes the coordinates of `d*G` to PUBX and PUBY and sets KEYV
(43_ecdsa.md R80; that `d*G` is never `Inf` is the spec's derivation, log 9). -/
def Obligations.KeyldLoadsThePublicPoint : Prop :=
  ∀ (s : State) (p : Pending), s.pending = some p →
    1 ≤ p.snap.x.key.toNat → p.snap.x.key.toNat < Config.secpN →
      exec .keyld s = .next
        { s with
          x :=
            { s.x with
              pubx := BitVec.ofNat 256 (scalarMul secp generator p.snap.x.key.toNat).xCoord
              puby := BitVec.ofNat 256 (scalarMul secp generator p.snap.x.key.toNat).yCoord }
          status := { s.status with keyv := true, busy := false, done := true }
          pending := none }

/-- SIGN with a loaded key discards the RNG words that give no signature and commits the signature of the
first usable one, low-s normalized, to SR and SS (43_ecdsa.md R81, R82, R83, R84). That the RNG's words are
a list in the state, taken from the front, the rest left for the next SIGN, is the model's choice (log 4). -/
def Obligations.SignCommitsFirstUsableNonce : Prop :=
  ∀ (s : State) (p : Pending) (pre rest : List U256) (w : U256) (d z : Nat),
    s.pending = some p → p.snap.keyv = true → d = p.snap.x.key.toNat → z = p.snap.x.z.toNat →
      s.rng = pre ++ w :: rest → (∀ u ∈ pre, ¬ UsableNonce d z u) → UsableNonce d z w →
        exec .sign s = .next
          ({ s with rng := rest }.completedWith
            { s.x with
              sr := BitVec.ofNat 256 (nonceR w.toNat)
              ss := BitVec.ofNat 256
                (if nonceS d z w.toNat > Config.secpN / 2 then Config.secpN - nonceS d z w.toNat
                 else nonceS d z w.toNat) })

/-- SIGN with a loaded key and no usable RNG word stays pending, BUSY as it was (43_ecdsa.md R81,
70_reset_and_hazards.md R123). That the RNG's words are a list in the state, which such a turn of the engine
uses up, SIGN then waiting on an empty list, is the model's choice (log 4). -/
def Obligations.SignWaitsForTheRng : Prop :=
  ∀ (s : State) (p : Pending), s.pending = some p → p.snap.keyv = true →
    (∀ u ∈ s.rng, ¬ UsableNonce p.snap.x.key.toNat p.snap.x.z.toNat u) →
      exec .sign s = .next { s with rng := [] }

/-- Every signature SIGN commits has `1 <= r <= SECP_N - 1` and `1 <= s <= SECP_N div 2` (43_ecdsa.md R82,
R83, R84). -/
def Obligations.CommittedSignatureIsInRange : Prop :=
  ∀ (s t : State) (p : Pending), s.pending = some p → p.snap.keyv = true →
    exec .sign s = .next t → t.pending = none →
      1 ≤ t.x.sr.toNat ∧ t.x.sr.toNat ≤ Config.secpN - 1 ∧
      1 ≤ t.x.ss.toNat ∧ t.x.ss.toNat ≤ Config.secpN / 2

/-- VERIFY on a valid public point completes without error for every signature value, with VALID the
verdict: 0 when r or s is out of range, else whether the x coordinate of `u*G + v*Q` modulo `SECP_N` is r
(43_ecdsa.md R86, R87). -/
def Obligations.VerifyCommitsTheVerdict : Prop :=
  ∀ (s : State) (p : Pending) (Q : Point), s.pending = some p →
    IsPointOperand p.snap.x.x1 p.snap.x.y1 p.snap.inf1 secp Q → SatisfiesCurve secp Q →
      ∃ b : Bool,
        exec .verify s = .next
          { s with
            status := { s.status with valid := b, busy := false, done := true }, pending := none } ∧
        (b = true ↔ ValidSignature Q p.snap.x.z.toNat p.snap.x.sr.toNat p.snap.x.ss.toNat)

/-- The round trip: a signature that SIGN commits under a loaded key verifies, whatever the nonce: VERIFY
with the public point of that key, the same Z and the committed SR and SS sets VALID (43_ecdsa.md R88; the
spec marks it as derived). -/
def Obligations.SignedMessageVerifies : Prop :=
  ∀ (s t v : State) (p q : Pending),
    s.pending = some p → p.snap.keyv = true → p.snap.x.KeyLoaded →
    exec .sign s = .next t → t.pending = none →
    v.pending = some q → q.snap.inf1 = false →
    q.snap.x.x1 = p.snap.x.pubx → q.snap.x.y1 = p.snap.x.puby → q.snap.x.z = p.snap.x.z →
    q.snap.x.sr = t.x.sr → q.snap.x.ss = t.x.ss →
      exec .verify v = .next
        { v with
          status := { v.status with valid := true, busy := false, done := true }, pending := none }

/-- The errors of the ECDSA commands: KEYLD's key range, SIGN without a key, VERIFY's public point
(43_ecdsa.md R80, R82, R86, 60_exceptions.md R97, R98). -/
def Obligations.EcdsaErrors : Prop :=
  ∀ (s : State) (p : Pending), s.pending = some p →
    (p.snap.x.key.toNat = 0 ∨ Config.secpN ≤ p.snap.x.key.toNat →
      exec .keyld s = .next (s.erroredWith 1#4 6#4)) ∧
    (p.snap.keyv = false → exec .sign s = .next (s.erroredWith 8#4 6#4)) ∧
    (p.snap.inf1 = false → Config.secpP ≤ p.snap.x.x1.toNat →
      exec .verify s = .next (s.erroredWith 1#4 0#4)) ∧
    (p.snap.inf1 = false → p.snap.x.x1.toNat < Config.secpP → Config.secpP ≤ p.snap.x.y1.toNat →
      exec .verify s = .next (s.erroredWith 1#4 1#4)) ∧
    (∀ Q, IsPointOperand p.snap.x.x1 p.snap.x.y1 p.snap.inf1 secp Q → ¬ SatisfiesCurve secp Q →
      exec .verify s = .next (s.erroredWith 4#4 0#4))

/-! ### Whole-machine rules -/

/-- The frame of every command: only its result registers change among the data registers; INFR only by
PADD and PMUL, VALID only by VERIFY, KEYV only by KEYLD, RNG words are taken only by SIGN; CMD, CTRL,
INF1, INF2, OVR and the outside world stay; and every window word other than STATUS, PFLAGS and the
result registers reads as before (10_state.md R15, R23, R25, 40_field.md R55). -/
def Obligations.CommandFrame : Prop :=
  ∀ (i : Instr) (s t : State), exec i s = .next t →
    (∀ r, r ∉ resultRegs i → t.x.get r = s.x.get r) ∧
    t.cmd = s.cmd ∧ t.ctrl = s.ctrl ∧ t.pflags.inf1 = s.pflags.inf1 ∧ t.pflags.inf2 = s.pflags.inf2 ∧
    t.status.ovr = s.status.ovr ∧ t.rstLow = s.rstLow ∧ t.response = s.response ∧
    t.events = s.events ∧ t.freeIdx = s.freeIdx ∧
    ((∀ cs, i ≠ .padd cs ∧ i ≠ .pmul cs) → t.pflags.infr = s.pflags.infr) ∧
    (i ≠ .verify → t.status.valid = s.status.valid) ∧
    (i ≠ .keyld → t.status.keyv = s.status.keyv) ∧
    (i ≠ .sign → t.rng = s.rng) ∧
    (∀ g : Target, g.untouchedBy i → readTarget t g = readTarget s g)

/-- A completion that ends with an error changes nothing but the report, BUSY and DONE, and the report is
one of the error table (60_exceptions.md R97, R98, R102). -/
def Obligations.ErrorsArePrecise : Prop :=
  ∀ (i : Instr) (s t : State) (p : Pending), s.pending = some p → exec i s = .next t →
    s.status.err = false → t.status.err = true →
      t = s.erroredWith t.status.errcode t.status.errinfo ∧
      LegalReport t.status.errcode t.status.errinfo

/-! ### Units and host side -/

/-- The product through Montgomery form is the plain product modulo `m`, for every odd `m >= 3`: the
internal form of the multiplier is invisible (40_field.md R57). The form takes `R^-1 mod m` as
`((m + 1) div 2)^256 mod m`, which the spec does not give (log 15). -/
def Obligations.MontgomeryFormIsInvisible : Prop :=
  ∀ m a b : Nat, 3 ≤ m → m % 2 = 1 → a < m → b < m →
    fromMont (montMul (toMont a m) (toMont b m) m) m = a * b % m

/-- Word `j` of the message representative of a digest `b` is `{b[28-4j], b[29-4j], b[30-4j], b[31-4j]}`:
the digest is read as a big-endian integer (43_ecdsa.md R89). -/
def Obligations.DigestWordsAreBigEndian : Prop :=
  ∀ (b : Vector Byte 32) (j : Fin 8),
    getWord (digestToZ b) j =
      b[28 - 4 * j.val]'(by omega) ++ b[29 - 4 * j.val]'(by omega) ++ b[30 - 4 * j.val]'(by omega) ++
        b[31 - 4 * j.val]'(by omega)

/-- A platform address reaches the block exactly when it is `ECC_BASE + off` with `off` below 0x400, and
then at offset `off`; `ECC_BASE` is a multiple of 0x400 (20_memory.md R29). -/
def Obligations.WindowIsAtEccBase : Prop :=
  Config.eccBase % 0x400 = 0 ∧
  (∀ (off : Offset) (size : AccessSize) (op : BusOp),
    memAccess (Config.eccBase + off.toNat) size op = some ⟨off, size, op⟩) ∧
  (∀ (addr : Nat) (size : AccessSize) (op : BusOp) (a : Access),
    memAccess addr size op = some a → addr = Config.eccBase + a.off.toNat)
end

