-- ==== Sys2Proof/Laws/Arith.lean ====
section
/-! SUPPORT. The arithmetic of the block against the mathematics of 00_scope.md R7: residues, and
repeated squaring against the power. -/

namespace Sys2Proof.Machine

/-! ### Residues -/

theorem residue_lt (a : Int) {m : Nat} (hm : 0 < m) : residue a m < m := by
  have h1 := Int.emod_nonneg a (b := (m : Int)) (by omega)
  have h2 := Int.emod_lt_of_pos a (b := (m : Int)) (by omega)
  unfold residue
  omega

/-- The residue as an integer. -/
theorem residue_cast (a : Int) {m : Nat} (hm : 0 < m) : ((residue a m : Nat) : Int) = a % (m : Int) := by
  have h1 := Int.emod_nonneg a (b := (m : Int)) (by omega)
  unfold residue
  omega

/-- The residue in the ring of integers modulo `m`. -/
theorem residue_zmod (a : Int) {m : Nat} (hm : 0 < m) : ((residue a m : Nat) : ZMod m) = (a : ZMod m) := by
  have h : (((residue a m : Nat) : Int) : ZMod m) = ((a % (m : Int) : Int) : ZMod m) := by
    rw [residue_cast a hm]
  simpa using h

/-! ### Repeated squaring -/

/-- The loop with enough fuel computes the power. -/
theorem modExpLoop_eq (m : Nat) : ∀ (fuel acc b e : Nat), e < 2 ^ fuel →
    modExpLoop m fuel acc b e % m = acc * b ^ e % m := by
  intro fuel
  induction fuel with
  | zero =>
    intro acc b e he
    have : e = 0 := by simpa using he
    simp [modExpLoop, this]
  | succ f ih =>
    intro acc b e he
    unfold modExpLoop
    by_cases h0 : e = 0
    · simp [h0]
    · rw [if_neg h0, ih _ _ _ (by omega)]
      have hb : (b * b % m) ^ (e / 2) % m = (b * b) ^ (e / 2) % m := (Nat.pow_mod _ _ _).symm
      rcases Nat.mod_two_eq_zero_or_one e with h | h
      · have hp : b ^ e = (b * b) ^ (e / 2) := by
          rw [← pow_two, ← pow_mul]; congr 1; omega
        rw [if_neg (by omega), Nat.mul_mod, hb, ← Nat.mul_mod, hp]
      · have hp : b ^ e = b * (b * b) ^ (e / 2) := by
          rw [← pow_two, ← pow_mul, ← pow_succ']; congr 1; omega
        rw [if_pos h, Nat.mul_mod, hb, Nat.mod_mod, ← Nat.mul_mod, hp, Nat.mul_assoc]

/-- The loop keeps its answer reduced. -/
theorem modExpLoop_lt (m : Nat) : ∀ (fuel acc b e : Nat), acc < m → modExpLoop m fuel acc b e < m := by
  intro fuel
  induction fuel with
  | zero => intro acc b e h; exact h
  | succ f ih =>
    intro acc b e h
    unfold modExpLoop
    split
    · exact h
    · apply ih
      split
      · exact Nat.mod_lt _ (by omega)
      · exact h

/-- Repeated squaring is the power modulo `m` (00_scope.md R7). -/
theorem modExp_eq (a e : Nat) {m : Nat} (hm : 0 < m) : modExp a e m = a ^ e % m := by
  have h1 : modExp a e m < m := modExpLoop_lt m _ _ _ _ (Nat.mod_lt _ hm)
  have h2 := modExpLoop_eq m (e.log2 + 1) (1 % m) (a % m) e Nat.lt_log2_self
  rw [← Nat.mod_eq_of_lt h1]
  unfold modExp at *
  rw [h2, Nat.mul_mod, Nat.mod_mod, ← Nat.pow_mod, ← Nat.mul_mod, Nat.one_mul]

/-- `Pow` of a non-negative exponent (40_field.md R58). -/
theorem pow_natCast (a e : Nat) {m : Nat} (hm : 0 < m) : pow a (e : Int) m = a ^ e % m := by
  simp [pow, modExp_eq a e hm]

/-- `Pow` of a negative exponent (40_field.md R58). -/
theorem pow_of_neg (a : Nat) {e : Int} (he : e < 0) {m : Nat} (hm : 0 < m) :
    pow a e m = a ^ residue e (m - 1) % m := by
  simp [pow, Int.not_le.mpr he, modExp_eq a _ hm]

/-- Fermat's inverse is the power `m - 2` (40_field.md R66). -/
theorem fermatInverse_eq (a : Nat) {m : Nat} (hm : 2 ≤ m) : fermatInverse a m = a ^ (m - 2) % m := by
  unfold fermatInverse
  rw [show ((m : Int) - 2) = ((m - 2 : Nat) : Int) by omega]
  exact pow_natCast a (m - 2) (by omega)

theorem fermatInverse_lt (a : Nat) {m : Nat} (hm : 2 ≤ m) : fermatInverse a m < m := by
  rw [fermatInverse_eq a hm]; exact Nat.mod_lt _ (by omega)

/-- The Fermat power of a nonzero element of a prime field is its inverse. -/
theorem fermatInverse_zmod {m : Nat} (hm : m.Prime) {a : Nat} (h0 : (a : ZMod m) ≠ 0) :
    ((fermatInverse a m : Nat) : ZMod m) * (a : ZMod m) = 1 := by
  have hf := Fact.mk hm
  have h2 := hm.two_le
  rw [fermatInverse_eq a h2, ZMod.natCast_mod, Nat.cast_pow, ← pow_succ,
    show m - 2 + 1 = m - 1 by omega]
  exact ZMod.pow_card_sub_one_eq_one h0

/-- Numbers below `m` are equal when they are equal modulo `m`. -/
theorem eq_of_zmod_eq {m a b : Nat} (ha : a < m) (hb : b < m) (h : (a : ZMod m) = (b : ZMod m)) :
    a = b := by
  have h' := (ZMod.natCast_eq_natCast_iff' a b m).mp h
  rwa [Nat.mod_eq_of_lt ha, Nat.mod_eq_of_lt hb] at h'

/-! ### Scalar multiplication -/

/-- Fuel beyond the bit length of `k` changes nothing. -/
theorem scalarMulLoop_fuel (C : Curve) : ∀ (f g : Nat) (acc cur : Point) (k : Nat),
    k < 2 ^ f → k < 2 ^ g → scalarMulLoop C f acc cur k = scalarMulLoop C g acc cur k := by
  intro f
  induction f with
  | zero =>
    intro g acc cur k hf hg
    have hk : k = 0 := by simpa using hf
    cases g <;> simp [scalarMulLoop, hk]
  | succ f ih =>
    intro g acc cur k hf hg
    cases g with
    | zero =>
      have hk : k = 0 := by simpa using hg
      simp [scalarMulLoop, hk]
    | succ g =>
      unfold scalarMulLoop
      split
      · rfl
      · exact ih g _ _ _ (by omega) (by omega)

end Sys2Proof.Machine
end

