-- ==== Sys2Proof/Laws/Decode.lean ====
section
/-! SUPPORT. The fields of a command word as numbers, what each row's decoder accepts, and all a decoded
word can be. -/

namespace Sys2Proof

/-! ### Fields -/

theorem opField_toNat (w : Word) : (opField w).toNat = w.toNat % 0x100 := by
  simp [opField, BitVec.extractLsb'_toNat]

theorem msField_toNat (w : Word) : (msField w).toNat = w.toNat / 0x100 % 4 := by
  simp [msField, BitVec.extractLsb'_toNat, Nat.shiftRight_eq_div_pow]

theorem csField_toNat (w : Word) : (csField w).toNat = w.toNat / 0x400 % 2 := by
  simp [csField, BitVec.extractLsb'_toNat, Nat.shiftRight_eq_div_pow]

theorem negField_toNat (w : Word) : (negField w).toNat = w.toNat / 0x800 % 2 := by
  simp [negField, BitVec.extractLsb'_toNat, Nat.shiftRight_eq_div_pow]

theorem rsvField_toNat (w : Word) : (rsvField w).toNat = w.toNat / 0x1000 := by
  have := w.isLt
  simp [rsvField, BitVec.extractLsb'_toNat, Nat.shiftRight_eq_div_pow]
  omega

/-- A command word as a number. -/
theorem commandWord_toNat (op : BitVec 8) (ms : BitVec 2) (cs neg : BitVec 1) :
    (commandWord op ms cs neg).toNat =
      op.toNat + 0x100 * ms.toNat + 0x400 * cs.toNat + 0x800 * neg.toNat := by
  have := op.isLt; have := ms.isLt; have := cs.isLt; have := neg.isLt
  simp only [commandWord, BitVec.toNat_append]
  rw [← Nat.shiftLeft_add_eq_or_of_lt (by omega), ← Nat.shiftLeft_add_eq_or_of_lt (by omega),
    ← Nat.shiftLeft_add_eq_or_of_lt (by omega), ← Nat.shiftLeft_add_eq_or_of_lt (by omega)]
  simp only [Nat.shiftLeft_eq, BitVec.toNat_ofNat, Nat.zero_mod]
  omega

/-- A word with RSV = 0 is put together from its fields. -/
theorem word_eq_commandWord {w : Word} (hr : rsvField w = 0#20) :
    w = commandWord (opField w) (msField w) (csField w) (negField w) := by
  apply BitVec.eq_of_toNat_eq
  rw [commandWord_toNat, opField_toNat, msField_toNat, csField_toNat, negField_toNat]
  have h := congrArg BitVec.toNat hr
  rw [rsvField_toNat] at h
  simp only [BitVec.toNat_ofNat, Nat.zero_mod] at h
  omega

/-! ### What each row's decoder accepts -/

theorem decodeBare_ok {w : Word} {i j : Instr} :
    decodeBare w i = .ok j ↔ msField w = 0#2 ∧ csField w = 0#1 ∧ negField w = 0#1 ∧ j = i := by
  unfold decodeBare
  by_cases h1 : msField w = 0#2 <;> by_cases h2 : csField w = 0#1 <;>
    by_cases h3 : negField w = 0#1 <;> simp [h1, h2, h3]
  exact eq_comm

theorem decodeField_ok {w : Word} {mk : BitVec 2 → Instr} {j : Instr} :
    decodeField w mk = .ok j ↔
      msField w ≠ 3#2 ∧ csField w = 0#1 ∧ negField w = 0#1 ∧ j = mk (msField w) := by
  unfold decodeField legalModulusSelect
  by_cases h1 : msField w = 3#2 <;> by_cases h2 : csField w = 0#1 <;>
    by_cases h3 : negField w = 0#1 <;> simp [h1, h2, h3]
  exact eq_comm

theorem decodePow_ok {w : Word} {j : Instr} :
    decodePow w = .ok j ↔
      msField w ≠ 3#2 ∧ csField w = 0#1 ∧ j = .fpow (msField w) (negField w == 1#1) := by
  unfold decodePow legalModulusSelect
  by_cases h1 : msField w = 3#2 <;> by_cases h2 : csField w = 0#1 <;> simp [h1, h2]
  exact eq_comm

theorem decodePoint_ok {w : Word} {mk : CurveSel → Instr} {j : Instr} :
    decodePoint w mk = .ok j ↔
      msField w = 0#2 ∧ negField w = 0#1 ∧ j = mk (curveOfBit (csField w)) := by
  unfold decodePoint
  by_cases h1 : msField w = 0#2 <;> by_cases h2 : negField w = 0#1 <;> simp [h1, h2]
  exact eq_comm

/-- All a decoded word can be: RSV is 0, and OP picks one row, whose decoder accepts it. -/
theorem decodeWord_ok {w : Word} {i : Instr} :
    decodeWord w = .ok i ↔ rsvField w = 0#20 ∧
      ((opField w = 0x00#8 ∧ decodeBare w .nop = .ok i) ∨
        (opField w = 0x01#8 ∧ decodeField w .fadd = .ok i) ∨
        (opField w = 0x02#8 ∧ decodeField w .fsub = .ok i) ∨
        (opField w = 0x03#8 ∧ decodeField w .fmul = .ok i) ∨
        (opField w = 0x04#8 ∧ decodeField w .fdiv = .ok i) ∨
        (opField w = 0x05#8 ∧ decodePow w = .ok i) ∨
        (opField w = 0x06#8 ∧ decodeField w .finv = .ok i) ∨
        (opField w = 0x07#8 ∧ decodeField w .fchk = .ok i) ∨
        (opField w = 0x10#8 ∧ decodePoint w .pchk = .ok i) ∨
        (opField w = 0x11#8 ∧ decodePoint w .padd = .ok i) ∨
        (opField w = 0x12#8 ∧ decodePoint w .pmul = .ok i) ∨
        (opField w = 0x20#8 ∧ decodeBare w .keyld = .ok i) ∨
        (opField w = 0x21#8 ∧ decodeBare w .sign = .ok i) ∨
        (opField w = 0x22#8 ∧ decodeBare w .verify = .ok i)) := by
  unfold decodeWord
  by_cases hr : rsvField w = 0#20
  · simp only [hr, ne_eq, not_true_eq_false, if_false, true_and]
    by_cases h0 : opField w = 0x00#8
    · simp [h0]
    by_cases h1 : opField w = 0x01#8
    · simp [h1]
    by_cases h2 : opField w = 0x02#8
    · simp [h2]
    by_cases h3 : opField w = 0x03#8
    · simp [h3]
    by_cases h4 : opField w = 0x04#8
    · simp [h4]
    by_cases h5 : opField w = 0x05#8
    · simp [h5]
    by_cases h6 : opField w = 0x06#8
    · simp [h6]
    by_cases h7 : opField w = 0x07#8
    · simp [h7]
    by_cases h10 : opField w = 0x10#8
    · simp [h10]
    by_cases h11 : opField w = 0x11#8
    · simp [h11]
    by_cases h12 : opField w = 0x12#8
    · simp [h12]
    by_cases h20 : opField w = 0x20#8
    · simp [h20]
    by_cases h21 : opField w = 0x21#8
    · simp [h21]
    by_cases h22 : opField w = 0x22#8
    · simp [h22]
    simp [h0, h1, h2, h3, h4, h5, h6, h7, h10, h11, h12, h20, h21, h22]
  · simp [hr]

/-! ### Byte lanes -/

/-- A word put together from its byte lanes. -/
theorem wordOfBytes_bytesOfWord (w : Word) :
    wordOfBytes (w.extractLsb' 0 8) (w.extractLsb' 8 8) (w.extractLsb' 16 8) (w.extractLsb' 24 8) =
      w := by
  apply BitVec.eq_of_getLsbD_eq
  intro i hi
  simp only [wordOfBytes, BitVec.getLsbD_append, BitVec.getLsbD_extractLsb']
  by_cases h1 : i < 8
  · simp [h1]
  by_cases h2 : i - 8 < 8
  · simp [h1, h2, show 8 + (i - 8) = i by omega]
  by_cases h3 : i - 8 - 8 < 8
  · simp [h1, h2, h3, show 16 + (i - 8 - 8) = i by omega]
  · simp [h1, h2, h3, show i - 8 - 8 - 8 < 8 by omega, show 24 + (i - 8 - 8 - 8) = i by omega]

/-- Decoding the byte lanes of a word decodes the word and leaves no byte over. -/
theorem decodeBytes_bytesOfWord (w : Word) :
    decodeBytes (bytesOfWord w) = (decodeWord w).map fun i => (i, []) := by
  unfold decodeBytes bytesOfWord
  simp only [wordOfBytes_bytesOfWord]
  cases decodeWord w <;> rfl

end Sys2Proof
end

