-- ==== Sys2Proof/Laws/Digest.lean ====
section
/-! SUPPORT. The bytes of a digest as the base-256 digits of its integer. -/

namespace Sys2Proof.Machine

/-- The sum of `f i * β ^ i` is the number whose digits are `f`. -/
theorem ofDigits_ofFn (β : Nat) : ∀ {n : Nat} (f : Fin n → Nat),
    Nat.ofDigits β (List.ofFn f) = ∑ i, f i * β ^ i.val
  | 0, _ => rfl
  | n + 1, f => by
    rw [List.ofFn_succ, Nat.ofDigits_cons, ofDigits_ofFn β, Fin.sum_univ_succ, Finset.mul_sum]
    simp only [Fin.val_zero, pow_zero, mul_one, Fin.val_succ, pow_succ']
    exact congrArg _ (Finset.sum_congr rfl fun i _ => by ring)

/-- Digit `m` of a number written out in base `β`. -/
theorem ofDigits_digit {β : Nat} (hβ : 0 < β) : ∀ (l : List Nat) (m : Nat) (hm : m < l.length),
    (∀ d ∈ l, d < β) → Nat.ofDigits β l / β ^ m % β = l[m]
  | d :: l, 0, _, h => by
    rw [Nat.ofDigits_cons, pow_zero, Nat.div_one, Nat.add_mul_mod_self_left,
      Nat.mod_eq_of_lt (h d (by simp))]; rfl
  | d :: l, m + 1, hm, h => by
    rw [Nat.ofDigits_cons, pow_succ', ← Nat.div_div_eq_div_mul, Nat.add_mul_div_left _ _ hβ,
      Nat.div_eq_of_lt (h d (by simp)),
      Nat.zero_add, ofDigits_digit hβ l m (by simpa using hm) fun d hd => h d (by simp [hd])]
    rfl

/-- A digest's integer has the digest's bytes as its base-256 digits, last byte lowest
(43_ecdsa.md R89). -/
theorem digestInteger_eq_ofDigits (b : Vector Byte 32) :
    digestInteger b = Nat.ofDigits 256 (List.ofFn fun i : Fin 32 => (b.get i.rev).toNat) := by
  rw [ofDigits_ofFn, digestInteger, ← List.ofFn_eq_map, List.sum_ofFn, ← Equiv.sum_comp Fin.revPerm]
  exact Finset.sum_congr rfl fun i _ => by
    rw [Fin.revPerm_apply, Fin.val_rev]; congr 2; omega

/-- Byte `m` of a digest's integer, counted from the least significant, is byte `31 - m` of the digest. -/
theorem digestInteger_byte (b : Vector Byte 32) {m : Nat} (hm : m < 32) :
    digestInteger b / 256 ^ m % 256 = (b[31 - m]).toNat := by
  rw [digestInteger_eq_ofDigits, ofDigits_digit (by decide) _ m (by simpa using hm)]
  · rw [List.getElem_ofFn]
    simp only [Vector.get_eq_getElem, Fin.val_rev]
    congr 2; omega
  · intro d hd
    obtain ⟨i, rfl⟩ := List.mem_ofFn.mp hd
    exact (b.get i.rev).isLt

/-- A digest's integer fits register Z. -/
theorem digestInteger_lt (b : Vector Byte 32) : digestInteger b < 2 ^ 256 := by
  rw [digestInteger_eq_ofDigits]
  refine (Nat.ofDigits_lt_base_pow_length (by decide) fun d hd => ?_).trans_eq
    (by rw [List.length_ofFn]; norm_num)
  obtain ⟨i, rfl⟩ := List.mem_ofFn.mp hd
  exact (b.get i.rev).isLt

end Sys2Proof.Machine
end

