-- ==== Sys2Proof/Laws/State.lean ====
section
/-! SUPPORT. One lemma per field per state update, each true by definition, so that no later proof
unfolds a record update. -/

namespace Sys2Proof.Machine

/-! ### resetState -/

@[simp] theorem resetState_x (s : State) : (resetState s).x = RegFile.zero := rfl
@[simp] theorem resetState_cmd (s : State) : (resetState s).cmd = 0 := rfl
@[simp] theorem resetState_status (s : State) : (resetState s).status = Status.zero := rfl
@[simp] theorem resetState_ctrl (s : State) : (resetState s).ctrl = ⟨false⟩ := rfl
@[simp] theorem resetState_pflags (s : State) : (resetState s).pflags = PFlags.zero := rfl
@[simp] theorem resetState_pending (s : State) : (resetState s).pending = none := rfl
@[simp] theorem resetState_rstLow (s : State) : (resetState s).rstLow = s.rstLow := rfl
@[simp] theorem resetState_response (s : State) : (resetState s).response = s.response := rfl
@[simp] theorem resetState_rng (s : State) : (resetState s).rng = s.rng := rfl
@[simp] theorem resetState_events (s : State) : (resetState s).events = s.events := rfl
@[simp] theorem resetState_freeIdx (s : State) : (resetState s).freeIdx = s.freeIdx := rfl

/-! ### hardwareReset -/

@[simp] theorem hardwareReset_x (s : State) : (hardwareReset s).x = RegFile.zero := rfl
@[simp] theorem hardwareReset_cmd (s : State) : (hardwareReset s).cmd = 0 := rfl
@[simp] theorem hardwareReset_status (s : State) : (hardwareReset s).status = Status.zero := rfl
@[simp] theorem hardwareReset_ctrl (s : State) : (hardwareReset s).ctrl = ⟨false⟩ := rfl
@[simp] theorem hardwareReset_pflags (s : State) : (hardwareReset s).pflags = PFlags.zero := rfl
@[simp] theorem hardwareReset_pending (s : State) : (hardwareReset s).pending = none := rfl
@[simp] theorem hardwareReset_rstLow (s : State) : (hardwareReset s).rstLow = true := rfl
@[simp] theorem hardwareReset_response (s : State) : (hardwareReset s).response = s.response := rfl
@[simp] theorem hardwareReset_rng (s : State) : (hardwareReset s).rng = s.rng := rfl
@[simp] theorem hardwareReset_events (s : State) : (hardwareReset s).events = s.events := rfl
@[simp] theorem hardwareReset_freeIdx (s : State) : (hardwareReset s).freeIdx = s.freeIdx := rfl

/-! ### releaseReset -/

@[simp] theorem releaseReset_x (s : State) : (releaseReset s).x = s.x := rfl
@[simp] theorem releaseReset_cmd (s : State) : (releaseReset s).cmd = s.cmd := rfl
@[simp] theorem releaseReset_status (s : State) : (releaseReset s).status = s.status := rfl
@[simp] theorem releaseReset_ctrl (s : State) : (releaseReset s).ctrl = s.ctrl := rfl
@[simp] theorem releaseReset_pflags (s : State) : (releaseReset s).pflags = s.pflags := rfl
@[simp] theorem releaseReset_pending (s : State) : (releaseReset s).pending = s.pending := rfl
@[simp] theorem releaseReset_rstLow (s : State) : (releaseReset s).rstLow = false := rfl
@[simp] theorem releaseReset_response (s : State) : (releaseReset s).response = s.response := rfl
@[simp] theorem releaseReset_rng (s : State) : (releaseReset s).rng = s.rng := rfl
@[simp] theorem releaseReset_events (s : State) : (releaseReset s).events = s.events := rfl
@[simp] theorem releaseReset_freeIdx (s : State) : (releaseReset s).freeIdx = s.freeIdx := rfl

/-! ### accept -/

@[simp] theorem accept_x (v : Word) (s : State) : (accept v s).x = s.x := rfl
@[simp] theorem accept_cmd (v : Word) (s : State) : (accept v s).cmd = v := rfl
@[simp] theorem accept_status (v : Word) (s : State) :
    (accept v s).status =
      s.status.accepted := rfl
@[simp] theorem accept_ctrl (v : Word) (s : State) : (accept v s).ctrl = s.ctrl := rfl
@[simp] theorem accept_pflags (v : Word) (s : State) : (accept v s).pflags = s.pflags := rfl
@[simp] theorem accept_pending (v : Word) (s : State) :
    (accept v s).pending =
      some ⟨v, s.snapshot⟩ := rfl
@[simp] theorem accept_rstLow (v : Word) (s : State) : (accept v s).rstLow = s.rstLow := rfl
@[simp] theorem accept_response (v : Word) (s : State) : (accept v s).response = s.response := rfl
@[simp] theorem accept_rng (v : Word) (s : State) : (accept v s).rng = s.rng := rfl
@[simp] theorem accept_events (v : Word) (s : State) : (accept v s).events = s.events := rfl
@[simp] theorem accept_freeIdx (v : Word) (s : State) : (accept v s).freeIdx = s.freeIdx := rfl

/-! ### dropWrite -/

@[simp] theorem dropWrite_x (s : State) : (dropWrite s).x = s.x := rfl
@[simp] theorem dropWrite_cmd (s : State) : (dropWrite s).cmd = s.cmd := rfl
@[simp] theorem dropWrite_status (s : State) : (dropWrite s).status = s.status.overrun := rfl
@[simp] theorem dropWrite_ctrl (s : State) : (dropWrite s).ctrl = s.ctrl := rfl
@[simp] theorem dropWrite_pflags (s : State) : (dropWrite s).pflags = s.pflags := rfl
@[simp] theorem dropWrite_pending (s : State) : (dropWrite s).pending = s.pending := rfl
@[simp] theorem dropWrite_rstLow (s : State) : (dropWrite s).rstLow = s.rstLow := rfl
@[simp] theorem dropWrite_response (s : State) : (dropWrite s).response = s.response := rfl
@[simp] theorem dropWrite_rng (s : State) : (dropWrite s).rng = s.rng := rfl
@[simp] theorem dropWrite_events (s : State) : (dropWrite s).events = s.events := rfl
@[simp] theorem dropWrite_freeIdx (s : State) : (dropWrite s).freeIdx = s.freeIdx := rfl

/-! ### commit -/

@[simp] theorem commit_x (w : Writes) (s : State) : (commit w s).x = s.x.writeAll w.regs := rfl
@[simp] theorem commit_cmd (w : Writes) (s : State) : (commit w s).cmd = s.cmd := rfl
@[simp] theorem commit_status (w : Writes) (s : State) :
    (commit w s).status =
      { s.status with valid := w.valid.getD s.status.valid, keyv := w.keyv.getD s.status.keyv, busy := false, done := true } := rfl
@[simp] theorem commit_ctrl (w : Writes) (s : State) : (commit w s).ctrl = s.ctrl := rfl
@[simp] theorem commit_pflags (w : Writes) (s : State) :
    (commit w s).pflags =
      { s.pflags with infr := w.infr.getD s.pflags.infr } := rfl
@[simp] theorem commit_pending (w : Writes) (s : State) : (commit w s).pending = none := rfl
@[simp] theorem commit_rstLow (w : Writes) (s : State) : (commit w s).rstLow = s.rstLow := rfl
@[simp] theorem commit_response (w : Writes) (s : State) : (commit w s).response = s.response := rfl
@[simp] theorem commit_rng (w : Writes) (s : State) : (commit w s).rng = s.rng := rfl
@[simp] theorem commit_events (w : Writes) (s : State) : (commit w s).events = s.events := rfl
@[simp] theorem commit_freeIdx (w : Writes) (s : State) : (commit w s).freeIdx = s.freeIdx := rfl

/-! ### errorEntry -/

@[simp] theorem errorEntry_x (e : CmdError) (s : State) : (errorEntry e s).x = s.x := rfl
@[simp] theorem errorEntry_cmd (e : CmdError) (s : State) : (errorEntry e s).cmd = s.cmd := rfl
@[simp] theorem errorEntry_status (e : CmdError) (s : State) :
    (errorEntry e s).status =
      { s.status with err := true, errcode := e.code.number, errinfo := e.info, busy := false, done := true } := rfl
@[simp] theorem errorEntry_ctrl (e : CmdError) (s : State) : (errorEntry e s).ctrl = s.ctrl := rfl
@[simp] theorem errorEntry_pflags (e : CmdError) (s : State) :
    (errorEntry e s).pflags =
      s.pflags := rfl
@[simp] theorem errorEntry_pending (e : CmdError) (s : State) :
    (errorEntry e s).pending =
      none := rfl
@[simp] theorem errorEntry_rstLow (e : CmdError) (s : State) :
    (errorEntry e s).rstLow =
      s.rstLow := rfl
@[simp] theorem errorEntry_response (e : CmdError) (s : State) :
    (errorEntry e s).response =
      s.response := rfl
@[simp] theorem errorEntry_rng (e : CmdError) (s : State) : (errorEntry e s).rng = s.rng := rfl
@[simp] theorem errorEntry_events (e : CmdError) (s : State) :
    (errorEntry e s).events =
      s.events := rfl
@[simp] theorem errorEntry_freeIdx (e : CmdError) (s : State) :
    (errorEntry e s).freeIdx =
      s.freeIdx := rfl

/-! ### busError -/

@[simp] theorem busError_x (a : Access) (s : State) : (busError a s).x = s.x := rfl
@[simp] theorem busError_cmd (a : Access) (s : State) : (busError a s).cmd = s.cmd := rfl
@[simp] theorem busError_status (a : Access) (s : State) : (busError a s).status = s.status := rfl
@[simp] theorem busError_ctrl (a : Access) (s : State) : (busError a s).ctrl = s.ctrl := rfl
@[simp] theorem busError_pflags (a : Access) (s : State) : (busError a s).pflags = s.pflags := rfl
@[simp] theorem busError_pending (a : Access) (s : State) :
    (busError a s).pending =
      s.pending := rfl
@[simp] theorem busError_rstLow (a : Access) (s : State) : (busError a s).rstLow = s.rstLow := rfl
@[simp] theorem busError_response (a : Access) (s : State) :
    (busError a s).response =
      some ⟨true, a.op.answer 0⟩ := rfl
@[simp] theorem busError_rng (a : Access) (s : State) : (busError a s).rng = s.rng := rfl
@[simp] theorem busError_events (a : Access) (s : State) : (busError a s).events = s.events := rfl
@[simp] theorem busError_freeIdx (a : Access) (s : State) :
    (busError a s).freeIdx =
      s.freeIdx := rfl

/-! ### heldAccess -/

@[simp] theorem heldAccess_x (a : Access) (s : State) : (heldAccess a s).x = s.x := rfl
@[simp] theorem heldAccess_cmd (a : Access) (s : State) : (heldAccess a s).cmd = s.cmd := rfl
@[simp] theorem heldAccess_status (a : Access) (s : State) :
    (heldAccess a s).status =
      s.status := rfl
@[simp] theorem heldAccess_ctrl (a : Access) (s : State) : (heldAccess a s).ctrl = s.ctrl := rfl
@[simp] theorem heldAccess_pflags (a : Access) (s : State) :
    (heldAccess a s).pflags =
      s.pflags := rfl
@[simp] theorem heldAccess_pending (a : Access) (s : State) :
    (heldAccess a s).pending =
      s.pending := rfl
@[simp] theorem heldAccess_rstLow (a : Access) (s : State) :
    (heldAccess a s).rstLow =
      s.rstLow := rfl
@[simp] theorem heldAccess_response (a : Access) (s : State) :
    (heldAccess a s).response =
      some ⟨Config.platformErr s.freeIdx, a.op.answer (Config.platformData s.freeIdx)⟩ := rfl
@[simp] theorem heldAccess_rng (a : Access) (s : State) : (heldAccess a s).rng = s.rng := rfl
@[simp] theorem heldAccess_events (a : Access) (s : State) :
    (heldAccess a s).events =
      s.events := rfl
@[simp] theorem heldAccess_freeIdx (a : Access) (s : State) :
    (heldAccess a s).freeIdx =
      s.freeIdx + 1 := rfl

/-! ### withFetchWord -/

@[simp] theorem State.withFetchWord_x (s : State) (nbits w : Nat) :
    (s.withFetchWord nbits w).x = s.x := rfl
@[simp] theorem State.withFetchWord_cmd (s : State) (nbits w : Nat) :
    (s.withFetchWord nbits w).cmd = tableWord nbits w := rfl
@[simp] theorem State.withFetchWord_status (s : State) (nbits w : Nat) :
    (s.withFetchWord nbits w).status = s.status.accepted := rfl
@[simp] theorem State.withFetchWord_ctrl (s : State) (nbits w : Nat) :
    (s.withFetchWord nbits w).ctrl = s.ctrl := rfl
@[simp] theorem State.withFetchWord_pflags (s : State) (nbits w : Nat) :
    (s.withFetchWord nbits w).pflags = s.pflags := rfl
@[simp] theorem State.withFetchWord_pending (s : State) (nbits w : Nat) :
    (s.withFetchWord nbits w).pending = some ⟨tableWord nbits w, s.snapshot⟩ := rfl
@[simp] theorem State.withFetchWord_rstLow (s : State) (nbits w : Nat) :
    (s.withFetchWord nbits w).rstLow = false := rfl
@[simp] theorem State.withFetchWord_response (s : State) (nbits w : Nat) :
    (s.withFetchWord nbits w).response = s.response := rfl
@[simp] theorem State.withFetchWord_rng (s : State) (nbits w : Nat) :
    (s.withFetchWord nbits w).rng = s.rng := rfl
@[simp] theorem State.withFetchWord_events (s : State) (nbits w : Nat) :
    (s.withFetchWord nbits w).events = .complete :: s.events := rfl
@[simp] theorem State.withFetchWord_freeIdx (s : State) (nbits w : Nat) :
    (s.withFetchWord nbits w).freeIdx = s.freeIdx := rfl

/-! ### Status -/

@[simp] theorem Status.accepted_busy (st : Status) :
    (st.accepted).busy = true := rfl
@[simp] theorem Status.accepted_done (st : Status) :
    (st.accepted).done = false := rfl
@[simp] theorem Status.accepted_err (st : Status) :
    (st.accepted).err = false := rfl
@[simp] theorem Status.accepted_valid (st : Status) :
    (st.accepted).valid = false := rfl
@[simp] theorem Status.accepted_keyv (st : Status) :
    (st.accepted).keyv = st.keyv := rfl
@[simp] theorem Status.accepted_ovr (st : Status) :
    (st.accepted).ovr = st.ovr := rfl
@[simp] theorem Status.accepted_errcode (st : Status) :
    (st.accepted).errcode = 0 := rfl
@[simp] theorem Status.accepted_errinfo (st : Status) :
    (st.accepted).errinfo = 0 := rfl

@[simp] theorem Status.completed_busy (st : Status) :
    (st.completed).busy = false := rfl
@[simp] theorem Status.completed_done (st : Status) :
    (st.completed).done = true := rfl
@[simp] theorem Status.completed_err (st : Status) :
    (st.completed).err = st.err := rfl
@[simp] theorem Status.completed_valid (st : Status) :
    (st.completed).valid = st.valid := rfl
@[simp] theorem Status.completed_keyv (st : Status) :
    (st.completed).keyv = st.keyv := rfl
@[simp] theorem Status.completed_ovr (st : Status) :
    (st.completed).ovr = st.ovr := rfl
@[simp] theorem Status.completed_errcode (st : Status) :
    (st.completed).errcode = st.errcode := rfl
@[simp] theorem Status.completed_errinfo (st : Status) :
    (st.completed).errinfo = st.errinfo := rfl

@[simp] theorem Status.reported_busy (e : CmdError) (st : Status) :
    (st.reported e).busy = st.busy := rfl
@[simp] theorem Status.reported_done (e : CmdError) (st : Status) :
    (st.reported e).done = st.done := rfl
@[simp] theorem Status.reported_err (e : CmdError) (st : Status) :
    (st.reported e).err = true := rfl
@[simp] theorem Status.reported_valid (e : CmdError) (st : Status) :
    (st.reported e).valid = st.valid := rfl
@[simp] theorem Status.reported_keyv (e : CmdError) (st : Status) :
    (st.reported e).keyv = st.keyv := rfl
@[simp] theorem Status.reported_ovr (e : CmdError) (st : Status) :
    (st.reported e).ovr = st.ovr := rfl
@[simp] theorem Status.reported_errcode (e : CmdError) (st : Status) :
    (st.reported e).errcode = e.code.number := rfl
@[simp] theorem Status.reported_errinfo (e : CmdError) (st : Status) :
    (st.reported e).errinfo = e.info := rfl

@[simp] theorem Status.overrun_busy (st : Status) :
    (st.overrun).busy = st.busy := rfl
@[simp] theorem Status.overrun_done (st : Status) :
    (st.overrun).done = st.done := rfl
@[simp] theorem Status.overrun_err (st : Status) :
    (st.overrun).err = st.err := rfl
@[simp] theorem Status.overrun_valid (st : Status) :
    (st.overrun).valid = st.valid := rfl
@[simp] theorem Status.overrun_keyv (st : Status) :
    (st.overrun).keyv = st.keyv := rfl
@[simp] theorem Status.overrun_ovr (st : Status) :
    (st.overrun).ovr = true := rfl
@[simp] theorem Status.overrun_errcode (st : Status) :
    (st.overrun).errcode = st.errcode := rfl
@[simp] theorem Status.overrun_errinfo (st : Status) :
    (st.overrun).errinfo = st.errinfo := rfl

@[simp] theorem Status.acknowledge_busy (v : Word) (st : Status) :
    (st.acknowledge v).busy = st.busy := rfl
@[simp] theorem Status.acknowledge_done (v : Word) (st : Status) :
    (st.acknowledge v).done = (st.done && !v[1]) := rfl
@[simp] theorem Status.acknowledge_err (v : Word) (st : Status) :
    (st.acknowledge v).err = st.err := rfl
@[simp] theorem Status.acknowledge_valid (v : Word) (st : Status) :
    (st.acknowledge v).valid = st.valid := rfl
@[simp] theorem Status.acknowledge_keyv (v : Word) (st : Status) :
    (st.acknowledge v).keyv = st.keyv := rfl
@[simp] theorem Status.acknowledge_ovr (v : Word) (st : Status) :
    (st.acknowledge v).ovr = (st.ovr && !v[5]) := rfl
@[simp] theorem Status.acknowledge_errcode (v : Word) (st : Status) :
    (st.acknowledge v).errcode = st.errcode := rfl
@[simp] theorem Status.acknowledge_errinfo (v : Word) (st : Status) :
    (st.acknowledge v).errinfo = st.errinfo := rfl

end Sys2Proof.Machine
end

