-- ==== Sys2Proof/Laws/Ops.lean ====
section
/-! SUPPORT. What the shared operations do: reading and writing registers and words, the checks that
raise errors, completion, and the cases of a host access. -/

namespace Sys2Proof.Machine

/-! ### Registers -/

@[simp] theorem RegFile.get_set_same (x : RegFile) (r : Reg) (v : U256) : (x.set r v).get r = v := by
  cases r <;> rfl

theorem RegFile.get_set_of_ne (x : RegFile) {r r' : Reg} (v : U256) (h : r' ≠ r) :
    (x.set r v).get r' = x.get r' := by
  cases r <;> cases r' <;> first | rfl | exact absurd rfl h

/-- Reading after a write: the value written, or what was there before. -/
theorem RegFile.get_set (x : RegFile) (r r' : Reg) (v : U256) :
    (x.set r v).get r' = if r' = r then v else x.get r' := by
  split
  · subst r'; exact x.get_set_same r v
  · exact x.get_set_of_ne v ‹_›

/-- A register not in the list keeps its value. -/
theorem RegFile.get_writeAll_of_not_mem (ws : List (Reg × U256)) :
    ∀ (x : RegFile) (r : Reg), r ∉ ws.map Prod.fst → (x.writeAll ws).get r = x.get r := by
  induction ws with
  | nil => intro x r _; rfl
  | cons w ws ih =>
    intro x r h
    simp only [List.map_cons, List.mem_cons, not_or] at h
    exact (ih _ r h.2).trans (x.get_set_of_ne _ h.1)

@[simp] theorem RegFile.writeAll_nil (x : RegFile) : x.writeAll [] = x := rfl

@[simp] theorem RegFile.writeAll_cons (x : RegFile) (w : Reg × U256) (ws : List (Reg × U256)) :
    x.writeAll (w :: ws) = (x.set w.1 w.2).writeAll ws := rfl

/-- Equal registers make equal register files. -/
theorem RegFile.ext_get {x y : RegFile} (h : ∀ r, x.get r = y.get r) : x = y := by
  cases x; cases y
  have h1 := h .X1; have h2 := h .Y1; have h3 := h .X2; have h4 := h .Y2
  have h5 := h .K; have h6 := h .Z; have h7 := h .KEY; have h8 := h .SR
  have h9 := h .SS; have h10 := h .XR; have h11 := h .YR; have h12 := h .M
  have h13 := h .CA; have h14 := h .CB; have h15 := h .PUBX; have h16 := h .PUBY
  simp only [RegFile.get] at *
  simp [*]

/-! ### Words of a 256-bit register -/

theorem getLsbD_getWord (x : U256) (j : Fin 8) (n : Nat) :
    (getWord x j).getLsbD n = (decide (n < 32) && x.getLsbD (32 * j.val + n)) := by
  simp [getWord, BitVec.getLsbD_extractLsb']

theorem getLsbD_setWord (x : U256) (j : Fin 8) (v : Word) (n : Nat) (hn : n < 256) :
    (setWord x j v).getLsbD n =
      if 32 * j.val ≤ n ∧ n < 32 * j.val + 32 then v.getLsbD (n - 32 * j.val) else x.getLsbD n := by
  have ones : ∀ i : Nat, (0xFFFFFFFF#32).getLsbD i = decide (i < 32) := by
    intro i
    rw [show (0xFFFFFFFF#32 : Word) = BitVec.allOnes 32 from rfl, BitVec.getLsbD_allOnes]
  simp only [setWord, BitVec.getLsbD_or, BitVec.getLsbD_and, BitVec.getLsbD_not,
    BitVec.getLsbD_shiftLeft, BitVec.truncate_eq_setWidth, BitVec.getLsbD_setWidth, ones]
  by_cases h1 : 32 * j.val ≤ n
  · by_cases h2 : n < 32 * j.val + 32
    · have : n - 32 * j.val < 32 := by omega
      have h3 : n - 32 * j.val < 256 := by omega
      simp [h1, h2, hn, this, h3, Nat.not_lt.mpr h1]
    · have : ¬ n - 32 * j.val < 32 := by omega
      have hv : v.getLsbD (n - 32 * j.val) = false := BitVec.getLsbD_of_ge _ _ (by omega)
      simp [h1, h2, hn, this, hv]
  · have : n < 32 * j.val := by omega
    simp [h1, this, hn]

/-- A word just written reads as written. -/
@[simp] theorem getWord_setWord_same (x : U256) (j : Fin 8) (v : Word) :
    getWord (setWord x j v) j = v := by
  apply BitVec.eq_of_getLsbD_eq
  intro i hi
  have hj := j.isLt
  rw [getLsbD_getWord, getLsbD_setWord _ _ _ _ (by omega)]
  simp [hi]

/-- The other words keep their value. -/
theorem getWord_setWord_of_ne (x : U256) {j j' : Fin 8} (v : Word) (h : j' ≠ j) :
    getWord (setWord x j v) j' = getWord x j' := by
  apply BitVec.eq_of_getLsbD_eq
  intro i hi
  have hj := j.isLt
  have hj' := j'.isLt
  have hne : j'.val ≠ j.val := fun e => h (Fin.ext e)
  rw [getLsbD_getWord, getLsbD_getWord, getLsbD_setWord _ _ _ _ (by omega)]
  rw [if_neg (by omega)]

/-- Two 256-bit values with the same eight words are equal. -/
theorem eq_of_getWord_eq {x y : U256} (h : ∀ j, getWord x j = getWord y j) : x = y := by
  apply BitVec.eq_of_getLsbD_eq
  intro i hi
  have hj := congrArg (fun w : Word => w.getLsbD (i % 32)) (h ⟨i / 32, by omega⟩)
  simp only [getLsbD_getWord] at hj
  have h1 : 32 * (i / 32) + i % 32 = i := by omega
  have h2 : i % 32 < 32 := by omega
  simpa [h1, h2] using hj

/-! ### Checks and outcomes -/

@[simp] theorem require_true (code : ErrorCode) (info : BitVec 4) :
    require true code info = .ok () := rfl

@[simp] theorem require_false (code : ErrorCode) (info : BitVec 4) :
    require false code info = .error ⟨code, info⟩ := rfl

theorem require_ok_iff {c : Bool} {code : ErrorCode} {info : BitVec 4} :
    require c code info = .ok () ↔ c = true := by cases c <;> simp

@[simp] theorem bind_ok {ε α β : Type} (a : α) (f : α → Except ε β) :
    ((Except.ok a : Except ε α) >>= f) = f a := rfl

@[simp] theorem bind_error {ε α β : Type} (e : ε) (f : α → Except ε β) :
    ((Except.error e : Except ε α) >>= f) = .error e := rfl

/-- A sequence of checks that succeeds: the first succeeds, and the rest does from its answer. -/
theorem bind_eq_ok {ε α β : Type} {x : Except ε α} {f : α → Except ε β} {b : β}
    (h : (x >>= f) = .ok b) : ∃ a, x = .ok a ∧ f a = .ok b := by
  cases x with
  | error e => cases h
  | ok a => exact ⟨a, rfl, h⟩

/-- A sequence of checks that fails: the first fails, or it succeeds and the rest fails. -/
theorem bind_eq_error {ε α β : Type} {x : Except ε α} {f : α → Except ε β} {e : ε}
    (h : (x >>= f) = .error e) : x = .error e ∨ ∃ a, x = .ok a ∧ f a = .error e := by
  cases x with
  | error e' => left; cases h; rfl
  | ok a => exact .inr ⟨a, rfl, h⟩

/-- All a completion can do: with a command pending, commit or enter the error. -/
theorem completeWith_eq (f : Snapshot → Except CmdError Writes) {s : State} {p : Pending}
    (h : s.pending = some p) : completeWith f s = .next (applyOutcome (f p.snap) s) := by
  simp [completeWith, h]

/-- A completion that answers a next state had a command pending, and committed or entered an error. -/
theorem completeWith_cases {f : Snapshot → Except CmdError Writes} {s t : State}
    (h : completeWith f s = .next t) :
    ∃ p, s.pending = some p ∧
      ((∃ w, f p.snap = .ok w ∧ t = commit w s) ∨ (∃ e, f p.snap = .error e ∧ t = errorEntry e s)) := by
  unfold completeWith at h
  cases hp : s.pending with
  | none => rw [hp] at h; cases h
  | some p =>
    rw [hp] at h
    refine ⟨p, rfl, ?_⟩
    cases hf : f p.snap with
    | ok w => simp only [hf, applyOutcome] at h; exact .inl ⟨w, rfl, by cases h; rfl⟩
    | error e => simp only [hf, applyOutcome] at h; exact .inr ⟨e, rfl, by cases h; rfl⟩

/-- All SIGN can do: commit a signature found among the words, wait with the words used up, or report
NO_KEY. -/
theorem execSign_cases {s t : State} (h : execSign s = .next t) :
    ∃ p, s.pending = some p ∧
      ((p.snap.keyv = true ∧ ∃ rs rest,
          signSearch (p.snap.val .KEY) (p.snap.val .Z) s.rng = some (rs, rest) ∧
            t = commit (signResult rs) { s with rng := rest }) ∨
        (p.snap.keyv = true ∧ signSearch (p.snap.val .KEY) (p.snap.val .Z) s.rng = none ∧
          t = { s with rng := [] }) ∨
        (p.snap.keyv = false ∧ t = errorEntry ⟨.noKey, Reg.KEY.index⟩ s)) := by
  unfold execSign at h
  obtain hp | ⟨p, hp⟩ := Option.eq_none_or_eq_some s.pending
  · rw [hp] at h; cases h
  · rw [hp] at h
    refine ⟨p, hp, ?_⟩
    simp only [signComplete] at h
    cases hk : p.snap.keyv with
    | false => simp only [hk] at h; exact .inr (.inr ⟨rfl, by cases h; rfl⟩)
    | true =>
      cases hsr : signSearch (p.snap.val .KEY) (p.snap.val .Z) s.rng with
      | none => simp only [hk, hsr] at h; exact .inr (.inl ⟨rfl, rfl, by cases h; rfl⟩)
      | some q =>
        simp only [hk, hsr] at h
        exact .inl ⟨rfl, q.1, q.2, rfl, by cases h; rfl⟩

/-! ### Host accesses -/

/-- The three kinds of access: held in reset, legal, bus error. -/
theorem busAccess_cases (a : Access) (s : State) :
    (s.rstLow = true ∧ busAccess a s = heldAccess a s) ∨
      (s.rstLow = false ∧ a.legal = true ∧ busAccess a s = legalAccess a s) ∨
      (s.rstLow = false ∧ a.legal = false ∧ busAccess a s = busError a s) := by
  unfold busAccess
  cases s.rstLow <;> cases a.legal <;> simp

/-- A legal access outside reset. -/
theorem busAccess_legal {a : Access} {s : State} (hs : s.rstLow = false) (ha : a.legal = true) :
    busAccess a s = legalAccess a s := by simp [busAccess, hs, ha]

end Sys2Proof.Machine
end

