-- ==== Sys2Proof/Laws/Exec.lean ====
section
/-! SUPPORT. All a command can do: every command but SIGN is the completion of one outcome function;
which registers and flags an outcome may write, and which errors it may report. -/

namespace Sys2Proof.Machine

/-- The outcome function of every command but SIGN, whose place a NOP takes. -/
def outcomeOf : Instr → Snapshot → Except CmdError Writes
  | .nop => nopOutcome
  | .fadd ms => faddOutcome ms
  | .fsub ms => fsubOutcome ms
  | .fmul ms => fmulOutcome ms
  | .fdiv ms => fdivOutcome ms
  | .fpow ms neg => fpowOutcome ms neg
  | .finv ms => finvOutcome ms
  | .fchk ms => fchkOutcome ms
  | .pchk cs => pchkOutcome cs
  | .padd cs => paddOutcome cs
  | .pmul cs => pmulOutcome cs
  | .keyld => keyldOutcome
  | .sign => nopOutcome
  | .verify => verifyOutcome

/-- Every command but SIGN completes with its outcome. -/
theorem exec_eq_completeWith {i : Instr} (h : i ≠ .sign) (s : State) :
    exec i s = completeWith (outcomeOf i) s := by
  cases i <;> first | rfl | exact absurd rfl h

/-- With a command pending, every command answers a next state. -/
theorem exec_pending {i : Instr} {s : State} {p : Pending} (h : s.pending = some p) :
    ∃ t, exec i s = .next t := by
  by_cases hi : i = .sign
  · subst hi; exact ⟨_, by simp only [exec, execSign, h]; rfl⟩
  · exact ⟨_, by rw [exec_eq_completeWith hi, completeWith_eq _ h]⟩

/-! ### Errors of the shared operations -/

theorem require_error {c : Bool} {code : ErrorCode} {info : BitVec 4} {e : CmdError}
    (h : require c code info = .error e) : e = ⟨code, info⟩ := by
  cases c with
  | true => cases h
  | false => cases h; rfl

theorem userModulus_error {S : Snapshot} {e : CmdError} (h : userModulus S = .error e) :
    e = ⟨.badModulus, Reg.M.index⟩ := by
  unfold userModulus at h
  rcases bind_eq_error h with h | ⟨_, _, h⟩
  · exact require_error h
  · cases h

theorem resolveModulus_error {ms : BitVec 2} {S : Snapshot} {e : CmdError}
    (h : resolveModulus ms S = .error e) : e = ⟨.badModulus, 11⟩ ∨ e = ⟨.illegalCommand, 0⟩ := by
  unfold resolveModulus at h
  split at h
  · cases h
  split at h
  · cases h
  split at h
  · exact .inl (userModulus_error h)
  · cases h; exact .inr rfl

theorem fieldPrologue_error {ms : BitVec 2} {S : Snapshot} {b : Bool} {e : CmdError}
    (h : fieldPrologue ms S b = .error e) : LegalReport e.code.number e.info := by
  unfold fieldPrologue at h
  rcases bind_eq_error h with h | ⟨m, _, h⟩
  · rcases resolveModulus_error h with rfl | rfl <;> simp [LegalReport, ErrorCode.number]
  rcases bind_eq_error h with h | ⟨_, _, h⟩
  · rw [require_error h]; simp [LegalReport, ErrorCode.number, Reg.index]
  rcases bind_eq_error h with h | ⟨_, _, h⟩
  · rw [require_error h]; simp [LegalReport, ErrorCode.number, Reg.index]
  · cases h

theorem resolveCurve_error {cs : CurveSel} {S : Snapshot} {e : CmdError}
    (h : resolveCurve cs S = .error e) : LegalReport e.code.number e.info := by
  cases cs with
  | secp => cases h
  | user =>
    simp only [resolveCurve] at h
    rcases bind_eq_error h with h | ⟨m, _, h⟩
    · rw [userModulus_error h]; simp [LegalReport, ErrorCode.number, Reg.index]
    rcases bind_eq_error h with h | ⟨_, _, h⟩
    · rw [require_error h]; simp [LegalReport, ErrorCode.number, Reg.index]
    rcases bind_eq_error h with h | ⟨_, _, h⟩
    · rw [require_error h]; simp [LegalReport, ErrorCode.number, Reg.index]
    · cases h

theorem pointOperand_error {ix iy : Reg} {inf : Bool} {C : Curve} {S : Snapshot} {e : CmdError}
    (h : pointOperand ix iy inf C S = .error e) :
    e = ⟨.outOfRange, ix.index⟩ ∨ e = ⟨.outOfRange, iy.index⟩ := by
  unfold pointOperand at h
  split at h
  · cases h
  rcases bind_eq_error h with h | ⟨_, _, h⟩
  · exact .inl (require_error h)
  rcases bind_eq_error h with h | ⟨_, _, h⟩
  · exact .inr (require_error h)
  · cases h

theorem firstPoint_error {C : Curve} {S : Snapshot} {e : CmdError}
    (h : firstPoint C S = .error e) : LegalReport e.code.number e.info := by
  rcases pointOperand_error h with rfl | rfl <;> simp [LegalReport, ErrorCode.number, Reg.index]

theorem secondPoint_error {C : Curve} {S : Snapshot} {e : CmdError}
    (h : secondPoint C S = .error e) : LegalReport e.code.number e.info := by
  rcases pointOperand_error h with rfl | rfl <;> simp [LegalReport, ErrorCode.number, Reg.index]

theorem checkOnCurve_first_error {P : Point} {C : Curve} {e : CmdError}
    (h : checkOnCurve P .X1 C = .error e) : LegalReport e.code.number e.info := by
  rw [require_error h]; simp [LegalReport, ErrorCode.number, Reg.index]

theorem checkOnCurve_second_error {P : Point} {C : Curve} {e : CmdError}
    (h : checkOnCurve P .X2 C = .error e) : LegalReport e.code.number e.info := by
  rw [require_error h]; simp [LegalReport, ErrorCode.number, Reg.index]

/-- A field command reports an error of its prologue, or writes what it returns. -/
theorem fieldOutcome_cases {ms : BitVec 2} {S : Snapshot} {b : Bool} {f : Nat → Writes}
    {o : Except CmdError Writes}
    (h : (do let m ← fieldPrologue ms S b; return f m : Except CmdError Writes) = o) :
    (∃ e, o = .error e ∧ LegalReport e.code.number e.info) ∨
      ∃ m, fieldPrologue ms S b = .ok m ∧ o = .ok (f m) := by
  cases hp : fieldPrologue ms S b with
  | error e => rw [hp] at h; exact .inl ⟨e, h.symm, fieldPrologue_error hp⟩
  | ok m => rw [hp] at h; exact .inr ⟨m, rfl, h.symm⟩

/-- The two forms of a result point write XR, YR and INFR (41_point.md R73). -/
theorem pointResult_writes (P : Point) :
    (pointResult P).regs.map Prod.fst = [.XR, .YR] ∧ (pointResult P).valid = none ∧
      (pointResult P).keyv = none := by
  cases P <;> exact ⟨rfl, rfl, rfl⟩

/-! ### All a command's outcome can be -/

/-- What the outcome of command `i` may write: its result registers, INFR only for PADD and PMUL, VALID
only for VERIFY, KEYV only for KEYLD. -/
structure WritesAllowed (i : Instr) (w : Writes) : Prop where
  regs : ∀ r ∈ w.regs.map Prod.fst, r ∈ resultRegs i
  infr : (∀ cs, i ≠ .padd cs ∧ i ≠ .pmul cs) → w.infr = none
  valid : i ≠ .verify → w.valid = none
  keyv : i ≠ .keyld → w.keyv = none

theorem writesAllowed_fieldResult {i : Instr} (h : resultRegs i = [.XR]) (n : Nat) :
    WritesAllowed i (fieldResult n) :=
  ⟨by simp [fieldResult, h], fun _ => rfl, fun _ => rfl, fun _ => rfl⟩

theorem writesAllowed_noWrites (i : Instr) : WritesAllowed i noWrites :=
  ⟨by simp [noWrites], fun _ => rfl, fun _ => rfl, fun _ => rfl⟩

theorem writesAllowed_pointResult {i : Instr} (h : resultRegs i = [.XR, .YR])
    (hi : ∃ cs, i = .padd cs ∨ i = .pmul cs) (P : Point) : WritesAllowed i (pointResult P) := by
  obtain ⟨h1, h2, h3⟩ := pointResult_writes P
  refine ⟨by simp [h1, h], fun hn => ?_, fun _ => h2, fun _ => h3⟩
  obtain ⟨cs, h | h⟩ := hi
  · exact absurd h (hn cs).1
  · exact absurd h (hn cs).2

/-- The outcome of a command is an error of the error table, or writes no more than it may. -/
theorem outcomeOf_cases (i : Instr) (S : Snapshot) :
    (∃ e, outcomeOf i S = .error e ∧ LegalReport e.code.number e.info) ∨
      ∃ w, outcomeOf i S = .ok w ∧ WritesAllowed i w := by
  have field : ∀ (ms : BitVec 2) (b : Bool) (f : Nat → Writes), (∀ m, WritesAllowed i (f m)) →
      ∀ o, (do let m ← fieldPrologue ms S b; return f m : Except CmdError Writes) = o →
      (∃ e, o = .error e ∧ LegalReport e.code.number e.info) ∨ ∃ w, o = .ok w ∧ WritesAllowed i w := by
    intro ms b f hf o h
    rcases fieldOutcome_cases h with h | ⟨m, -, h⟩
    · exact .inl h
    · exact .inr ⟨_, h, hf m⟩
  cases i with
  | nop => exact .inr ⟨_, rfl, writesAllowed_noWrites _⟩
  | fadd ms => exact field ms true _ (fun _ => writesAllowed_fieldResult rfl _) _ rfl
  | fsub ms => exact field ms true _ (fun _ => writesAllowed_fieldResult rfl _) _ rfl
  | fmul ms => exact field ms true _ (fun _ => writesAllowed_fieldResult rfl _) _ rfl
  | fdiv ms => exact field ms true _ (fun _ => writesAllowed_fieldResult rfl _) _ rfl
  | fpow ms neg => exact field ms false _ (fun _ => writesAllowed_fieldResult rfl _) _ rfl
  | finv ms => exact field ms false _ (fun _ => writesAllowed_fieldResult rfl _) _ rfl
  | fchk ms => exact field ms false _ (fun _ => writesAllowed_noWrites _) _ rfl
  | pchk cs =>
    cases h : outcomeOf (.pchk cs) S with
    | ok w =>
      obtain ⟨C, _, h⟩ := bind_eq_ok h
      obtain ⟨P, _, h⟩ := bind_eq_ok h
      obtain ⟨_, _, h⟩ := bind_eq_ok h
      cases h
      exact .inr ⟨_, rfl, writesAllowed_noWrites _⟩
    | error e =>
      refine .inl ⟨e, rfl, ?_⟩
      rcases bind_eq_error h with h | ⟨C, _, h⟩
      · exact resolveCurve_error h
      rcases bind_eq_error h with h | ⟨P, _, h⟩
      · exact firstPoint_error h
      rcases bind_eq_error h with h | ⟨_, _, h⟩
      · exact checkOnCurve_first_error h
      · cases h
  | padd cs =>
    cases h : outcomeOf (.padd cs) S with
    | ok w =>
      obtain ⟨C, _, h⟩ := bind_eq_ok h
      obtain ⟨P, _, h⟩ := bind_eq_ok h
      obtain ⟨Q, _, h⟩ := bind_eq_ok h
      obtain ⟨_, _, h⟩ := bind_eq_ok h
      obtain ⟨_, _, h⟩ := bind_eq_ok h
      cases h
      exact .inr ⟨_, rfl, writesAllowed_pointResult rfl ⟨cs, .inl rfl⟩ _⟩
    | error e =>
      refine .inl ⟨e, rfl, ?_⟩
      rcases bind_eq_error h with h | ⟨C, _, h⟩
      · exact resolveCurve_error h
      rcases bind_eq_error h with h | ⟨P, _, h⟩
      · exact firstPoint_error h
      rcases bind_eq_error h with h | ⟨Q, _, h⟩
      · exact secondPoint_error h
      rcases bind_eq_error h with h | ⟨_, _, h⟩
      · exact checkOnCurve_first_error h
      rcases bind_eq_error h with h | ⟨_, _, h⟩
      · exact checkOnCurve_second_error h
      · cases h
  | pmul cs =>
    cases h : outcomeOf (.pmul cs) S with
    | ok w =>
      obtain ⟨C, _, h⟩ := bind_eq_ok h
      obtain ⟨P, _, h⟩ := bind_eq_ok h
      obtain ⟨_, _, h⟩ := bind_eq_ok h
      cases h
      exact .inr ⟨_, rfl, writesAllowed_pointResult rfl ⟨cs, .inr rfl⟩ _⟩
    | error e =>
      refine .inl ⟨e, rfl, ?_⟩
      rcases bind_eq_error h with h | ⟨C, _, h⟩
      · exact resolveCurve_error h
      rcases bind_eq_error h with h | ⟨P, _, h⟩
      · exact firstPoint_error h
      rcases bind_eq_error h with h | ⟨_, _, h⟩
      · exact checkOnCurve_first_error h
      · cases h
  | keyld =>
    cases h : outcomeOf .keyld S with
    | ok w =>
      obtain ⟨_, _, h⟩ := bind_eq_ok h
      cases h
      exact .inr ⟨_, rfl, by simp [resultRegs], fun _ => rfl, fun _ => rfl, fun hn => absurd rfl hn⟩
    | error e =>
      refine .inl ⟨e, rfl, ?_⟩
      rcases bind_eq_error h with h | ⟨_, _, h⟩
      · rw [require_error h]; simp [LegalReport, ErrorCode.number, Reg.index]
      · cases h
  | sign => exact .inr ⟨_, rfl, writesAllowed_noWrites _⟩
  | verify =>
    cases h : outcomeOf .verify S with
    | ok w =>
      obtain ⟨Q, _, h⟩ := bind_eq_ok h
      obtain ⟨_, _, h⟩ := bind_eq_ok h
      cases h
      exact .inr ⟨_, rfl, by simp, fun _ => rfl, fun hn => absurd rfl hn, fun _ => rfl⟩
    | error e =>
      refine .inl ⟨e, rfl, ?_⟩
      rcases bind_eq_error h with h | ⟨Q, _, h⟩
      · exact firstPoint_error h
      rcases bind_eq_error h with h | ⟨_, _, h⟩
      · exact checkOnCurve_first_error h
      · cases h

/-! ### All `exec` and the engine can do -/

/-- All a command can do when it answers a next state: commit allowed writes (SIGN may have taken RNG
words), enter an error of the error table, or, for SIGN, wait with the RNG words used up. -/
theorem exec_cases {i : Instr} {s t : State} (h : exec i s = .next t) :
    ∃ p, s.pending = some p ∧
      ((∃ w s', WritesAllowed i w ∧ (i ≠ .sign → s' = s ∧ outcomeOf i p.snap = .ok w) ∧
          (∃ r, s' = { s with rng := r }) ∧ t = commit w s') ∨
        (∃ e, LegalReport e.code.number e.info ∧ t = errorEntry e s) ∨
        (i = .sign ∧ t = { s with rng := [] })) := by
  by_cases hi : i = .sign
  · subst hi
    obtain ⟨p, hp, h⟩ := execSign_cases h
    refine ⟨p, hp, ?_⟩
    rcases h with ⟨_, rs, rest, _, rfl⟩ | ⟨_, _, rfl⟩ | ⟨_, rfl⟩
    · exact .inl ⟨_, _, ⟨by simp [signResult, resultRegs], fun _ => rfl, fun _ => rfl, fun _ => rfl⟩,
        fun h => absurd rfl h, ⟨_, rfl⟩, rfl⟩
    · exact .inr (.inr ⟨rfl, rfl⟩)
    · exact .inr (.inl ⟨_, by simp [LegalReport, ErrorCode.number, Reg.index], rfl⟩)
  · rw [exec_eq_completeWith hi] at h
    obtain ⟨p, hp, h⟩ := completeWith_cases h
    refine ⟨p, hp, ?_⟩
    rcases outcomeOf_cases i p.snap with ⟨e, he, hl⟩ | ⟨w, hw, ha⟩
    · rcases h with ⟨w, hw, _⟩ | ⟨e', he', rfl⟩
      · rw [he] at hw; cases hw
      · rw [he] at he'; cases he'; exact .inr (.inl ⟨_, hl, rfl⟩)
    · rcases h with ⟨w', hw', rfl⟩ | ⟨e, he, _⟩
      · rw [hw] at hw'; cases hw'; exact .inl ⟨_, s, ha, fun _ => ⟨rfl, hw⟩, ⟨s.rng, rfl⟩, rfl⟩
      · rw [hw] at he; cases he

/-- All the engine's turn can be: nothing, or outside reset the decoded command or the illegal-command
error. -/
theorem engineTurn_cases (s : State) :
    engineTurn s = .next s ∨
      (s.rstLow = false ∧ ∃ p, s.pending = some p ∧
        ((∃ i, decodeWord p.word = .ok i ∧ engineTurn s = exec i s) ∨
          ((∃ e, decodeWord p.word = .error e) ∧ engineTurn s = .next (completeIllegal s)))) := by
  unfold engineTurn
  cases hr : s.rstLow with
  | true => exact .inl rfl
  | false =>
    cases hp : s.pending with
    | none => exact .inl (by simp)
    | some p =>
      refine .inr ⟨rfl, p, rfl, ?_⟩
      cases hd : decodeWord p.word with
      | ok i => exact .inl ⟨i, rfl, by simp [hd]⟩
      | error e => exact .inr ⟨⟨e, rfl⟩, by simp [hd]⟩

/-! ### 4-byte accesses -/

/-- A 4-byte write at a multiple of 4 has the effect of its target. -/
theorem busAccess_wordWrite {off : Offset} {s : State} (v : Word) (h : off.toNat % 4 = 0)
    (hr : s.rstLow = false) :
    busAccess (wordWrite off v) s =
      { writeTarget v s (Target.ofOffset off) with response := some ⟨false, none⟩ } := by
  rw [busAccess_legal hr (by simp [wordWrite, Access.legal, h])]
  rfl

/-- A 4-byte read at a multiple of 4 answers the word of its target and changes nothing else. -/
theorem busAccess_wordRead {off : Offset} {s : State} (h : off.toNat % 4 = 0) (hr : s.rstLow = false) :
    busAccess (wordRead off) s =
      { s with response := some ⟨false, some (readTarget s (Target.ofOffset off))⟩ } := by
  rw [busAccess_legal hr (by simp [wordRead, Access.legal, h])]
  rfl

/-! ### The words of the data registers -/

/-- A data word's offset is aligned and names that word. -/
theorem ofOffset_regWordOffset (r : Reg) (j : Fin 8) :
    (regWordOffset r j).toNat % 4 = 0 ∧ Target.ofOffset (regWordOffset r j) = .data r j := by
  revert j; cases r <;> decide +kernel

/-- Only its own offset names a data word. -/
theorem eq_regWordOffset {off : Offset} (h : off.toNat % 4 = 0) {r : Reg} {j : Fin 8}
    (e : Target.ofOffset off = .data r j) : off = regWordOffset r j := by
  have key : ∀ n : Fin 1024, n.val % 4 = 0 →
      (match Target.ofOffset ⟨n⟩ with
        | .data r j => (⟨n⟩ : Offset) == regWordOffset r j
        | _ => true) = true := by decide +kernel
  have := key off.toFin h
  rw [show (⟨off.toFin⟩ : Offset) = off from rfl, e] at this
  exact eq_of_beq this

/-- A word write to a writable data register other than KEY, whole (20_memory.md R34, 10_state.md R15). -/
theorem busAccess_writeRegWord {s : State} {r : Reg} (j : Fin 8) (v : Word) (hr : s.rstLow = false)
    (hw : r.hostWritable = true) (hk : r ≠ .KEY) :
    busAccess (wordWrite (regWordOffset r j) v) s =
      { s with x := s.x.set r (setWord (s.x.get r) j v), response := some ⟨false, none⟩ } := by
  rw [busAccess_wordWrite v (ofOffset_regWordOffset r j).1 hr, (ofOffset_regWordOffset r j).2]
  simp only [writeTarget, hk, if_false, writeRegWord, hw, if_true]

end Sys2Proof.Machine
end

