-- ==== Sys2Proof/Laws/Operands.lean ====
section
/-! SUPPORT. What the operand checks answer, for legal and for illegal operands in the words of
Safety.lean; what a command answers for a given outcome; and the signing loop. -/

namespace Sys2Proof.Machine

/-! ### Modulus and curve -/

/-- Every legal modulus is an odd number from 3 that fits a register (30_encoding.md R45). -/
theorem IsModulus.bounds {ms : BitVec 2} {S : Snapshot} {m : Nat} (h : IsModulus ms S m) :
    3 ≤ m ∧ m % 2 = 1 ∧ m < 2 ^ 256 := by
  rcases h with ⟨_, rfl⟩ | ⟨_, rfl⟩ | ⟨_, rfl, h3, h4⟩
  · decide
  · decide
  · exact ⟨h3, h4, S.x.m.isLt⟩

/-- A modulus is legal or bad, never both. -/
theorem not_badUserModulus_iff {S : Snapshot} :
    ¬ BadUserModulus S ↔ 3 ≤ S.x.m.toNat ∧ S.x.m.toNat % 2 = 1 := by
  unfold BadUserModulus; omega

/-- `userModulus` on a legal M. -/
theorem userModulus_ok {S : Snapshot} (h3 : 3 ≤ S.x.m.toNat) (h4 : S.x.m.toNat % 2 = 1) :
    userModulus S = .ok S.x.m.toNat := by
  simp [userModulus, Snapshot.val, RegFile.get, h3, h4]

/-- `userModulus` on a bad M. -/
theorem userModulus_bad {S : Snapshot} (h : BadUserModulus S) :
    userModulus S = .error ⟨.badModulus, Reg.M.index⟩ := by
  have hc : (decide (3 ≤ S.val .M) && S.val .M % 2 == 1) = false := by
    rw [← Bool.not_eq_true, Bool.and_eq_true, decide_eq_true_eq, beq_iff_eq]
    exact fun hm => not_badUserModulus_iff.mpr hm h
  simp only [userModulus, hc, require_false, bind_error]

/-- `resolveModulus` on a legal selection. -/
theorem resolveModulus_ok {ms : BitVec 2} {S : Snapshot} {m : Nat} (h : IsModulus ms S m) :
    resolveModulus ms S = .ok m := by
  rcases h with ⟨rfl, rfl⟩ | ⟨rfl, rfl⟩ | ⟨rfl, rfl, h3, h4⟩
  · rfl
  · rfl
  · exact userModulus_ok h3 h4

/-- `fieldPrologue` of a unary command on an operand in range. -/
theorem fieldPrologue_unary {ms : BitVec 2} {S : Snapshot} {m : Nat} (h : IsModulus ms S m)
    (h1 : S.x.x1.toNat < m) : fieldPrologue ms S false = .ok m := by
  simp [fieldPrologue, resolveModulus_ok h, Snapshot.val, RegFile.get, h1]

/-- `fieldPrologue` of a binary command on operands in range. -/
theorem fieldPrologue_binary {ms : BitVec 2} {S : Snapshot} {m : Nat} (h : IsModulus ms S m)
    (h1 : S.x.x1.toNat < m) (h2 : S.x.y1.toNat < m) : fieldPrologue ms S true = .ok m := by
  simp [fieldPrologue, resolveModulus_ok h, Snapshot.val, RegFile.get, h1, h2]

/-- `resolveCurve` on a legal selection. -/
theorem resolveCurve_ok {cs : CurveSel} {S : Snapshot} {C : Curve} (h : IsCurve cs S C) :
    resolveCurve cs S = .ok C := by
  cases cs with
  | secp => cases h; rfl
  | user =>
    obtain ⟨rfl, h3, h4, ha, hb⟩ := h
    simp only at ha hb
    simp [resolveCurve, userModulus_ok h3 h4, Snapshot.val, RegFile.get, ha, hb]

/-! ### Points -/

/-- The equation of `onCurve` is that of `SatisfiesCurve` (00_scope.md R10). -/
theorem onCurve_iff (C : Curve) (P : Point) : onCurve C P = true ↔ SatisfiesCurve C P := by
  cases P with
  | inf => simp [onCurve, SatisfiesCurve]
  | aff x y =>
    simp only [onCurve, SatisfiesCurve, decide_eq_true_eq]
    rw [show y * y = y ^ 2 by ring, show x * x * x = x ^ 3 by ring]

/-- `pointOperand` on coordinates in range, or with the INF flag set. -/
theorem pointOperand_ok {S : Snapshot} {ix iy : Reg} {inf : Bool} {C : Curve} {P : Point}
    (h : IsPointOperand (S.x.get ix) (S.x.get iy) inf C P) : pointOperand ix iy inf C S = .ok P := by
  rcases h with ⟨rfl, rfl⟩ | ⟨rfl, rfl, h1, h2⟩
  · rfl
  · simp [pointOperand, Snapshot.val, h1, h2]

/-- `checkOnCurve` on a point of the curve. -/
theorem checkOnCurve_ok {P : Point} {ix : Reg} {C : Curve} (h : SatisfiesCurve C P) :
    checkOnCurve P ix C = .ok () := by
  simp [checkOnCurve, (onCurve_iff C P).mpr h]

/-- `checkOnCurve` on a point off the curve. -/
theorem checkOnCurve_bad {P : Point} {ix : Reg} {C : Curve} (h : ¬ SatisfiesCurve C P) :
    checkOnCurve P ix C = .error ⟨.notOnCurve, ix.index⟩ := by
  rw [← onCurve_iff, Bool.not_eq_true] at h
  simp [checkOnCurve, h]

/-! ### A command with a given outcome -/

/-- An `Ok` outcome is committed. -/
theorem exec_of_ok {i : Instr} {s : State} {p : Pending} {w : Writes} (hi : i ≠ .sign)
    (hp : s.pending = some p) (h : outcomeOf i p.snap = .ok w) : exec i s = .next (commit w s) := by
  rw [exec_eq_completeWith hi, completeWith_eq _ hp, h]; rfl

/-- An `Err` outcome is reported. -/
theorem exec_of_error {i : Instr} {s : State} {p : Pending} {e : CmdError} (hi : i ≠ .sign)
    (hp : s.pending = some p) (h : outcomeOf i p.snap = .error e) :
    exec i s = .next (s.erroredWith e.code.number e.info) := by
  rw [exec_eq_completeWith hi, completeWith_eq _ hp, h]; rfl

/-- Committing a result point writes XR, YR and INFR (41_point.md R73). -/
theorem commit_pointResult (P : Point) (s : State) :
    commit (pointResult P) s = s.completedWithPoint (s.x.withPoint P) P.isInf := by
  cases P <;> rfl

/-! ### ECDSA -/

theorem keyInRange_iff (d : Nat) : keyInRange d = true ↔ 1 ≤ d ∧ d < Config.secpN := by
  simp only [keyInRange, Bool.and_eq_true, decide_eq_true_eq]

theorem sigInRange_iff (v : Nat) : sigInRange v = true ↔ 1 ≤ v ∧ v ≤ Config.secpN - 1 := by
  simp only [sigInRange, Bool.and_eq_true, decide_eq_true_eq]

theorem nonceAcceptable_iff (w : U256) :
    nonceAcceptable w = true ↔ 1 ≤ w.toNat ∧ w.toNat ≤ Config.secpN - 1 := by
  simp only [nonceAcceptable, Bool.and_eq_true, decide_eq_true_eq]

/-- One pass of the signing loop in the words of Safety.lean. -/
theorem signAttempt_eq (d z k : Nat) :
    signAttempt d z k =
      if nonceR k = 0 ∨ nonceS d z k = 0 then none else some (nonceR k, lowS (nonceS d z k)) := by
  have hr : signR k = nonceR k := rfl
  have hs : signRawS d z k = nonceS d z k := by
    unfold signRawS nonceS
    rw [fermatInverse_eq _ (by decide)]
    rfl
  unfold signAttempt
  rw [hr, hs]

/-- A usable word, by what the loop computes. -/
theorem usableNonce_iff (d z : Nat) (w : U256) :
    UsableNonce d z w ↔ nonceAcceptable w = true ∧ (signAttempt d z w.toNat).isSome = true := by
  rw [nonceAcceptable_iff, signAttempt_eq]
  unfold UsableNonce
  by_cases h1 : nonceR w.toNat = 0
  · simp [h1]
  · by_cases h2 : nonceS d z w.toNat = 0
    · simp [h2]
    · simp [h1, h2]

/-- A usable word ends the search. -/
theorem signSearch_of_usable {d z : Nat} {w : U256} (h : UsableNonce d z w) (rest : List U256) :
    signSearch d z (w :: rest) = some ((nonceR w.toNat, lowS (nonceS d z w.toNat)), rest) := by
  obtain ⟨h1, h2, h3, h4⟩ := h
  simp [signSearch, (nonceAcceptable_iff w).mpr ⟨h1, h2⟩, signAttempt_eq, h3, h4]

/-- A word that is not usable is discarded. -/
theorem signSearch_of_not_usable {d z : Nat} {w : U256} (h : ¬ UsableNonce d z w) (rest : List U256) :
    signSearch d z (w :: rest) = signSearch d z rest := by
  rw [signSearch]
  split
  · rename_i ha
    have hz : nonceR w.toNat = 0 ∨ nonceS d z w.toNat = 0 := by
      have hb := (nonceAcceptable_iff w).mp ha
      by_contra hc
      rw [not_or] at hc
      exact h ⟨hb.1, hb.2, hc.1, hc.2⟩
    rw [signAttempt_eq, if_pos hz]
  · rfl

/-- Words that are not usable are discarded one after another. -/
theorem signSearch_append {d z : Nat} (pre rest : List U256) (h : ∀ u ∈ pre, ¬ UsableNonce d z u) :
    signSearch d z (pre ++ rest) = signSearch d z rest := by
  induction pre with
  | nil => rfl
  | cons w pre ih =>
    rw [List.cons_append, signSearch_of_not_usable (h w List.mem_cons_self),
      ih fun u hu => h u (List.mem_cons_of_mem _ hu)]

/-- A signature the search finds comes from one pass of the loop. -/
theorem signSearch_eq_some {d z : Nat} {rs : Nat × Nat} {rest : List U256} :
    ∀ l : List U256, signSearch d z l = some (rs, rest) → ∃ k, signAttempt d z k = some rs := by
  intro l
  induction l with
  | nil => intro h; cases h
  | cons w l ih =>
    intro h
    rw [signSearch] at h
    split at h
    · split at h
      · rename_i he; cases h; exact ⟨_, he⟩
      · exact ih h
    · exact ih h

end Sys2Proof.Machine
end

