-- ==== Sys2Proof/Laws/Primes.lean ====
section
/-! SUPPORT. `SECP_P` and `SECP_N` are prime (10_state.md R18), by Pratt certificates: a primitive root
and the factorization of `n - 1`, checked by repeated squaring. -/

namespace Sys2Proof.Machine

/-- `a` has order `n - 1` modulo `n`, whose prime factors with their exponents are `L`. -/
def isPratt (n a : Nat) (L : List (Nat × Nat)) : Bool :=
  (L.map fun q => q.1 ^ q.2).prod == n - 1 && modExp a (n - 1) n == 1 &&
    L.all fun q => modExp a ((n - 1) / q.1) n != 1

/-- A prime that divides a product of prime powers is one of them. -/
theorem mem_of_prime_dvd_prod {p : Nat} (hp : p.Prime) :
    ∀ L : List (Nat × Nat), (∀ q ∈ L, q.1.Prime) → p ∣ (L.map fun q => q.1 ^ q.2).prod →
      ∃ q ∈ L, p = q.1 := by
  intro L
  induction L with
  | nil => intro _ h; exact absurd (Nat.dvd_one.mp h) hp.one_lt.ne'
  | cons q L ih =>
    intro hL h
    rw [List.map_cons, List.prod_cons] at h
    rcases hp.dvd_mul.mp h with h | h
    · exact ⟨q, List.mem_cons_self,
        (Nat.prime_dvd_prime_iff_eq hp (hL q List.mem_cons_self)).mp (hp.dvd_of_dvd_pow h)⟩
    · obtain ⟨r, hr, e⟩ := ih (fun r hr => hL r (List.mem_cons_of_mem _ hr)) h
      exact ⟨r, List.mem_cons_of_mem _ hr, e⟩

/-- A Pratt certificate proves primality. -/
theorem prime_of_isPratt {n : Nat} (a : Nat) (L : List (Nat × Nat)) (hn : 1 < n)
    (hL : ∀ q ∈ L, q.1.Prime) (h : isPratt n a L = true) : n.Prime := by
  simp only [isPratt, Bool.and_eq_true, beq_iff_eq, List.all_eq_true, bne_iff_ne] at h
  obtain ⟨⟨hprod, hone⟩, hne⟩ := h
  have cast : ∀ e : Nat, ((a : ZMod n) ^ e = 1 ↔ modExp a e n = 1) := by
    intro e
    rw [modExp_eq a e (by omega), ← Nat.cast_pow, ← Nat.cast_one, ZMod.natCast_eq_natCast_iff]
    unfold Nat.ModEq
    rw [Nat.mod_eq_of_lt hn]
  refine lucas_primality n (a : ZMod n) ((cast _).mpr hone) fun p hp hd => ?_
  obtain ⟨q, hq, e⟩ := mem_of_prime_dvd_prod hp L hL (hprod ▸ hd)
  rw [Ne, cast, e]
  exact hne q hq

theorem prime_13331831 : Nat.Prime 13331831 :=
  prime_of_isPratt 13 [(2, 1), (5, 1), (971, 1), (1373, 1)] (by norm_num)
    (List.forall_mem_cons.mpr ⟨by norm_num, (List.forall_mem_cons.mpr ⟨by norm_num,
    (List.forall_mem_cons.mpr ⟨by norm_num, (List.forall_mem_cons.mpr ⟨by norm_num, (fun _ h =>
    absurd h List.not_mem_nil)⟩)⟩)⟩)⟩) (by decide +kernel)

theorem prime_173378833005251801 : Nat.Prime 173378833005251801 :=
  prime_of_isPratt 6 [(2, 3), (5, 2), (2621, 1), (24809, 1), (13331831, 1)] (by norm_num)
    (List.forall_mem_cons.mpr ⟨by norm_num, (List.forall_mem_cons.mpr ⟨by norm_num,
    (List.forall_mem_cons.mpr ⟨by norm_num, (List.forall_mem_cons.mpr ⟨by norm_num,
    (List.forall_mem_cons.mpr ⟨prime_13331831, (fun _ h => absurd h List.not_mem_nil)⟩)⟩)⟩)⟩)⟩)
    (by decide +kernel)

theorem prime_22149492674086928081353 : Nat.Prime 22149492674086928081353 :=
  prime_of_isPratt 5 [(2, 3), (3, 1), (5323, 1), (173378833005251801, 1)] (by norm_num)
    (List.forall_mem_cons.mpr ⟨by norm_num, (List.forall_mem_cons.mpr ⟨by norm_num,
    (List.forall_mem_cons.mpr ⟨by norm_num, (List.forall_mem_cons.mpr ⟨prime_173378833005251801,
    (fun _ h => absurd h List.not_mem_nil)⟩)⟩)⟩)⟩) (by decide +kernel)

theorem prime_132896956044521568488119 : Nat.Prime 132896956044521568488119 :=
  prime_of_isPratt 6 [(2, 1), (3, 1), (22149492674086928081353, 1)] (by norm_num)
    (List.forall_mem_cons.mpr ⟨by norm_num, (List.forall_mem_cons.mpr ⟨by norm_num,
    (List.forall_mem_cons.mpr ⟨prime_22149492674086928081353, (fun _ h => absurd h
    List.not_mem_nil)⟩)⟩)⟩) (by decide +kernel)

theorem prime_1206781 : Nat.Prime 1206781 :=
  prime_of_isPratt 10 [(2, 2), (3, 1), (5, 1), (20113, 1)] (by norm_num)
    (List.forall_mem_cons.mpr ⟨by norm_num, (List.forall_mem_cons.mpr ⟨by norm_num,
    (List.forall_mem_cons.mpr ⟨by norm_num, (List.forall_mem_cons.mpr ⟨by norm_num, (fun _ h =>
    absurd h List.not_mem_nil)⟩)⟩)⟩)⟩) (by decide +kernel)

theorem prime_7240687 : Nat.Prime 7240687 :=
  prime_of_isPratt 3 [(2, 1), (3, 1), (1206781, 1)] (by norm_num)
    (List.forall_mem_cons.mpr ⟨by norm_num, (List.forall_mem_cons.mpr ⟨by norm_num,
    (List.forall_mem_cons.mpr ⟨prime_1206781, (fun _ h => absurd h List.not_mem_nil)⟩)⟩)⟩) (by
    decide +kernel)

theorem prime_107590001 : Nat.Prime 107590001 :=
  prime_of_isPratt 3 [(2, 4), (5, 4), (7, 1), (29, 1), (53, 1)] (by norm_num)
    (List.forall_mem_cons.mpr ⟨by norm_num, (List.forall_mem_cons.mpr ⟨by norm_num,
    (List.forall_mem_cons.mpr ⟨by norm_num, (List.forall_mem_cons.mpr ⟨by norm_num,
    (List.forall_mem_cons.mpr ⟨by norm_num, (fun _ h => absurd h List.not_mem_nil)⟩)⟩)⟩)⟩)⟩) (by
    decide +kernel)

theorem prime_255515944373312847190720520512484175977 : Nat.Prime 255515944373312847190720520512484175977 :=
  prime_of_isPratt 3 [(2, 3), (7, 2), (11, 1), (1627, 1), (2657, 1), (4423, 1), (41201, 1),
    (96557, 1), (7240687, 1), (107590001, 1)] (by norm_num)
    (List.forall_mem_cons.mpr ⟨by norm_num, (List.forall_mem_cons.mpr ⟨by norm_num,
    (List.forall_mem_cons.mpr ⟨by norm_num, (List.forall_mem_cons.mpr ⟨by norm_num,
    (List.forall_mem_cons.mpr ⟨by norm_num, (List.forall_mem_cons.mpr ⟨by norm_num,
    (List.forall_mem_cons.mpr ⟨by norm_num, (List.forall_mem_cons.mpr ⟨by norm_num,
    (List.forall_mem_cons.mpr ⟨prime_7240687, (List.forall_mem_cons.mpr ⟨prime_107590001, (fun _
    h => absurd h List.not_mem_nil)⟩)⟩)⟩)⟩)⟩)⟩)⟩)⟩)⟩)⟩) (by decide +kernel)

theorem prime_205115282021455665897114700593932402728804164701536103180137503955397371 : Nat.Prime 205115282021455665897114700593932402728804164701536103180137503955397371 :=
  prime_of_isPratt 10 [(2, 1), (3, 1), (5, 1), (29, 2), (31, 1), (7723, 1),
    (132896956044521568488119, 1), (255515944373312847190720520512484175977, 1)] (by norm_num)
    (List.forall_mem_cons.mpr ⟨by norm_num, (List.forall_mem_cons.mpr ⟨by norm_num,
    (List.forall_mem_cons.mpr ⟨by norm_num, (List.forall_mem_cons.mpr ⟨by norm_num,
    (List.forall_mem_cons.mpr ⟨by norm_num, (List.forall_mem_cons.mpr ⟨by norm_num,
    (List.forall_mem_cons.mpr ⟨prime_132896956044521568488119, (List.forall_mem_cons.mpr
    ⟨prime_255515944373312847190720520512484175977, (fun _ h => absurd h
    List.not_mem_nil)⟩)⟩)⟩)⟩)⟩)⟩)⟩)⟩) (by decide +kernel)

/-- `SECP_P` is prime. -/
theorem secpP_prime : Nat.Prime Config.secpP :=
  prime_of_isPratt 3 [(2, 1), (3, 1), (7, 1), (13441, 1),
    (205115282021455665897114700593932402728804164701536103180137503955397371, 1)] (by norm_num
    [Config.secpP])
    (List.forall_mem_cons.mpr ⟨by norm_num, (List.forall_mem_cons.mpr ⟨by norm_num,
    (List.forall_mem_cons.mpr ⟨by norm_num, (List.forall_mem_cons.mpr ⟨by norm_num,
    (List.forall_mem_cons.mpr
    ⟨prime_205115282021455665897114700593932402728804164701536103180137503955397371, (fun _ h =>
    absurd h List.not_mem_nil)⟩)⟩)⟩)⟩)⟩) (by decide +kernel)

theorem prime_4681609 : Nat.Prime 4681609 :=
  prime_of_isPratt 23 [(2, 3), (3, 1), (97, 1), (2011, 1)] (by norm_num)
    (List.forall_mem_cons.mpr ⟨by norm_num, (List.forall_mem_cons.mpr ⟨by norm_num,
    (List.forall_mem_cons.mpr ⟨by norm_num, (List.forall_mem_cons.mpr ⟨by norm_num, (fun _ h =>
    absurd h List.not_mem_nil)⟩)⟩)⟩)⟩) (by decide +kernel)

theorem prime_107361793816595537 : Nat.Prime 107361793816595537 :=
  prime_of_isPratt 3 [(2, 4), (16699, 1), (85831, 1), (4681609, 1)] (by norm_num)
    (List.forall_mem_cons.mpr ⟨by norm_num, (List.forall_mem_cons.mpr ⟨by norm_num,
    (List.forall_mem_cons.mpr ⟨by norm_num, (List.forall_mem_cons.mpr ⟨prime_4681609, (fun _ h
    => absurd h List.not_mem_nil)⟩)⟩)⟩)⟩) (by decide +kernel)

theorem prime_120233 : Nat.Prime 120233 :=
  prime_of_isPratt 3 [(2, 3), (7, 1), (19, 1), (113, 1)] (by norm_num)
    (List.forall_mem_cons.mpr ⟨by norm_num, (List.forall_mem_cons.mpr ⟨by norm_num,
    (List.forall_mem_cons.mpr ⟨by norm_num, (List.forall_mem_cons.mpr ⟨by norm_num, (fun _ h =>
    absurd h List.not_mem_nil)⟩)⟩)⟩)⟩) (by decide +kernel)

theorem prime_44706919 : Nat.Prime 44706919 :=
  prime_of_isPratt 6 [(2, 1), (3, 1), (797, 1), (9349, 1)] (by norm_num)
    (List.forall_mem_cons.mpr ⟨by norm_num, (List.forall_mem_cons.mpr ⟨by norm_num,
    (List.forall_mem_cons.mpr ⟨by norm_num, (List.forall_mem_cons.mpr ⟨by norm_num, (fun _ h =>
    absurd h List.not_mem_nil)⟩)⟩)⟩)⟩) (by decide +kernel)

theorem prime_174723607534414371449 : Nat.Prime 174723607534414371449 :=
  prime_of_isPratt 3 [(2, 3), (17, 1), (59, 1), (4051, 1), (120233, 1), (44706919, 1)] (by
    norm_num)
    (List.forall_mem_cons.mpr ⟨by norm_num, (List.forall_mem_cons.mpr ⟨by norm_num,
    (List.forall_mem_cons.mpr ⟨by norm_num, (List.forall_mem_cons.mpr ⟨by norm_num,
    (List.forall_mem_cons.mpr ⟨prime_120233, (List.forall_mem_cons.mpr ⟨prime_44706919, (fun _ h
    => absurd h List.not_mem_nil)⟩)⟩)⟩)⟩)⟩)⟩) (by decide +kernel)

theorem prime_305873 : Nat.Prime 305873 :=
  prime_of_isPratt 3 [(2, 4), (7, 1), (2731, 1)] (by norm_num)
    (List.forall_mem_cons.mpr ⟨by norm_num, (List.forall_mem_cons.mpr ⟨by norm_num,
    (List.forall_mem_cons.mpr ⟨by norm_num, (fun _ h => absurd h List.not_mem_nil)⟩)⟩)⟩) (by
    decide +kernel)

theorem prime_545358713 : Nat.Prime 545358713 :=
  prime_of_isPratt 5 [(2, 3), (41, 1), (59, 1), (28181, 1)] (by norm_num)
    (List.forall_mem_cons.mpr ⟨by norm_num, (List.forall_mem_cons.mpr ⟨by norm_num,
    (List.forall_mem_cons.mpr ⟨by norm_num, (List.forall_mem_cons.mpr ⟨by norm_num, (fun _ h =>
    absurd h List.not_mem_nil)⟩)⟩)⟩)⟩) (by decide +kernel)

theorem prime_1627771 : Nat.Prime 1627771 :=
  prime_of_isPratt 3 [(2, 1), (3, 1), (5, 1), (29, 1), (1871, 1)] (by norm_num)
    (List.forall_mem_cons.mpr ⟨by norm_num, (List.forall_mem_cons.mpr ⟨by norm_num,
    (List.forall_mem_cons.mpr ⟨by norm_num, (List.forall_mem_cons.mpr ⟨by norm_num,
    (List.forall_mem_cons.mpr ⟨by norm_num, (fun _ h => absurd h List.not_mem_nil)⟩)⟩)⟩)⟩)⟩) (by
    decide +kernel)

theorem prime_297159362677 : Nat.Prime 297159362677 :=
  prime_of_isPratt 2 [(2, 2), (3, 2), (11, 1), (461, 1), (1627771, 1)] (by norm_num)
    (List.forall_mem_cons.mpr ⟨by norm_num, (List.forall_mem_cons.mpr ⟨by norm_num,
    (List.forall_mem_cons.mpr ⟨by norm_num, (List.forall_mem_cons.mpr ⟨by norm_num,
    (List.forall_mem_cons.mpr ⟨prime_1627771, (fun _ h => absurd h List.not_mem_nil)⟩)⟩)⟩)⟩)⟩)
    (by decide +kernel)

theorem prime_29047611873442575647497758179 : Nat.Prime 29047611873442575647497758179 :=
  prime_of_isPratt 2 [(2, 1), (293, 1), (305873, 1), (545358713, 1), (297159362677, 1)] (by
    norm_num)
    (List.forall_mem_cons.mpr ⟨by norm_num, (List.forall_mem_cons.mpr ⟨by norm_num,
    (List.forall_mem_cons.mpr ⟨prime_305873, (List.forall_mem_cons.mpr ⟨prime_545358713,
    (List.forall_mem_cons.mpr ⟨prime_297159362677, (fun _ h => absurd h
    List.not_mem_nil)⟩)⟩)⟩)⟩)⟩) (by decide +kernel)

theorem prime_341948486974166000522343609283189 : Nat.Prime 341948486974166000522343609283189 :=
  prime_of_isPratt 2 [(2, 2), (3, 3), (109, 1), (29047611873442575647497758179, 1)] (by
    norm_num)
    (List.forall_mem_cons.mpr ⟨by norm_num, (List.forall_mem_cons.mpr ⟨by norm_num,
    (List.forall_mem_cons.mpr ⟨by norm_num, (List.forall_mem_cons.mpr
    ⟨prime_29047611873442575647497758179, (fun _ h => absurd h List.not_mem_nil)⟩)⟩)⟩)⟩) (by
    decide +kernel)

/-- `SECP_N` is prime. -/
theorem secpN_prime : Nat.Prime Config.secpN :=
  prime_of_isPratt 7 [(2, 6), (3, 1), (149, 1), (631, 1), (107361793816595537, 1),
    (174723607534414371449, 1), (341948486974166000522343609283189, 1)] (by norm_num
    [Config.secpN])
    (List.forall_mem_cons.mpr ⟨by norm_num, (List.forall_mem_cons.mpr ⟨by norm_num,
    (List.forall_mem_cons.mpr ⟨by norm_num, (List.forall_mem_cons.mpr ⟨by norm_num,
    (List.forall_mem_cons.mpr ⟨prime_107361793816595537, (List.forall_mem_cons.mpr
    ⟨prime_174723607534414371449, (List.forall_mem_cons.mpr
    ⟨prime_341948486974166000522343609283189, (fun _ h => absurd h
    List.not_mem_nil)⟩)⟩)⟩)⟩)⟩)⟩)⟩) (by decide +kernel)

end Sys2Proof.Machine
end

