-- ==== Sys2Proof/Laws/Order.lean ====
section
/-! SUPPORT. `SECP_N * G = Inf` under 42_scalar.md R76 (10_state.md R18), computed with powers taken a
byte of the exponent at a time, which Lean's kernel evaluates faster than a bit at a time. -/

namespace Sys2Proof.Machine

/-- `a^e mod m`, a byte of `e` a round. -/
def bytePow (m a : Nat) : Nat → Nat → Nat
  | 0, _ => 1 % m
  | fuel + 1, e =>
    if e = 0 then 1 % m else bytePow m a fuel (e / 256) ^ 256 % m * (a ^ (e % 256) % m) % m

theorem bytePow_eq (m a : Nat) : ∀ (fuel e : Nat), e < 256 ^ fuel → bytePow m a fuel e = a ^ e % m := by
  intro fuel
  induction fuel with
  | zero =>
    intro e he
    have h0 : e = 0 := by simpa using he
    simp [bytePow, h0]
  | succ f ih =>
    intro e he
    unfold bytePow
    split
    · rename_i h0; simp [h0]
    · rw [ih _ (by rw [pow_succ] at he; omega), ← Nat.pow_mod, ← Nat.mul_mod, ← pow_mul, ← pow_add]
      congr 2
      omega

/-- Fermat's inverse by `bytePow`. -/
def byteInverse (a m : Nat) : Nat := bytePow m a 33 (m - 2)

theorem byteInverse_eq (a : Nat) {m : Nat} (h2 : 2 ≤ m) (hm : m < 256 ^ 33) :
    byteInverse a m = fermatInverse a m := by
  rw [fermatInverse_eq a h2, byteInverse, bytePow_eq _ _ _ _ (by omega)]

/-- `pointAdd` with `byteInverse`. -/
def byteAdd (C : Curve) (P1 P2 : Point) : Point :=
  match P1, P2 with
  | .inf, _ => P2
  | .aff _ _, .inf => P1
  | .aff x1 y1, .aff x2 y2 =>
    if x1 = x2 ∧ y1 ≠ y2 then .inf
    else if x1 ≠ x2 then
      thirdPoint C.m
        (residue ((y2 : Int) - y1) C.m * byteInverse (residue ((x2 : Int) - x1) C.m) C.m % C.m) x1 y1 x2
    else if y1 ≠ 0 then
      thirdPoint C.m ((3 * x1 * x1 + C.a) % C.m * byteInverse (2 * y1 % C.m) C.m % C.m) x1 y1 x1
    else .inf

theorem byteAdd_eq {C : Curve} (h2 : 2 ≤ C.m) (hm : C.m < 256 ^ 33) (P1 P2 : Point) :
    byteAdd C P1 P2 = pointAdd C P1 P2 := by
  simp only [byteAdd, byteInverse_eq _ h2 hm]
  rfl

/-- `scalarMulLoop` with `byteAdd`. -/
def byteMulLoop (C : Curve) : Nat → Point → Point → Nat → Point
  | 0, acc, _, _ => acc
  | fuel + 1, acc, cur, k =>
    if k = 0 then acc
    else byteMulLoop C fuel (if k % 2 = 1 then byteAdd C acc cur else acc) (byteAdd C cur cur) (k / 2)

theorem byteMulLoop_eq {C : Curve} (h2 : 2 ≤ C.m) (hm : C.m < 256 ^ 33) :
    ∀ (fuel : Nat) (acc cur : Point) (k : Nat),
      byteMulLoop C fuel acc cur k = scalarMulLoop C fuel acc cur k := by
  intro fuel
  induction fuel with
  | zero => intro acc cur k; rfl
  | succ f ih =>
    intro acc cur k
    simp only [byteMulLoop, scalarMulLoop, byteAdd_eq h2 hm, ih]

/-- `SECP_N * G = Inf` (10_state.md R18, 42_scalar.md R79). -/
theorem scalarMul_generator_secpN : scalarMul secp generator Config.secpN = .inf := by
  rw [scalarMul, ← byteMulLoop_eq (C := secp) (by decide) (by decide)]
  decide +kernel

end Sys2Proof.Machine
end

