-- ==== Sys2Proof/Laws/Group.lean ====
section
/-! SUPPORT. The points of secp256k1 as the group of Mathlib's Weierstrass curves: `pointAdd` is its
addition, `scalarMul` its multiples, and G has order `SECP_N` (10_state.md R18, 42_scalar.md R77). -/

namespace Sys2Proof.Machine

/-- The field of secp256k1. -/
abbrev Fp : Type := ZMod Config.secpP

section
variable [Fact (Nat.Prime Config.secpP)]

/-- `y^2 = x^3 + 7` as a Weierstrass curve. -/
def secpW : WeierstrassCurve.Affine Fp := ⟨0, 0, 0, 0, 7⟩

/-- A number below `SECP_P` that is not 0 is not 0 in the field. -/
theorem fp_ne_zero {n : Nat} (h0 : 0 < n) (h : n < Config.secpP) : (n : Fp) ≠ 0 := by
  rw [Ne, ZMod.natCast_eq_zero_iff]
  exact fun hd => absurd (Nat.le_of_dvd h0 hd) (by omega)

theorem secpW_equation (x y : Fp) : secpW.Equation x y ↔ y ^ 2 = x ^ 3 + 7 := by
  rw [WeierstrassCurve.Affine.equation_iff]
  simp [secpW]

theorem secpW_negY (x y : Fp) : secpW.negY x y = -y := by simp [secpW]

/-- Every point of the curve is nonsingular. -/
theorem secpW_nonsingular {x y : Fp} (h : secpW.Equation x y) : secpW.Nonsingular x y := by
  rw [WeierstrassCurve.Affine.nonsingular_iff]
  refine ⟨h, ?_⟩
  have h2 : (2 : Fp) ≠ 0 := by
    have := fp_ne_zero (n := 2) (by decide) (by decide); simpa using this
  have h3 : (3 : Fp) ≠ 0 := by
    have := fp_ne_zero (n := 3) (by decide) (by decide); simpa using this
  have h7 : (7 : Fp) ≠ 0 := by
    have := fp_ne_zero (n := 7) (by decide) (by decide); simpa using this
  rw [secpW_equation] at h
  by_cases hx : x = 0
  · right
    intro hy
    simp only [secpW, zero_mul, sub_zero] at hy
    have hy0 : y = 0 := by
      have : 2 * y = 0 := by linear_combination hy
      exact (mul_eq_zero.mp this).resolve_left h2
    rw [hx, hy0] at h
    exact h7 (by linear_combination -h)
  · left
    simp only [secpW, zero_mul, mul_zero, add_zero]
    exact (mul_ne_zero h3 (pow_ne_zero 2 hx)).symm

/-- `IsPt P A`: the register-level point `P` is the group element `A`. -/
inductive IsPt : Point → secpW.Point → Prop where
  | inf : IsPt .inf 0
  | aff (x y : Nat) (h : secpW.Nonsingular (x : Fp) (y : Fp)) : x < Config.secpP → y < Config.secpP →
      IsPt (.aff x y) (.some (x : Fp) (y : Fp) h)

/-- Every valid point is a group element. -/
theorem exists_isPt {P : Point} (hr : P.InRange Config.secpP) (hc : SatisfiesCurve secp P) :
    ∃ A, IsPt P A := by
  cases P with
  | inf => exact ⟨0, .inf⟩
  | aff x y =>
    refine ⟨_, .aff x y (secpW_nonsingular ?_) hr.1 hr.2⟩
    rw [secpW_equation]
    have h := (ZMod.natCast_eq_natCast_iff' _ _ Config.secpP).mpr hc
    simp only [secp, Config.secpA, Config.secpB] at h
    push_cast at h
    linear_combination h

theorem IsPt.unique {P Q : Point} {A : secpW.Point} (hP : IsPt P A) (hQ : IsPt Q A) : P = Q := by
  cases hP with
  | inf => cases hQ; rfl
  | aff x y h hx hy =>
    generalize hA : WeierstrassCurve.Affine.Point.some (x : Fp) (y : Fp) h = A at hQ
    cases hQ with
    | inf => cases hA
    | aff x' y' h' hx' hy' =>
      injection hA with e1 e2
      rw [eq_of_zmod_eq hx hx' e1, eq_of_zmod_eq hy hy' e2]

/-- A point and its negation have the same x coordinate. -/
theorem IsPt.x_eq_of_neg {x y x' y' : Nat} {A : secpW.Point} (hP : IsPt (.aff x y) A)
    (hQ : IsPt (.aff x' y') (-A)) : x = x' := by
  cases hP with
  | aff _ _ h hx hy =>
    rw [WeierstrassCurve.Affine.Point.neg_some] at hQ
    generalize hA : (WeierstrassCurve.Affine.Point.some _ _ _ : secpW.Point) = B at hQ
    cases hQ with
    | aff _ _ h' hx' hy' =>
      injection hA with e1 e2
      exact eq_of_zmod_eq hx hx' e1

theorem IsPt.eq_zero_iff {P : Point} {A : secpW.Point} (h : IsPt P A) : A = 0 ↔ P = .inf := by
  cases h with
  | inf => simp
  | aff x y h _ _ => simp [WeierstrassCurve.Affine.Point.some_ne_zero]

/-- The equation of the curve, from the nonsingularity Mathlib's points carry. -/
theorem fp_of_ne {a b : Nat} (ha : a < Config.secpP) (hb : b < Config.secpP) (h : a ≠ b) :
    (a : Fp) ≠ (b : Fp) := fun e => h (eq_of_zmod_eq ha hb e)

/-- The third point of a line with the slope Mathlib's addition uses. -/
theorem isPt_thirdPoint {x1 y1 x2 y2 s : Nat} {h1 : secpW.Nonsingular (x1 : Fp) (y1 : Fp)}
    {h2 : secpW.Nonsingular (x2 : Fp) (y2 : Fp)}
    (hxy : ¬((x1 : Fp) = (x2 : Fp) ∧ (y1 : Fp) = secpW.negY (x2 : Fp) (y2 : Fp)))
    (hs : (s : Fp) = secpW.slope (x1 : Fp) x2 y1 y2) :
    IsPt (thirdPoint Config.secpP s x1 y1 x2) (.some _ _ h1 + .some _ _ h2) := by
  have hp : 0 < Config.secpP := by decide
  rw [WeierstrassCurve.Affine.Point.add_some hxy]
  have e1 : ((residue ((s : Int) * s - x1 - x2) Config.secpP : Nat) : Fp) =
      secpW.addX (x1 : Fp) x2 (secpW.slope (x1 : Fp) x2 y1 y2) := by
    rw [residue_zmod _ hp, ← hs]
    simp only [WeierstrassCurve.Affine.addX, secpW]
    push_cast
    ring
  have e2 : ((residue ((s : Int) * ((x1 : Int) - residue ((s : Int) * s - x1 - x2) Config.secpP) - y1)
        Config.secpP : Nat) : Fp) =
      secpW.addY (x1 : Fp) x2 y1 (secpW.slope (x1 : Fp) x2 y1 y2) := by
    rw [residue_zmod _ hp]
    push_cast
    rw [e1, ← hs]
    simp only [WeierstrassCurve.Affine.addY, WeierstrassCurve.Affine.negAddY, secpW_negY]
    ring
  have h3 := WeierstrassCurve.Affine.nonsingular_add h1 h2 hxy
  have key : ∀ (X Y : Fp) (h : secpW.Nonsingular X Y) (x y : Nat), (x : Fp) = X → (y : Fp) = Y →
      x < Config.secpP → y < Config.secpP → IsPt (.aff x y) (.some X Y h) := by
    rintro X Y h x y rfl rfl hx hy
    exact .aff x y h hx hy
  exact key _ _ h3 _ _ e1 e2 (residue_lt _ hp) (residue_lt _ hp)

/-- `pointAdd` is the group's addition. -/
theorem IsPt.add {P Q : Point} {A B : secpW.Point} (hP : IsPt P A) (hQ : IsPt Q B) :
    IsPt (pointAdd secp P Q) (A + B) := by
  have hp : 0 < Config.secpP := by decide
  cases hP with
  | inf => rw [zero_add]; exact hQ
  | aff x1 y1 h1 hx1 hy1 =>
  cases hQ with
  | inf => rw [add_zero]; exact .aff x1 y1 h1 hx1 hy1
  | aff x2 y2 h2 hx2 hy2 =>
  have heq1 := (secpW_equation _ _).mp h1.1
  have heq2 := (secpW_equation _ _).mp h2.1
  unfold pointAdd
  simp only
  by_cases hx : x1 = x2
  · subst hx
    by_cases hy : y1 = y2
    · subst hy
      rw [if_neg (by simp), if_neg (by simp)]
      by_cases h0 : y1 = 0
      · subst h0
        rw [if_neg (by simp), WeierstrassCurve.Affine.Point.add_of_Y_eq rfl (by rw [secpW_negY]; simp)]
        exact .inf
      · rw [if_pos h0]
        have hy0 : (y1 : Fp) ≠ 0 := fp_ne_zero (by omega) hy1
        have h20 : (2 : Fp) ≠ 0 := by
          have := fp_ne_zero (n := 2) (by decide) (by decide); simpa using this
        have hne : (y1 : Fp) ≠ secpW.negY (x1 : Fp) (y1 : Fp) := by
          rw [secpW_negY]
          intro h
          exact mul_ne_zero h20 hy0 (by linear_combination h)
        refine isPt_thirdPoint (fun h => hne h.2) ?_
        rw [WeierstrassCurve.Affine.slope_of_Y_ne rfl hne, secpW_negY]
        have hd : (((2 * y1 % Config.secpP : Nat)) : Fp) ≠ 0 := by
          rw [ZMod.natCast_mod]; push_cast; exact mul_ne_zero h20 hy0
        have hi := fermatInverse_zmod secpP_prime hd
        rw [ZMod.natCast_mod] at hi
        rw [eq_div_iff (by rw [sub_neg_eq_add, ← two_mul]; exact mul_ne_zero h20 hy0)]
        simp only [tangentSlope, secp, Config.secpA, ZMod.natCast_mod, secpW]
        push_cast at hi ⊢
        rw [ZMod.natCast_mod]
        push_cast
        linear_combination (3 * (x1 : Fp) * x1) * hi
    · rw [if_pos ⟨rfl, hy⟩, WeierstrassCurve.Affine.Point.add_of_Y_eq rfl ?_]
      · exact .inf
      · rw [secpW_negY]
        have hprod : ((y1 : Fp) - y2) * ((y1 : Fp) + y2) = 0 := by linear_combination heq1 - heq2
        have hne := fp_of_ne hy1 hy2 hy
        have := (mul_eq_zero.mp hprod).resolve_left (sub_ne_zero.mpr hne)
        linear_combination this
  · rw [if_neg (by simp [hx]), if_pos hx]
    have hne := fp_of_ne hx1 hx2 hx
    refine isPt_thirdPoint (fun h => hne h.1) ?_
    rw [WeierstrassCurve.Affine.slope_of_X_ne hne]
    have hd : ((residue ((x2 : Int) - x1) Config.secpP : Nat) : Fp) ≠ 0 := by
      rw [residue_zmod _ hp]; push_cast; exact sub_ne_zero.mpr hne.symm
    have hi := fermatInverse_zmod secpP_prime hd
    rw [residue_zmod _ hp] at hi
    rw [eq_div_iff (sub_ne_zero.mpr hne)]
    simp only [chordSlope, secp, ZMod.natCast_mod]
    push_cast at hi ⊢
    rw [residue_zmod _ hp]
    push_cast
    linear_combination ((y1 : Fp) - y2) * hi

/-- The loop of `ScalarMul` computes multiples. -/
theorem IsPt.scalarMulLoop : ∀ (fuel : Nat) {acc cur : Point} {A B : secpW.Point} (k : Nat),
    IsPt acc A → IsPt cur B → k < 2 ^ fuel →
      IsPt (Machine.scalarMulLoop secp fuel acc cur k) (A + k • B) := by
  intro fuel
  induction fuel with
  | zero =>
    intro acc cur A B k hA hB hk
    have h0 : k = 0 := by simpa using hk
    subst h0
    simpa [Machine.scalarMulLoop] using hA
  | succ f ih =>
    intro acc cur A B k hA hB hk
    unfold Machine.scalarMulLoop
    split
    · rename_i h0; subst h0; simpa using hA
    · have hsum : ∀ C : secpW.Point, C + (k / 2) • (B + B) = C + (2 * (k / 2)) • B := by
        intro C; rw [← two_nsmul, ← mul_nsmul']; congr 2; omega
      split
      · rename_i hodd
        have := ih (k / 2) (hA.add hB) (hB.add hB) (by omega)
        rw [hsum, add_assoc, ← succ_nsmul', show 2 * (k / 2) + 1 = k by omega] at this
        exact this
      · rename_i heven
        have := ih (k / 2) hA (hB.add hB) (by omega)
        rw [hsum, show 2 * (k / 2) = k by omega] at this
        exact this

/-- `scalarMul` is the group's multiple. -/
theorem IsPt.scalarMul {P : Point} {A : secpW.Point} (h : IsPt P A) (k : Nat) :
    IsPt (Machine.scalarMul secp P k) (k • A) := by
  have := IsPt.scalarMulLoop (k.log2 + 1) k .inf h Nat.lt_log2_self
  rwa [zero_add] at this

/-- G as a group element: a point of order `SECP_N`. -/
theorem exists_generator : ∃ A : secpW.Point, IsPt generator A ∧ addOrderOf A = Config.secpN := by
  obtain ⟨A, hA⟩ := exists_isPt (P := generator) ⟨by decide, by decide⟩
    ((onCurve_iff secp generator).mp (by decide +kernel))
  have hfact := Fact.mk secpN_prime
  refine ⟨A, hA, addOrderOf_eq_prime ?_ ?_⟩
  · rw [(hA.scalarMul Config.secpN).eq_zero_iff]
    exact scalarMul_generator_secpN
  · rw [Ne, hA.eq_zero_iff]
    exact fun h => by cases h

end

end Sys2Proof.Machine
end

