-- ==== Sys2Proof/Laws/PerInstr.lean ====
section
/-! SUPPORT. Families of statements about each command as syntax, one lemma a constructor. -/

namespace Sys2Proof.Laws

/-- The command's word belongs to the opcode-table row of its mnemonic, and to no other row
(30_encoding.md R49). -/
def OwnRow.Statement (i : Instr) : Prop :=
  ∀ r ∈ opcodeTable, r.covers (encode i) = true ↔ r.mnemonic = mnemonic i

theorem OwnRow.nop : OwnRow.Statement .nop := by unfold OwnRow.Statement; decide
theorem OwnRow.fadd (ms : BitVec 2) : OwnRow.Statement (.fadd ms) := by
  unfold OwnRow.Statement; revert ms; decide
theorem OwnRow.fsub (ms : BitVec 2) : OwnRow.Statement (.fsub ms) := by
  unfold OwnRow.Statement; revert ms; decide
theorem OwnRow.fmul (ms : BitVec 2) : OwnRow.Statement (.fmul ms) := by
  unfold OwnRow.Statement; revert ms; decide
theorem OwnRow.fdiv (ms : BitVec 2) : OwnRow.Statement (.fdiv ms) := by
  unfold OwnRow.Statement; revert ms; decide
theorem OwnRow.fpow (ms : BitVec 2) (neg : Bool) : OwnRow.Statement (.fpow ms neg) := by
  unfold OwnRow.Statement; revert ms neg; decide
theorem OwnRow.finv (ms : BitVec 2) : OwnRow.Statement (.finv ms) := by
  unfold OwnRow.Statement; revert ms; decide
theorem OwnRow.fchk (ms : BitVec 2) : OwnRow.Statement (.fchk ms) := by
  unfold OwnRow.Statement; revert ms; decide
theorem OwnRow.pchk (cs : CurveSel) : OwnRow.Statement (.pchk cs) := by
  unfold OwnRow.Statement; cases cs <;> decide
theorem OwnRow.padd (cs : CurveSel) : OwnRow.Statement (.padd cs) := by
  unfold OwnRow.Statement; cases cs <;> decide
theorem OwnRow.pmul (cs : CurveSel) : OwnRow.Statement (.pmul cs) := by
  unfold OwnRow.Statement; cases cs <;> decide
theorem OwnRow.keyld : OwnRow.Statement .keyld := by unfold OwnRow.Statement; decide
theorem OwnRow.sign : OwnRow.Statement .sign := by unfold OwnRow.Statement; decide
theorem OwnRow.verify : OwnRow.Statement .verify := by unfold OwnRow.Statement; decide

end Sys2Proof.Laws
end

