-- ==== Sys2Proof/Tests/Slice0.lean ====
section
/-! SUPPORT. Tests: ill-formed commands are refused; words written out from 30_encoding.md R42 and R49
decode to their commands; one step a command on the vectors of 95_test_vectors.md. Then, for every
statement with hypotheses, a witness that meets them. -/

namespace Sys2Proof.Tests
open Sys2Proof.Machine

set_option Elab.async false

/-! ### Helpers -/

/-- Reset, then registers and flags as listed. -/
def load (rs : List (Reg × Nat)) (inf1 inf2 keyv : Bool := false) (rng : List Nat := []) : State :=
  { State.reset with
    x := RegFile.zero.writeAll (rs.map fun r => (r.1, toReg r.2))
    pflags := ⟨inf1, inf2, false⟩, status := { Status.zero with keyv := keyv }
    rng := rng.map toReg }

/-- The state an outcome gives, or `s`. -/
def after (s : State) : Host.Outcome State Fault Refusal → State
  | .next t => t
  | .fault _ => s
  | .refused _ => s

/-- The outcome is a next state. -/
def isNext : Host.Outcome State Fault Refusal → Bool
  | .next _ => true
  | .fault _ => false
  | .refused _ => false

theorem eq_next_after {s : State} {o : Host.Outcome State Fault Refusal} (h : isNext o = true) :
    o = .next (after s o) := by
  cases o with
  | next t => rfl
  | fault f => cases h
  | refused r => cases h

/-- The state after the one step that runs the command word `w`. -/
def ran (w : Word) (s : State) : State := after s (step (s.withFetchWord 32 w.toNat))

/-- STATUS, PFLAGS and the listed registers as numbers. -/
def shown (s : State) (rs : List Reg) : Nat × Nat × List Nat :=
  (s.status.toWord.toNat, s.pflags.toWord.toNat, rs.map fun r => (s.x.get r).toNat)

/-- 2G, 3G and 12345*G (95_test_vectors.md 2.2, 2.3). -/
def twoGx : Nat := 0xC6047F9441ED7D6D3045406E95C07CD85C778E4B8CEF3CA7ABAC09B95C709EE5
def twoGy : Nat := 0x1AE168FEA63DC339A3C58419466CEAEEF7F632653266D0E1236431A950CFE52A
def threeGx : Nat := 0xF9308A019258C31049344F85F89D5229B531C845836F99B08601F113BCE036F9
def keyGx : Nat := 0xF01D6B9018AB421DD410404CB869072065522BF85734008F105CF385A023A80F
def keyGy : Nat := 0x0EBA29D0F0C5408ED681984DC525982ABEFCCD9F7FF01DD26DA4999CF3F6A295

/-- The message representative of 95_test_vectors.md 2.4, and SS of its row k = 3. -/
def msgZ : Nat := 0xBC62D4B80D9E36DA29C16C5D4D9F11731F36052C72401A76C23C0FB5A9B74423
def threeS : Nat := 0x70B09E2B6D5191116C7015450D5A2373C9BD5DD8160327CDC68D7FB29A73C78C

/-! ### Well-formed commands -/

/-- MS = 3 is refused in every field command (30_encoding.md R49). -/
theorem test_wellFormed_refuses_ms3 :
    ([.fadd 3, .fsub 3, .fmul 3, .fdiv 3, .fpow 3 false, .fpow 3 true, .finv 3, .fchk 3] :
      List Instr).all (fun i => !i.wellFormed) = true := by decide

/-- The word an ill-formed command would have is refused by the decoder, by name. -/
theorem test_decode_refuses_ms3 :
    ([.fadd 3, .fsub 3, .fmul 3, .fdiv 3, .fpow 3 false, .fpow 3 true, .finv 3, .fchk 3] :
      List Instr).all (fun i => decodeWord (encode i) == .error .modulusSelect) = true := by decide

/-! ### Decoding words written out field by field: RSV, NEG, CS, MS, OP (30_encoding.md R42) -/

theorem test_decode_control_and_field :
    decodeWord 0b00000000000000000000_0_0_00_00000000#32 = .ok .nop ∧
    decodeWord 0b00000000000000000000_0_0_00_00000001#32 = .ok (.fadd 0) ∧
    decodeWord 0b00000000000000000000_0_0_01_00000001#32 = .ok (.fadd 1) ∧
    decodeWord 0b00000000000000000000_0_0_10_00000010#32 = .ok (.fsub 2) ∧
    decodeWord 0b00000000000000000000_0_0_10_00000011#32 = .ok (.fmul 2) ∧
    decodeWord 0b00000000000000000000_0_0_01_00000100#32 = .ok (.fdiv 1) ∧
    decodeWord 0b00000000000000000000_0_0_00_00000101#32 = .ok (.fpow 0 false) ∧
    decodeWord 0b00000000000000000000_1_0_10_00000101#32 = .ok (.fpow 2 true) ∧
    decodeWord 0b00000000000000000000_0_0_01_00000110#32 = .ok (.finv 1) ∧
    decodeWord 0b00000000000000000000_0_0_10_00000111#32 = .ok (.fchk 2) := by decide

theorem test_decode_point_and_ecdsa :
    decodeWord 0b00000000000000000000_0_0_00_00010000#32 = .ok (.pchk .secp) ∧
    decodeWord 0b00000000000000000000_0_1_00_00010000#32 = .ok (.pchk .user) ∧
    decodeWord 0b00000000000000000000_0_1_00_00010001#32 = .ok (.padd .user) ∧
    decodeWord 0b00000000000000000000_0_0_00_00010010#32 = .ok (.pmul .secp) ∧
    decodeWord 0b00000000000000000000_0_0_00_00100000#32 = .ok .keyld ∧
    decodeWord 0b00000000000000000000_0_0_00_00100001#32 = .ok .sign ∧
    decodeWord 0b00000000000000000000_0_0_00_00100010#32 = .ok .verify := by decide

/-- Reserved opcodes, and a selector a command does not have (30_encoding.md R50, R51). -/
theorem test_decode_refuses :
    ([0x08, 0x0F, 0x13, 0x1F, 0x23, 0xFF, 0x100, 0x400, 0x800, 0x401, 0x801, 0x301, 0x110, 0x810, 0x420,
      0x1000, 0x80000001] : List Word).all (fun w => !(decodeWord w).isOk) = true := by decide

/-! ### One step a command (95_test_vectors.md) -/

theorem test_nop_writes_nothing :
    shown (ran 0x000#32 (load [(.XR, 5)])) [.XR] = (0x2, 0, [5]) := by decide +kernel

theorem test_fadd_257_bit_sum :
    shown (ran 0x001#32 (load [(.X1, Config.secpP - 1), (.Y1, Config.secpP - 1)])) [.XR] =
      (0x2, 0, [0xFFFFFFFFFFFFFFFFFFFFFFFFFFFFFFFFFFFFFFFFFFFFFFFFFFFFFFFEFFFFFC2D]) := by
  decide +kernel

theorem test_fadd_smallest_modulus :
    shown (ran 0x201#32 (load [(.M, 3), (.X1, 2), (.Y1, 2)])) [.XR] = (0x2, 0, [1]) := by
  decide +kernel

theorem test_fsub_negative_difference :
    shown (ran 0x202#32 (load [(.M, 223), (.X1, 9), (.Y1, 29)])) [.XR] = (0x2, 0, [203]) := by
  decide +kernel

theorem test_fsub_mod_n :
    shown (ran 0x102#32 (load [(.Y1, 1)])) [.XR] =
      (0x2, 0, [0xFFFFFFFFFFFFFFFFFFFFFFFFFFFFFFFEBAAEDCE6AF48A03BBFD25E8CD0364140]) := by
  decide +kernel

theorem test_fmul_512_bit_product :
    shown (ran 0x003#32 (load [(.X1, Config.secpGX), (.Y1, Config.secpGY)])) [.XR] =
      (0x2, 0, [0xFD3DC529C6EB60FB9D166034CF3C1A5A72324AA9DFD3428A56D7E1CE0179FD9B]) := by
  decide +kernel

theorem test_fmul_shows_no_montgomery_factor :
    shown (ran 0x003#32 (load [(.X1, 2 ^ 128), (.Y1, 2 ^ 128)])) [.XR] = (0x2, 0, [0x1000003D1]) := by
  decide +kernel

theorem test_fdiv_quotient :
    shown (ran 0x204#32 (load [(.M, 31), (.X1, 3), (.Y1, 24)])) [.XR] = (0x2, 0, [4]) := by
  decide +kernel

theorem test_fdiv_by_zero :
    shown (ran 0x004#32 (load [(.X1, 5), (.XR, 9)])) [.XR] = (0x2, 0, [0]) := by decide +kernel

theorem test_fpow_exponent_not_reduced :
    shown (ran 0x205#32 (load [(.M, 223), (.K, 222)])) [.XR] = (0x2, 0, [0]) := by decide +kernel

theorem test_fpow_most_negative_exponent :
    shown (ran 0xA05#32 (load [(.M, 223), (.X1, 7), (.K, 2 ^ 256 - 1)])) [.XR] = (0x2, 0, [2]) := by
  decide +kernel

theorem test_finv_composite_modulus :
    shown (ran 0x206#32 (load [(.M, 15), (.X1, 2)])) [.XR] = (0x2, 0, [2]) := by decide +kernel

theorem test_finv_mod_n :
    shown (ran 0x106#32 (load [(.X1, 2)])) [.XR] =
      (0x2, 0, [0x7FFFFFFFFFFFFFFFFFFFFFFFFFFFFFFF5D576E7357A4501DDFE92F46681B20A1]) := by
  decide +kernel

theorem test_fchk_out_of_range :
    shown (ran 0x107#32 (load [(.X1, Config.secpN), (.XR, 7)])) [.XR] = (0x106, 0, [7]) := by
  decide +kernel

theorem test_fchk_bad_modulus :
    shown (ran 0x207#32 (load [(.M, 4), (.X1, 9)])) [.XR] = (0xB706, 0, [0]) := by decide +kernel

theorem test_pchk_off_curve :
    shown (ran 0x410#32 (load [(.M, 223), (.CB, 7), (.X1, 200), (.Y1, 119)])) [.XR] =
      (0x406, 0, [0]) := by decide +kernel

theorem test_pchk_infinity_ignores_coordinates :
    shown (ran 0x410#32 (load [(.M, 223), (.CB, 7), (.X1, 2 ^ 256 - 1)] true)) [.XR] =
      (0x2, 1, [0]) := by decide +kernel

theorem test_padd_chord :
    shown (ran 0x411#32 (load [(.M, 223), (.CB, 7), (.X1, 192), (.Y1, 105), (.X2, 17), (.Y2, 56)]))
      [.XR, .YR] = (0x2, 0, [170, 142]) := by decide +kernel

theorem test_padd_doubles_g :
    shown (ran 0x011#32 (load [(.X1, Config.secpGX), (.Y1, Config.secpGY), (.X2, Config.secpGX),
      (.Y2, Config.secpGY)])) [.XR, .YR] = (0x2, 0, [twoGx, twoGy]) := by decide +kernel

theorem test_pmul_all_256_rounds :
    shown (ran 0x412#32 (load [(.M, 223), (.CB, 7), (.X1, 47), (.Y1, 71), (.K, 2 ^ 256 - 1)]))
      [.XR, .YR] = (0x2, 0, [139, 86]) := by decide +kernel

theorem test_pmul_by_the_group_order :
    shown (ran 0x012#32 (load [(.X1, Config.secpGX), (.Y1, Config.secpGY), (.K, Config.secpN),
      (.XR, 1)])) [.XR, .YR] = (0x2, 4, [0, 0]) := by decide +kernel

theorem test_keyld :
    shown (ran 0x020#32 (load [(.KEY, 12345)])) [.PUBX, .PUBY] = (0x12, 0, [keyGx, keyGy]) := by
  decide +kernel

theorem test_keyld_zero_key :
    shown (ran 0x020#32 (load [(.PUBX, 3)])) [.PUBX, .PUBY] = (0x6106, 0, [3, 0]) := by
  decide +kernel

/-- RNG words 0 and `SECP_N` are rejected (95_test_vectors.md P4). -/
theorem test_sign_rejects_words_out_of_range :
    shown (ran 0x021#32 (load [(.KEY, 12345), (.Z, msgZ)] (keyv := true)
      (rng := [0, Config.secpN, 3]))) [.SR, .SS] = (0x12, 0, [threeGx, threeS]) := by
  decide +kernel

theorem test_sign_without_key :
    shown (ran 0x021#32 (load [(.KEY, 12345), (.SR, 1)] (rng := [3]))) [.SR, .SS] =
      (0x6806, 0, [1, 0]) := by decide +kernel

/-- The identity public key, `T = 1*G`; and the signature of key 1 under nonce 1, `T = 1*Q`
(95_test_vectors.md 2.4, S9). -/
theorem test_verify_accepts :
    shown (ran 0x022#32 (load [(.Z, 1), (.SR, Config.secpGX), (.SS, 1)] true)) [.XR] =
      (0xA, 1, [0]) ∧
    shown (ran 0x022#32 (load [(.X1, Config.secpGX), (.Y1, Config.secpGY), (.SR, Config.secpGX),
      (.SS, Config.secpGX)])) [.XR] = (0xA, 0, [0]) := by decide +kernel

/-- `r = SECP_N` is out of range: the verdict is 0, with no error (95_test_vectors.md 2.4). -/
theorem test_verify_r_out_of_range :
    shown (ran 0x022#32 (load [(.X1, keyGx), (.Y1, keyGy), (.Z, msgZ), (.SR, Config.secpN), (.SS, 1)]))
      [.XR] = (0x2, 0, [0]) := by decide +kernel

/-- The digest with bytes 0, 1, ..., 31: word 0 ends with byte 31 (43_ecdsa.md R89). -/
theorem test_digest_words :
    let z := digestToZ ((Vector.range 32).map fun n => BitVec.ofNat 8 n)
    getWord z 0 = 0x1C1D1E1F#32 ∧ getWord z 7 = 0x00010203#32 := by decide +kernel

/-- A STATUS write acknowledges DONE and OVR only (95_test_vectors.md P5). -/
theorem test_acknowledge :
    (busAccess ⟨0x008#10, .word, .write 0x22#32⟩
      { State.reset with status := ⟨false, true, true, false, false, true, 7, 11⟩ }).status.toWord =
      0xB704#32 := by decide

/-- A CMD write to a busy block is dropped and sets OVR (95_test_vectors.md P5). -/
theorem test_busy_command_dropped :
    let t := busAccess ⟨0x004#10, .word, .write 0#32⟩ (accept 0x412#32 State.reset)
    t.cmd = 0x412#32 ∧ t.status.toWord = 0x21#32 := by decide

/-! ### Witnesses: states and operands that meet the hypotheses of the statements -/

/-- The pending command that a CMD write of `w` makes. -/
def pend (w : Word) (s : State) : Pending := ⟨w, s.snapshot⟩

/-- F223: `y^2 = x^3 + 7` modulo 223 (95_test_vectors.md). -/
def f223 : Curve := ⟨223, 0, 7⟩

theorem witness_DecodeEncodeRoundTrip :
    (Instr.fpow 2 true).WellFormed ∧ (Instr.fchk 0).WellFormed ∧ (Instr.pmul .user).WellFormed := by
  decide

/-- Also for DecodedWordLiesInItsTableRow and ByteLanesDecodeAsTheWord. -/
theorem witness_DecodedWordIsItsEncoding :
    decodeWord 0x00000A05#32 = .ok (.fpow 2 true) ∧ decodeWord 0x00000022#32 = .ok .verify := by decide

theorem witness_StepRunsTheDecodedCommand :
    let s := accept 0x201#32 State.reset
    s.rstLow = false ∧ s.pending = some (pend 0x201#32 State.reset) ∧
      decodeWord 0x201#32 = .ok (.fadd 2) ∧ s.events = [] ∧
      { s with events := [.complete, .rstFall] }.events = .complete :: [.rstFall] ∧
      decodeTableWord 32 0x201 = some (.fadd 2) := by decide +kernel

/-- The other clauses of StepRunsTheDecodedCommand: a rejected word pending, nothing pending, a command
pending while `rst_n` is low, a bus access and an RNG word at the head of the events. -/
theorem witness_StepRunsTheDecodedCommand_events :
    (let s := accept 0x301#32 State.reset
     s.rstLow = false ∧ s.pending = some (pend 0x301#32 State.reset) ∧
       decodeWord 0x301#32 = .error .modulusSelect ∧ s.events = []) ∧
    State.reset.pending = none ∧
    (let s := { accept 0x201#32 State.reset with rstLow := true }
     s.rstLow = true ∧ s.pending ≠ none) ∧
    { State.reset with events := [.bus (wordRead 0x008#10), .complete] }.events =
      .bus (wordRead 0x008#10) :: [.complete] ∧
    { State.reset with events := [.rngWord 3] }.events = .rngWord 3 :: [] := by decide +kernel

theorem witness_IllegalWordIsAcceptedThenReported :
    State.reset.rstLow = false ∧ State.reset.status.busy = false ∧ ¬ LegalWord 0x301#32 ∧
      ¬ LegalWord 0x1000#32 ∧ LegalWord 0x000#32 ∧ ¬ LegalWord 0xA07#32 := by
  refine ⟨rfl, rfl, ?_, ?_, ?_, ?_⟩ <;> simp only [LegalWord] <;> decide

/-- A command pending after a CMD write to the reset block, with a bus read still to come. -/
def waiting : State :=
  { accept 0x201#32 State.reset with events := [.bus ⟨0x008#10, .word, .read⟩] }

theorem witness_PendingCommandEndsOnceEventsRunOut :
    waiting.Inv ∧ waiting.pending = some (pend 0x201#32 State.reset) ∧
      decodeWord (pend 0x201#32 State.reset).word ≠ .ok .sign := by
  refine ⟨⟨rfl, fun _ => ⟨rfl, rfl⟩, fun h => (by cases h), ?_, fun h => (by cases h)⟩, rfl,
    by decide⟩
  intro p hp
  cases hp
  exact ⟨rfl, rfl, rfl, rfl, rfl, rfl, rfl⟩

theorem witness_StepKeepsInvariant :
    waiting.Inv ∧ step waiting = .next (after waiting (step waiting)) :=
  ⟨witness_PendingCommandEndsOnceEventsRunOut.1, eq_next_after (by decide +kernel)⟩

/-- The key invariant is met by a loaded key too: KEY = 1, public point G. -/
theorem witness_KeyLoaded :
    (load [(.KEY, 1), (.PUBX, Config.secpGX), (.PUBY, Config.secpGY)]).x.KeyLoaded := by
  unfold RegFile.KeyLoaded; decide +kernel

theorem witness_IllegalAccessChangesNoState :
    State.reset.rstLow = false ∧ AccessSize.half ≠ .word ∧ AccessSize.wider ≠ .word ∧
      (0x001#10).toNat % 4 ≠ 0 ∧ (0x3FF#10).toNat % 4 ≠ 0 := by decide

/-- Boundary offsets of the reserved ranges: for RegisterMapPlacesEveryWord and
LegalReadReturnsTheMappedWord. -/
theorem witness_reserved_offsets :
    ∀ off ∈ [0x014#10, 0x0FC#10, 0x380#10, 0x3FC#10],
      off.toNat % 4 = 0 ∧ ((0x014 ≤ off.toNat ∧ off.toNat < 0x100) ∨ 0x380 ≤ off.toNat) := by decide

theorem witness_WordReadAfterWordWrite :
    State.reset.rstLow = false ∧ Reg.X1.hostWritable = true ∧ Reg.CB.hostWritable = true ∧
      Reg.X1 ≠ .KEY ∧ Reg.CB ≠ .KEY ∧ Reg.PUBY ≠ .KEY := by decide

theorem witness_EightWordWritesSetTheRegister :
    State.reset.rstLow = false ∧ Reg.X1.hostWritable = true ∧ Reg.KEY.hostWritable = true ∧
      State.reset.status.busy = false := by decide

theorem witness_ReadOnlyTargetsIgnoreWrites :
    ∀ off ∈ [0x000#10, 0x014#10, 0x0FC#10, 0x220#10, 0x25C#10, 0x2C0#10, 0x3FC#10],
      off.toNat % 4 = 0 ∧
        (off.toNat = 0x000 ∨ (0x014 ≤ off.toNat ∧ off.toNat < 0x100) ∨
          (0x220 ≤ off.toNat ∧ off.toNat < 0x260) ∨ 0x2C0 ≤ off.toNat) := by decide

/-- An idle and a busy block out of reset: for CmdWriteAcceptsOrDrops, KeyWordAccess, KeyClearWrite,
SoftResetClearsTheBlock, InterruptEnableAndPflagsWrites, AcknowledgeClearsOnlyDoneAndOverrun and
BusyDropsOnlyCommandAndKeyWrites. -/
theorem witness_idle_and_busy :
    State.reset.rstLow = false ∧ State.reset.status.busy = false ∧ waiting.rstLow = false ∧
      waiting.status.busy = true := by decide

/-- Words with SRST, with KEYCLR alone, with neither, with bit 1: for the same statements. -/
theorem witness_control_words :
    (0x2#32)[1] = true ∧ (0x7#32)[1] = true ∧ ((0x4#32)[2] = true ∧ (0x4#32)[1] = false) ∧
      ((0x1#32)[1] = false ∧ (0x1#32)[2] = false) := by decide

theorem witness_BusyDropsOnlyCommandAndKeyWrites :
    (0x1C0#10 = regWordOffset .KEY 0 ∧ 0x1DC#10 = regWordOffset .KEY 7) ∧
      Reg.X1.hostWritable = true ∧ Reg.X1 ≠ .KEY := by decide

/-- Clauses of InterruptIsDoneAndEnable. -/
theorem witness_InterruptIsDoneAndEnable :
    let s := accept 0x000#32 State.reset
    s.pending ≠ none ∧ exec .nop s = .next (after s (exec .nop s)) ∧
      (after s (exec .nop s)).pending = none :=
  ⟨by decide, rfl, rfl⟩

/-- Clauses of HardwareResetHoldsTheBlock. -/
theorem witness_HardwareResetHoldsTheBlock :
    { waiting with events := [.rstFall, .rstRise] }.events = .rstFall :: [.rstRise] ∧
      (hardwareReset waiting).rstLow = true ∧
      { hardwareReset waiting with events := [.rstRise] }.events = .rstRise :: [] := by decide

/-- A block held in reset that meets the invariant: the last clause of HardwareResetHoldsTheBlock. -/
theorem witness_HardwareResetHoldsTheBlock_rise :
    { hardwareReset waiting with events := [.rstRise] }.Inv ∧
      { hardwareReset waiting with events := [.rstRise] }.rstLow = true :=
  ⟨⟨rfl, fun _ => ⟨rfl, rfl⟩, fun h => (by cases h), fun _ h => (by cases h),
    fun h => (by cases h)⟩, rfl⟩

/-- Two states that differ, in KEY alone: for BusAccessesDoNotRevealKey and OnlyKeyldAndSignDependOnKey. -/
theorem witness_BusAccessesDoNotRevealKey :
    (accept 0x201#32 (load [(.KEY, 1)])).hideKey = (accept 0x201#32 (load [(.KEY, 2)])).hideKey ∧
      accept 0x201#32 (load [(.KEY, 1)]) ≠ accept 0x201#32 (load [(.KEY, 2)]) := by decide +kernel

theorem witness_OnlyKeyldAndSignDependOnKey :
    let s := accept 0x000#32 (load [(.KEY, 1)])
    let t := accept 0x000#32 (load [(.KEY, 2)])
    Instr.nop ≠ .keyld ∧ Instr.nop ≠ .sign ∧ s.hideKey = t.hideKey ∧
      exec .nop s = .next (after s (exec .nop s)) ∧ exec .nop t = .next (after t (exec .nop t)) :=
  ⟨by decide, by decide, by decide +kernel, rfl, rfl⟩

theorem witness_BusAccessesKeepResults :
    wordWrite 0x00C#10 0x5#32 = wordWrite 0x00C#10 0x5#32 ∧ (0x5#32)[1] = false ∧
      (∀ v, wordRead 0x00C#10 ≠ wordWrite 0x00C#10 v) ∧
      (∀ j v, wordWrite (regWordOffset .SS 0) 1#32 ≠ wordWrite (regWordOffset .SR j) v) ∧
      ∀ j v, wordWrite (regWordOffset .SR 7) 1#32 ≠ wordWrite (regWordOffset .SS j) v :=
  ⟨rfl, by decide, fun _ h => absurd (congrArg Access.op h) (fun e => (by cases e)),
    fun j _ h => absurd (congrArg Access.off h)
      ((by decide : ∀ j : Fin 8, regWordOffset .SS 0 ≠ regWordOffset .SR j) j),
    fun j _ h => absurd (congrArg Access.off h)
      ((by decide : ∀ j : Fin 8, regWordOffset .SR 7 ≠ regWordOffset .SS j) j)⟩

/-- FADD pending with A = 44, B = 33, M = 223, the host then rewriting A. -/
theorem witness_LaterAccessesDoNotReachThePendingCommand :
    let s := accept 0x201#32 (load [(.M, 223), (.X1, 44), (.Y1, 33)])
    let a := wordWrite 0x100#10 5#32
    s.pending ≠ none ∧ s.status.busy = true ∧ (∀ v, a ≠ wordWrite 0x00C#10 v) ∧
      exec (.fadd 2) s = .next (after s (exec (.fadd 2) s)) ∧
      exec (.fadd 2) (busAccess a s) = .next (after s (exec (.fadd 2) (busAccess a s))) ∧
      (after s (exec (.fadd 2) s)).pending = none ∧
      (after s (exec (.fadd 2) s)).status.err = false ∧ Reg.XR ∈ resultRegs (.fadd 2) := by
  refine ⟨by decide +kernel, rfl, fun v h => ?_, eq_next_after (by decide +kernel),
    eq_next_after (by decide +kernel), by decide +kernel, by decide +kernel, by decide⟩
  exact absurd (show (0x100#10 : Offset) = 0x00C#10 from congrArg Access.off h) (by decide)

/-- With witness_field_operands and witness_point_operands: NopAndPassedChecksWriteNothing. -/
theorem witness_NopCompletes :
    (accept 0x000#32 State.reset).pending = some (pend 0x000#32 State.reset) := rfl

/-- The three moduli, the largest operands; M = 3 is the smallest legal user modulus: for the
statements of the field commands. -/
theorem witness_field_operands :
    (let s := load [(.X1, Config.secpP - 1), (.Y1, Config.secpP - 1)]
     (accept 0x001#32 s).pending = some (pend 0x001#32 s) ∧
       IsModulus 0#2 (pend 0x001#32 s).snap Config.secpP ∧
       s.x.x1.toNat < Config.secpP ∧ s.x.y1.toNat < Config.secpP) ∧
    (let s := load [(.X1, Config.secpN - 1), (.Y1, 0)]
     IsModulus 1#2 (pend 0x101#32 s).snap Config.secpN ∧ s.x.x1.toNat < Config.secpN ∧
       s.x.y1.toNat = 0) ∧
    (let s := load [(.M, 3), (.X1, 2), (.Y1, 2)]
     IsModulus 2#2 (pend 0x201#32 s).snap 3 ∧ s.x.x1.toNat < 3 ∧ s.x.y1.toNat < 3) := by
  unfold IsModulus; decide +kernel

/-- A zero exponent, a zero dividend and a zero divisor: the second clauses of FDIV, FPOW, FINV. -/
theorem witness_zero_operands :
    let s := load [(.M, 223), (.X1, 0), (.Y1, 0), (.K, 0)]
    IsModulus 2#2 (pend 0xA05#32 s).snap 223 ∧ s.x.x1.toNat < 223 ∧ s.x.x1.toNat = 0 ∧
      s.x.y1.toNat = 0 ∧ s.x.k.toNat = 0 := by
  unfold IsModulus; decide +kernel

theorem witness_InverseAndQuotientUnderPrimeModulus :
    let s := accept 0x206#32 (load [(.M, 223), (.X1, 38), (.Y1, 45)])
    let p := pend 0x206#32 (load [(.M, 223), (.X1, 38), (.Y1, 45)])
    s.pending = some p ∧ IsModulus 2#2 p.snap 223 ∧ Nat.Prime 223 ∧ 0 < p.snap.x.x1.toNat ∧
      p.snap.x.x1.toNat < 223 ∧ exec (.finv 2) s = .next (after s (exec (.finv 2) s)) ∧ 95 < 223 ∧
      0 < p.snap.x.y1.toNat ∧ p.snap.x.y1.toNat < 223 ∧
      p.snap.x.x1.toNat = 95 * p.snap.x.y1.toNat % 223 ∧
      exec (.fdiv 2) s = .next (after s (exec (.fdiv 2) s)) := by
  refine ⟨rfl, by unfold IsModulus; decide +kernel, by norm_num, by decide +kernel, by decide +kernel,
    eq_next_after (by decide +kernel), by decide, by decide +kernel, by decide +kernel,
    by decide +kernel, eq_next_after (by decide +kernel)⟩

/-- M = 2, M = 4, A = m, B = m: the clauses of FieldErrorsInPriorityOrder. -/
theorem witness_FieldErrorsInPriorityOrder :
    BadUserModulus (load [(.M, 2)]).snapshot ∧ BadUserModulus (load [(.M, 4)]).snapshot ∧
      (let s := load [(.X1, Config.secpP), (.Y1, Config.secpP)]
       IsModulus 0#2 s.snapshot Config.secpP ∧ Config.secpP ≤ s.snapshot.x.x1.toNat) ∧
      (let s := load [(.X1, Config.secpN - 1), (.Y1, Config.secpN)]
       IsModulus 1#2 s.snapshot Config.secpN ∧ s.snapshot.x.x1.toNat < Config.secpN ∧
         Config.secpN ≤ s.snapshot.x.y1.toNat) ∧
      Instr.fpow 2 true ∈ fieldCommands 2 ∧ Instr.fdiv 1 ∈ binaryFieldCommands 1 := by
  unfold BadUserModulus IsModulus; decide +kernel

/-- On each curve two points: for NopAndPassedChecksWriteNothing,
PaddWritesSum and PmulWritesMultiple. -/
theorem witness_point_operands :
    (let s := load [(.M, 223), (.CB, 7), (.X1, 192), (.Y1, 105), (.X2, 17), (.Y2, 56)]
     (accept 0x411#32 s).pending = some (pend 0x411#32 s) ∧ IsCurve .user s.snapshot f223 ∧
       IsPointOperand s.x.x1 s.x.y1 false f223 (.aff 192 105) ∧ SatisfiesCurve f223 (.aff 192 105) ∧
       IsPointOperand s.x.x2 s.x.y2 false f223 (.aff 17 56) ∧ SatisfiesCurve f223 (.aff 17 56)) ∧
    (let s := load [(.X1, Config.secpGX), (.Y1, Config.secpGY)] false true
     IsCurve .secp s.snapshot secp ∧ IsPointOperand s.x.x1 s.x.y1 false secp generator ∧
       SatisfiesCurve secp generator ∧ IsPointOperand s.x.x2 s.x.y2 true secp .inf ∧
       SatisfiesCurve secp .inf) := by
  simp only [IsCurve, IsPointOperand, ← onCurve_iff]; decide +kernel

/-- The five cases of the sum at the smallest modulus, and on F223 with the slope 143 and the x3 of
95_test_vectors.md, (192, 105) + (17, 56): for PaddWritesSum. -/
theorem witness_PaddWritesSum :
    (3 ≤ (⟨3, 0, 0⟩ : Curve).m ∧ (2 : Nat) = 2 ∧ (1 : Nat) ≠ 2 ∧ (0 : Nat) ≠ 2 ∧ (1 : Nat) ≠ 0) ∧
      (3 ≤ f223.m ∧ (192 : Nat) ≠ 17 ∧ (105 : Nat) ≠ 0 ∧
        (143 : Int) = (((56 : Nat) : Int) - (105 : Nat)) % 223 *
          (((((17 : Nat) : Int) - (192 : Nat)) % 223) ^ (223 - 2) % 223) % 223 ∧
        (170 : Int) = (143 * 143 - (192 : Nat) - (17 : Nat)) % 223) := by decide +kernel

/-- The clauses of PointErrorsInPriorityOrder at their boundary values. -/
theorem witness_PointErrorsInPriorityOrder :
    BadUserModulus (load []).snapshot ∧
    (let S := (load [(.M, 223), (.CA, 223)]).snapshot
     ¬ BadUserModulus S ∧ S.x.m.toNat ≤ S.x.ca.toNat) ∧
    (let S := (load [(.M, 223), (.CA, 222), (.CB, 223)]).snapshot
     ¬ BadUserModulus S ∧ S.x.ca.toNat < S.x.m.toNat ∧ S.x.m.toNat ≤ S.x.cb.toNat) ∧
    (let S := (load [(.M, 223), (.CB, 7), (.X1, 223)]).snapshot
     IsCurve .user S f223 ∧ S.inf1 = false ∧ f223.m ≤ S.x.x1.toNat) ∧
    (let S := (load [(.M, 223), (.CB, 7), (.X1, 222), (.Y1, 223)]).snapshot
     IsCurve .user S f223 ∧ S.inf1 = false ∧ S.x.x1.toNat < f223.m ∧ f223.m ≤ S.x.y1.toNat) ∧
    (let S := (load [(.M, 223), (.CB, 7), (.X1, 192), (.Y1, 105), (.X2, 223)]).snapshot
     IsCurve .user S f223 ∧ IsPointOperand S.x.x1 S.x.y1 S.inf1 f223 (.aff 192 105) ∧
       S.inf2 = false ∧ f223.m ≤ S.x.x2.toNat) ∧
    (let S := (load [(.M, 223), (.CB, 7), (.X1, 192), (.Y1, 105), (.X2, 222), (.Y2, 223)]).snapshot
     IsPointOperand S.x.x1 S.x.y1 S.inf1 f223 (.aff 192 105) ∧ S.inf2 = false ∧
       S.x.x2.toNat < f223.m ∧ f223.m ≤ S.x.y2.toNat) ∧
    (let S := (load [(.M, 223), (.CB, 7), (.X1, 200), (.Y1, 119), (.X2, 42), (.Y2, 99)]).snapshot
     IsPointOperand S.x.x1 S.x.y1 S.inf1 f223 (.aff 200 119) ∧ ¬ SatisfiesCurve f223 (.aff 200 119) ∧
       IsPointOperand S.x.x2 S.x.y2 S.inf2 f223 (.aff 42 99)) ∧
    SatisfiesCurve f223 (.aff 192 105) ∧ ¬ SatisfiesCurve f223 (.aff 42 99) := by
  simp only [BadUserModulus, IsCurve, IsPointOperand, ← onCurve_iff]; decide +kernel

theorem witness_PointAddStaysOnCurve :
    f223.m.Prime ∧ 3 ≤ f223.m ∧ (Point.aff 192 105).InRange f223.m ∧
      (Point.aff 17 56).InRange f223.m ∧ SatisfiesCurve f223 (.aff 192 105) ∧
      SatisfiesCurve f223 (.aff 17 56) := by
  refine ⟨by norm_num [f223], ?_⟩
  simp only [Point.InRange, ← onCurve_iff]; decide +kernel

theorem witness_KeyldLoadsThePublicPoint :
    let s := accept 0x020#32 (load [(.KEY, Config.secpN - 1)])
    s.pending = some (pend 0x020#32 (load [(.KEY, Config.secpN - 1)])) ∧ 1 ≤ s.x.key.toNat ∧
      s.x.key.toNat < Config.secpN := ⟨rfl, by decide +kernel⟩

/-- SIGN with KEY = 12345 and the words 0, `SECP_N`, 3. -/
def signing : State :=
  accept 0x021#32 (load [(.KEY, 12345), (.Z, msgZ)] (keyv := true) (rng := [0, Config.secpN, 3]))

theorem witness_SignCommitsFirstUsableNonce :
    signing.pending =
        some (pend 0x021#32 (load [(.KEY, 12345), (.Z, msgZ)] (keyv := true)
          (rng := [0, Config.secpN, 3]))) ∧
      signing.snapshot.keyv = true ∧
      signing.rng = [toReg 0, toReg Config.secpN] ++ toReg 3 :: [] ∧
      (∀ u ∈ [toReg 0, toReg Config.secpN], ¬ UsableNonce 12345 msgZ u) ∧
      UsableNonce 12345 msgZ (toReg 3) := by
  refine ⟨rfl, rfl, rfl, fun u hu => ?_, (usableNonce_iff _ _ _).mpr ⟨by decide +kernel, by decide +kernel⟩⟩
  rw [usableNonce_iff]
  rcases List.mem_pair.mp hu with rfl | rfl <;> decide +kernel

theorem witness_SignWaitsForTheRng :
    let s := accept 0x021#32 (load [] (keyv := true) (rng := [0]))
    s.pending = some (pend 0x021#32 (load [] (keyv := true) (rng := [0]))) ∧
      s.snapshot.keyv = true ∧ ∀ u ∈ s.rng, ¬ UsableNonce 0 0 u := by
  refine ⟨rfl, rfl, fun u hu => ?_⟩
  rw [usableNonce_iff, List.mem_singleton.mp hu]
  decide +kernel

theorem witness_CommittedSignatureIsInRange :
    signing.snapshot.keyv = true ∧ exec .sign signing = .next (after signing (exec .sign signing)) ∧
      (after signing (exec .sign signing)).pending = none :=
  ⟨rfl, eq_next_after (by decide +kernel), by decide +kernel⟩

/-- An affine public point and the identity: for VerifyCommitsTheVerdict. -/
theorem witness_VerifyCommitsTheVerdict :
    (let s := load [(.X1, Config.secpGX), (.Y1, Config.secpGY)]
     (accept 0x022#32 s).pending = some (pend 0x022#32 s) ∧
       IsPointOperand s.x.x1 s.x.y1 false secp generator ∧ SatisfiesCurve secp generator) ∧
    IsPointOperand 0 0 true secp .inf ∧ SatisfiesCurve secp .inf := by
  simp only [IsPointOperand, ← onCurve_iff]; decide +kernel

theorem witness_MultiplesOnSecpAreRepeatedSums :
    generator.InRange Config.secpP ∧ SatisfiesCurve secp generator ∧ 1 ≤ Config.secpN - 1 ∧
      Config.secpN - 1 < Config.secpN := by
  refine ⟨⟨by decide, by decide⟩, (onCurve_iff _ _).mp (by decide +kernel), by decide, by decide⟩

/-- Key 12345 loaded, nonce 3, then VERIFY of what SIGN committed. -/
theorem witness_SignedMessageVerifies :
    let l := load [(.KEY, 12345), (.Z, msgZ), (.PUBX, keyGx), (.PUBY, keyGy)] (keyv := true) (rng := [3])
    let s := accept 0x021#32 l
    let t := after s (exec .sign s)
    let w := load [(.X1, keyGx), (.Y1, keyGy), (.Z, msgZ), (.SR, threeGx), (.SS, threeS)]
    s.pending = some (pend 0x021#32 l) ∧ l.snapshot.keyv = true ∧ l.snapshot.x.KeyLoaded ∧
      exec .sign s = .next t ∧ t.pending = none ∧
      (accept 0x022#32 w).pending = some (pend 0x022#32 w) ∧ w.snapshot.inf1 = false ∧
      w.snapshot.x.x1 = l.snapshot.x.pubx ∧ w.snapshot.x.y1 = l.snapshot.x.puby ∧
      w.snapshot.x.z = l.snapshot.x.z ∧ w.snapshot.x.sr = t.x.sr ∧ w.snapshot.x.ss = t.x.ss := by
  refine ⟨rfl, rfl, ?_, eq_next_after (by decide +kernel), by decide +kernel, rfl, rfl, rfl, rfl, rfl,
    by decide +kernel, by decide +kernel⟩
  unfold RegFile.KeyLoaded
  decide +kernel

/-- The clauses of EcdsaErrors at their boundary values. -/
theorem witness_EcdsaErrors :
    (load []).x.key.toNat = 0 ∧ Config.secpN ≤ (load [(.KEY, Config.secpN)]).x.key.toNat ∧
      (load []).snapshot.keyv = false ∧
      ((load []).snapshot.inf1 = false ∧ Config.secpP ≤ (load [(.X1, Config.secpP)]).x.x1.toNat) ∧
      (let s := load [(.X1, Config.secpP - 1), (.Y1, Config.secpP)]
       s.x.x1.toNat < Config.secpP ∧ Config.secpP ≤ s.x.y1.toNat) ∧
      IsPointOperand 0 0 false secp (.aff 0 0) ∧ ¬ SatisfiesCurve secp (.aff 0 0) := by
  simp only [IsPointOperand, ← onCurve_iff]; decide +kernel

/-- A command that errs, one that does not: for CommandFrame and ErrorsArePrecise. -/
theorem witness_ErrorsArePrecise :
    let s := accept 0x207#32 (load [])
    s.pending = some (pend 0x207#32 (load [])) ∧
      exec (.fchk 2) s = .next (after s (exec (.fchk 2) s)) ∧ s.status.err = false ∧
      (after s (exec (.fchk 2) s)).status.err = true ∧ Reg.X1 ∉ resultRegs (.padd .user) ∧
      (Target.data .X1 0).untouchedBy (.padd .user) := by
  refine ⟨rfl, eq_next_after (by decide +kernel), rfl, by decide +kernel, by decide, ?_⟩
  unfold Target.untouchedBy; decide

theorem witness_MontgomeryFormIsInvisible :
    3 ≤ 3 ∧ 3 % 2 = 1 ∧ 2 < 3 ∧ (3 ≤ Config.secpP ∧ Config.secpP % 2 = 1) := by decide

theorem witness_WindowIsAtEccBase :
    memAccess Config.eccBase .word .read = some ⟨0#10, .word, .read⟩ ∧
      memAccess (Config.eccBase + 0x3FF) .byte .read = some ⟨0x3FF#10, .byte, .read⟩ := by
  simp [memAccess, windowOffset]

end Sys2Proof.Tests
end

section
/-! PROOFS. What a host access and an engine's turn can do, said once for the statements about the
state (10_state.md): one inversion lemma for the writes, one for the accesses. -/

namespace Sys2Proof.Machine

/-- All a legal write of `v` to the target `g` can make of `s` (20_memory.md R34, 10_state.md R15, R16,
R22, R24, R25, 70_reset_and_hazards.md R116). -/
inductive WriteEffect (v : Word) (s : State) (g : Target) : State → Prop where
  | ignored : WriteEffect v s g s
  | dropped : WriteEffect v s g (dropWrite s)
  | accepted (idle : s.status.busy = false) : WriteEffect v s g (accept v s)
  | acknowledged : WriteEffect v s g { s with status := s.status.acknowledge v }
  | softReset (target : g = .ctrl) (srst : v[1] = true) : WriteEffect v s g (resetState s)
  | keyChanged (idle : s.status.busy = false) (k : U256) (c : Ctrl) :
      WriteEffect v s g
        { s with x := s.x.set .KEY k, status := { s.status with keyv := false }, ctrl := c }
  | enable (c : Ctrl) : WriteEffect v s g { s with ctrl := c }
  | flags : WriteEffect v s g { s with pflags := s.pflags.hostWrite v }
  | regChanged (r : Reg) (u : U256) (writable : r.hostWritable = true) (notKey : r ≠ .KEY) :
      WriteEffect v s g { s with x := s.x.set r u }

/-- `WriteEffect` lists the effects of `writeTarget`. -/
theorem writeEffect_writeTarget (v : Word) (s : State) (g : Target) :
    WriteEffect v s g (writeTarget v s g) := by
  cases g with
  | id => exact .ignored
  | const => exact .ignored
  | reserved => exact .ignored
  | status => exact .acknowledged
  | pflags => exact .flags
  | cmd =>
    simp only [writeTarget, writeCmd]
    split
    · exact .dropped
    · exact .accepted (Bool.eq_false_of_not_eq_true ‹_›)
  | ctrl =>
    simp only [writeTarget, writeCtrl]
    split
    · exact .softReset rfl ‹_›
    split
    · split
      · exact .dropped
      · exact .keyChanged (Bool.eq_false_of_not_eq_true ‹_›) _ _
    · exact .enable _
  | data r j =>
    simp only [writeTarget, writeKeyWord, writeRegWord]
    split
    · split
      · exact .dropped
      · exact .keyChanged (Bool.eq_false_of_not_eq_true ‹_›) _ s.ctrl
    · split
      · exact .regChanged r _ ‹_› ‹_›
      · exact .ignored

/-- All an access can do: only answer, or outside reset write a word of the window. -/
theorem busAccess_effect (a : Access) (s : State) :
    (∃ r n, busAccess a s = { s with response := r, freeIdx := n }) ∨
      (s.rstLow = false ∧ ∃ off v t, a = wordWrite off v ∧ WriteEffect v s (Target.ofOffset off) t ∧
        busAccess a s = { t with response := some ⟨false, none⟩ }) := by
  rcases busAccess_cases a s with ⟨-, h⟩ | ⟨hr, hl, h⟩ | ⟨-, -, h⟩ <;> rw [h]
  · exact .inl ⟨_, _, rfl⟩
  · obtain ⟨off, size, op⟩ := a
    cases op with
    | read => exact .inl ⟨_, s.freeIdx, rfl⟩
    | write v =>
      have hsize : size = .word := by simp_all [Access.legal]
      subst hsize
      exact .inr ⟨hr, off, v, _, rfl, writeEffect_writeTarget v s _, rfl⟩
  · exact .inl ⟨_, s.freeIdx, rfl⟩

/-- Only the offset 0x00C names CTRL (20_memory.md R30). -/
theorem eq_of_ofOffset_eq_ctrl {off : Offset} (h : Target.ofOffset off = .ctrl) : off = 0x00C#10 := by
  apply BitVec.eq_of_toNat_eq
  unfold Target.ofOffset at h
  split_ifs at h
  assumption

/-- With a word pending that the decoder rejects, the completion reports ILLEGAL_COMMAND, info 0
(30_encoding.md R51). -/
theorem completeIllegal_eq (s : State) : completeIllegal s = s.erroredWith 6#4 0#4 := rfl

/-! ### Key and public point -/

/-- The registers KEYV vouches for (10_state.md R17). -/
def keyRegs : List Reg := [.KEY, .PUBX, .PUBY]

/-- A loaded key stays loaded while KEY, PUBX and PUBY stay. -/
theorem RegFile.KeyLoaded.of_get_eq {x y : RegFile} (h : x.KeyLoaded)
    (e : ∀ r ∈ keyRegs, y.get r = x.get r) : y.KeyLoaded := by
  have hk : y.key = x.key := e .KEY (by decide)
  have hx : y.pubx = x.pubx := e .PUBX (by decide)
  have hy : y.puby = x.puby := e .PUBY (by decide)
  unfold RegFile.KeyLoaded at h ⊢
  rwa [hk, hx, hy]

/-- Of the registers KEYV vouches for, the host writes KEY alone (10_state.md R15). -/
theorem not_mem_keyRegs_of_hostWritable {r : Reg} (hw : r.hostWritable = true) (hk : r ≠ .KEY) :
    r ∉ keyRegs := by
  revert hw hk; cases r <;> decide

/-- Only KEYLD writes registers that KEYV vouches for (10_state.md R15). -/
theorem not_mem_resultRegs_of_mem_keyRegs {i : Instr} (hi : i ≠ .keyld) {r : Reg} (hr : r ∈ keyRegs) :
    r ∉ resultRegs i := by
  cases i with
  | keyld => exact absurd rfl hi
  | _ => revert hr; cases r <;> simp [keyRegs, resultRegs]

/-- An `Ok` outcome of KEYLD: the secret is legal, and its public point is written (43_ecdsa.md R80). -/
theorem keyldOutcome_ok {S : Snapshot} {w : Writes} (h : keyldOutcome S = .ok w) :
    (1 ≤ S.x.key.toNat ∧ S.x.key.toNat < Config.secpN) ∧
      w = { regs := [(.PUBX, toReg (publicPoint S.x.key.toNat).xCoord),
                     (.PUBY, toReg (publicPoint S.x.key.toNat).yCoord)]
            keyv := some true } := by
  obtain ⟨_, hr, h⟩ := bind_eq_ok h
  cases h
  exact ⟨(keyInRange_iff _).mp (require_ok_iff.mp hr), rfl⟩

end Sys2Proof.Machine
end

section
/-! PROOFS. Every step answers a next state, and keeps the invariant (10_state.md R13, R14, R16, R17, R21,
R23, 60_exceptions.md R97, R98). -/

namespace Sys2Proof.Machine

/-! ### A next state -/

/-- The engine's turn answers a next state: a command runs only when one is pending (10_state.md R13). -/
theorem engineTurn_next (s : State) : ∃ t, engineTurn s = .next t := by
  rcases engineTurn_cases s with h | ⟨-, p, hp, ⟨i, -, h⟩ | ⟨-, h⟩⟩ <;> rw [h]
  · exact ⟨_, rfl⟩
  · exact exec_pending hp
  · exact ⟨_, rfl⟩

/-- Every event answers a next state. -/
theorem handle_next (e : Event) (s : State) : ∃ t, handle e s = .next t := by
  cases e with
  | complete => exact engineTurn_next s
  | _ => exact ⟨_, rfl⟩

/-- Settles O9: the events by case, the engine's turn by what it can be. -/
theorem stepAlwaysAnswersNext : Obligations.StepAlwaysAnswersNext := by
  intro s
  unfold step
  split
  · exact engineTurn_next s
  · exact handle_next _ _

/-! ### The invariant under the parts of a step -/

/-- The invariant speaks of the block's registers, CMD, STATUS, the pending command and `rst_n` alone. -/
theorem State.Inv.congr {s t : State} (h : s.Inv) (hx : t.x = s.x) (hc : t.cmd = s.cmd)
    (hst : t.status = s.status) (hp : t.pending = s.pending)
    (hr : s.rstLow = false → t.rstLow = false) : t.Inv := by
  obtain ⟨busy, noReport, report, pending, key⟩ := h
  refine ⟨by rwa [hst, hp], by rwa [hst], by rwa [hst], fun p hq => ?_, by rwa [hst, hx]⟩
  obtain ⟨cmd, done, err, valid, running, pkey, keyv⟩ := pending p (hp ▸ hq)
  exact ⟨hc ▸ cmd, hst ▸ done, hst ▸ err, hst ▸ valid, hr running, hx ▸ pkey, hst ▸ keyv⟩

/-- An idle state that meets the invariant has nothing pending. -/
theorem State.Inv.pending_eq_none {s : State} (h : s.Inv) (hb : s.status.busy = false) :
    s.pending = none := by
  simpa [hb] using h.busy

/-- The reset values meet the invariant, whatever the outside world offers (70_reset_and_hazards.md
R113). -/
theorem inv_of_reset {s : State} (hst : s.status = Status.zero) (hp : s.pending = none) : s.Inv := by
  refine ⟨?_, fun _ => ?_, fun h => ?_, fun p h => ?_, fun h => ?_⟩
  · rw [hst, hp]; rfl
  · rw [hst]; exact ⟨rfl, rfl⟩
  · rw [hst] at h; cases h
  · rw [hp] at h; cases h
  · rw [hst] at h; cases h

/-- Acceptance by an idle block keeps the invariant: the report is cleared and the snapshot is that of the
state (30_encoding.md R44). -/
theorem State.Inv.accept {s : State} (h : s.Inv) (hr : s.rstLow = false) (v : Word) :
    (Machine.accept v s).Inv := by
  refine ⟨rfl, fun _ => ⟨rfl, rfl⟩, fun he => (by cases he), fun p hp => ?_, h.key⟩
  cases hp
  exact ⟨rfl, rfl, rfl, rfl, hr, rfl, rfl⟩

/-- A legal write keeps the invariant. -/
theorem State.Inv.writeEffect {s t : State} {v : Word} {g : Target} (h : s.Inv) (hr : s.rstLow = false)
    (e : WriteEffect v s g t) : t.Inv := by
  cases e with
  | ignored => exact h
  | accepted _ => exact h.accept hr v
  | softReset _ _ => exact inv_of_reset rfl rfl
  | enable c => exact h.congr rfl rfl rfl rfl id
  | flags => exact h.congr rfl rfl rfl rfl id
  | dropped =>
    refine ⟨h.busy, h.noReport, h.report, fun p hp => ?_, h.key⟩
    obtain ⟨cmd, done, err, valid, running, key, keyv⟩ := h.pending p hp
    exact ⟨cmd, done, err, valid, running, key, keyv⟩
  | acknowledged =>
    refine ⟨h.busy, h.noReport, h.report, fun p hp => ?_, h.key⟩
    obtain ⟨cmd, done, err, valid, running, key, keyv⟩ := h.pending p hp
    exact ⟨cmd, by simp [done], err, valid, running, key, keyv⟩
  | keyChanged idle k c =>
    have none := h.pending_eq_none idle
    refine ⟨h.busy, h.noReport, h.report, fun p hp => ?_, fun hk => by cases hk⟩
    rw [show s.pending = some p from hp] at none; cases none
  | regChanged r u writable notKey =>
    have same : ∀ q ∈ keyRegs, (s.x.set r u).get q = s.x.get q := fun q hq =>
      s.x.get_set_of_ne u fun e => not_mem_keyRegs_of_hostWritable writable notKey (e ▸ hq)
    refine ⟨h.busy, h.noReport, h.report, fun p hp => ?_, fun hk => (h.key hk).of_get_eq same⟩
    obtain ⟨cmd, done, err, valid, running, key, keyv⟩ := h.pending p hp
    exact ⟨cmd, done, err, valid, running, key.trans (same .KEY (by decide)).symm, keyv⟩

/-- A bus access keeps the invariant. -/
theorem State.Inv.busAccess {s : State} (h : s.Inv) (a : Access) : (Machine.busAccess a s).Inv := by
  rcases busAccess_effect a s with ⟨r, n, e⟩ | ⟨hr, off, v, t, -, ht, e⟩ <;> rw [e]
  · exact h.congr rfl rfl rfl rfl id
  · exact (h.writeEffect hr ht).congr rfl rfl rfl rfl id

/-- Error entry with a report of the error table keeps the invariant: no verdict stands beside the report,
since acceptance has cleared VALID (60_exceptions.md R102). -/
theorem State.Inv.errorEntry {s : State} {p : Pending} {e : CmdError} (h : s.Inv)
    (hp : s.pending = some p) (he : LegalReport e.code.number e.info) : (Machine.errorEntry e s).Inv :=
  ⟨rfl, fun h' => (by cases h'), fun _ => ⟨he, (h.pending p hp).valid⟩, fun _ h' => (by cases h'), h.key⟩

/-- A commit keeps the invariant if it keeps KEYV's promise. -/
theorem State.Inv.commit {s : State} {p : Pending} {w : Writes} (h : s.Inv) (hp : s.pending = some p)
    (hk : (Machine.commit w s).status.keyv = true → (Machine.commit w s).x.KeyLoaded) :
    (Machine.commit w s).Inv := by
  have err : s.status.err = false := (h.pending p hp).err
  exact ⟨rfl, fun _ => h.noReport err, fun he => absurd (err.symm.trans he) (by decide),
    fun _ hq => (by cases hq), hk⟩

/-- KEYLD loads the key it has checked, KEY being that of the snapshot (43_ecdsa.md R80). -/
theorem keyLoaded_commit_keyld {s : State} {p : Pending} {w : Writes} (h : PendingInv s p)
    (hw : keyldOutcome p.snap = .ok w) : (Machine.commit w s).x.KeyLoaded := by
  obtain ⟨hrange, rfl⟩ := keyldOutcome_ok hw
  rw [h.key] at hrange ⊢
  exact ⟨hrange.1, hrange.2, rfl, rfl⟩

/-- A command other than KEYLD leaves KEYV and the registers it vouches for. -/
theorem keyLoaded_commit_of_ne_keyld {i : Instr} {s : State} {w : Writes} (h : s.Inv) (hi : i ≠ .keyld)
    (hw : WritesAllowed i w) (hk : (Machine.commit w s).status.keyv = true) :
    (Machine.commit w s).x.KeyLoaded := by
  rw [commit_status, hw.keyv hi] at hk
  exact (h.key hk).of_get_eq fun r hr => s.x.get_writeAll_of_not_mem w.regs r
    fun hm => not_mem_resultRegs_of_mem_keyRegs hi hr (hw.regs r hm)

/-- A command keeps the invariant. -/
theorem State.Inv.exec {i : Instr} {s t : State} (h : s.Inv) (e : Machine.exec i s = .next t) : t.Inv := by
  obtain ⟨p, hp, ⟨w, s', hw, ho, ⟨r, rfl⟩, rfl⟩ | ⟨e, he, rfl⟩ | ⟨-, rfl⟩⟩ := exec_cases e
  · have h' : { s with rng := r }.Inv := h.congr rfl rfl rfl rfl id
    refine h'.commit hp fun hk => ?_
    by_cases hi : i = .keyld
    · subst hi
      exact keyLoaded_commit_keyld (h'.pending p hp) (ho (by decide)).2
    · exact keyLoaded_commit_of_ne_keyld h' hi hw hk
  · exact h.errorEntry hp he
  · exact h.congr rfl rfl rfl rfl id

/-- The engine's turn keeps the invariant. -/
theorem State.Inv.engineTurn {s t : State} (h : s.Inv) (e : Machine.engineTurn s = .next t) : t.Inv := by
  rcases engineTurn_cases s with h' | ⟨-, p, hp, ⟨i, -, h'⟩ | ⟨-, h'⟩⟩ <;> rw [h'] at e
  · cases e; exact h
  · exact h.exec e
  · cases e
    exact h.errorEntry hp (by simp [LegalReport, ErrorCode.number])

/-- Every event keeps the invariant. -/
theorem State.Inv.handle {e : Event} {s t : State} (h : s.Inv) (ht : Machine.handle e s = .next t) :
    t.Inv := by
  cases e with
  | bus a => cases ht; exact h.busAccess a
  | complete => exact h.engineTurn ht
  | rngWord w => cases ht; exact h.congr rfl rfl rfl rfl id
  | rstFall => cases ht; exact inv_of_reset rfl rfl
  | rstRise => cases ht; exact h.congr rfl rfl rfl rfl fun _ => rfl

/-- Settles O11: bus accesses by the effect of a write, completions by what a command can do, where KEYLD
is the one command that loads a key. -/
theorem stepKeepsInvariant : Obligations.StepKeepsInvariant := by
  intro s t h ht
  unfold step at ht
  split at ht
  · exact h.engineTurn ht
  next e rest _ =>
    have h' : { s with events := rest }.Inv := h.congr rfl rfl rfl rfl id
    exact h'.handle ht

end Sys2Proof.Machine
end

section
/-! PROOFS. What one step runs, what a command leaves unchanged, the KEY words and the control words
(10_state.md R13, R15, R16, R22, R23, R25). -/

namespace Sys2Proof.Machine

/-! ### Steps -/

/-- A table word that decodes is a command word that decodes (20_memory.md R32). -/
theorem decodeWord_of_decodeTableWord {nbits w : Nat} {i : Instr} (h : decodeTableWord nbits w = some i) :
    decodeWord (tableWord nbits w) = .ok i := by
  rw [decodeTableWord, decodeBytes_bytesOfWord] at h
  cases hd : decodeWord (tableWord nbits w) with
  | ok j => rw [hd] at h; cases h; rfl
  | error e => rw [hd] at h; cases h

/-- With no event left, a step is the engine's turn (log 1). -/
theorem step_of_events_nil {s : State} (h : s.events = []) : step s = engineTurn s := by
  rw [step, h]

/-- A step takes the first event. -/
theorem step_of_events_cons {s : State} {e : Event} {rest : List Event} (h : s.events = e :: rest) :
    step s = handle e { s with events := rest } := by
  rw [step, h]

/-- The engine runs the decoded pending command (30_encoding.md R50). -/
theorem engineTurn_of_decoded {s : State} {p : Pending} {i : Instr} (hr : s.rstLow = false)
    (hp : s.pending = some p) (hd : decodeWord p.word = .ok i) : engineTurn s = exec i s := by
  simp [engineTurn, hr, hp, hd]

/-- The engine reports a pending word the decoder rejects (30_encoding.md R51). -/
theorem engineTurn_of_rejected {s : State} {p : Pending} {e : DecodeError} (hr : s.rstLow = false)
    (hp : s.pending = some p) (hd : decodeWord p.word = .error e) :
    engineTurn s = .next (s.erroredWith 6#4 0#4) := by
  simp only [engineTurn, hr, hp, hd, Bool.false_eq_true, if_false, completeIllegal_eq]

/-- The engine does nothing with nothing pending or while `rst_n` is low (60_exceptions.md R111, log 17). -/
theorem engineTurn_of_idle {s : State} (h : s.pending = none ∨ s.rstLow = true) :
    engineTurn s = .next s := by
  rcases h with h | h <;> simp [engineTurn, h]

/-- Settles O7: each clause is the case of `step` and `engineTurn` it names. -/
theorem stepRunsTheDecodedCommand : Obligations.StepRunsTheDecodedCommand := by
  refine ⟨fun s p i hr hp hd => ⟨fun he => ?_, fun rest he => ?_⟩, fun s nbits w i hd => ?_,
    fun s p e hr hp hd => ⟨fun he => ?_, fun rest he => ?_⟩,
    fun s h => ⟨fun he => ?_, fun rest he => ?_⟩, fun s a rest he => ?_, fun s w rest he => ?_⟩
  · rw [step_of_events_nil he, engineTurn_of_decoded hr hp hd]
  · rw [step_of_events_cons he]; exact engineTurn_of_decoded hr hp hd
  · rw [step_of_events_cons (s.withFetchWord_events nbits w)]
    exact engineTurn_of_decoded rfl rfl (decodeWord_of_decodeTableWord hd)
  · rw [step_of_events_nil he, engineTurn_of_rejected hr hp hd]
  · rw [step_of_events_cons he]; exact engineTurn_of_rejected hr hp hd
  · rw [step_of_events_nil he, engineTurn_of_idle h]
  · rw [step_of_events_cons he]; exact engineTurn_of_idle h
  · rw [step_of_events_cons he]; rfl
  · rw [step_of_events_cons he]; rfl

/-! ### The KEY words -/

/-- A write to a KEY word of an idle block (10_state.md R16). -/
theorem writeKeyWord_of_idle {s : State} (hb : s.status.busy = false) (j : Fin 8) (v : Word) :
    writeKeyWord j v s =
      { s with
        x := { s.x with key := setWord s.x.key j v }, status := { s.status with keyv := false } } := by
  rw [writeKeyWord, if_neg (by simp [hb])]; rfl

/-- A write to a KEY word of a busy block (10_state.md R16). -/
theorem writeKeyWord_of_busy {s : State} (hb : s.status.busy = true) (j : Fin 8) (v : Word) :
    writeKeyWord j v s = dropWrite s := by
  rw [writeKeyWord, if_pos hb]

/-- Settles O21: an aligned access to a KEY word has the effect, or the answer, of that target. -/
theorem keyWordAccess : Obligations.KeyWordAccess := by
  intro s j v hr
  obtain ⟨haligned, htarget⟩ := ofOffset_regWordOffset .KEY j
  have hwrite : busAccess (wordWrite (regWordOffset .KEY j) v) s =
      { writeKeyWord j v s with response := some ⟨false, none⟩ } := by
    rw [busAccess_wordWrite v haligned hr, htarget]; rfl
  refine ⟨fun hb => ?_, fun hb => ?_, ?_⟩
  · rw [hwrite, writeKeyWord_of_idle hb]
  · rw [hwrite, writeKeyWord_of_busy hb]; rfl
  · rw [busAccess_wordRead haligned hr, htarget]; rfl

/-! ### Control words as numbers -/

/-- A concatenation as a number: the left word above the right one. -/
theorem toNat_append_eq_add {m n : Nat} (a : BitVec m) (b : BitVec n) :
    (a ++ b).toNat = 2 ^ n * a.toNat + b.toNat := by
  rw [BitVec.toNat_append, ← Nat.shiftLeft_add_eq_or_of_lt b.isLt, Nat.shiftLeft_eq, Nat.mul_comm]

/-- Settles O27: STATUS and PFLAGS are concatenations of their fields. -/
theorem statusAndPflagsWordLayout : Obligations.StatusAndPflagsWordLayout := by
  constructor
  · intro st
    simp only [Status.toWord, toNat_append_eq_add, BitVec.toNat_ofBool, BitVec.toNat_ofNat, Nat.zero_mod]
    ring
  · intro p
    simp only [PFlags.toWord, toNat_append_eq_add, BitVec.toNat_ofBool, BitVec.toNat_ofNat, Nat.zero_mod]
    ring

/-! ### The frame of a command -/

/-- A read does not see STATUS, PFLAGS and the result registers of a command in the words the command
leaves alone. -/
theorem readTarget_eq_of_untouchedBy {i : Instr} {s t : State} {g : Target} (hg : g.untouchedBy i)
    (hc : t.cmd = s.cmd) (hctrl : t.ctrl = s.ctrl)
    (hx : ∀ r, r ∉ resultRegs i → t.x.get r = s.x.get r) : readTarget t g = readTarget s g := by
  cases g with
  | status => exact hg.elim
  | pflags => exact hg.elim
  | cmd => exact hc
  | ctrl => exact congrArg Ctrl.toWord hctrl
  | data r j => simp only [readTarget, hx r hg]
  | id => rfl
  | const c j => rfl
  | reserved => rfl

/-- A command changes no data register but its result registers (10_state.md R15). -/
theorem exec_get_of_not_mem_resultRegs {i : Instr} {s t : State} (e : exec i s = .next t) {r : Reg}
    (hr : r ∉ resultRegs i) : t.x.get r = s.x.get r := by
  obtain ⟨p, -, ⟨w, s', hw, -, ⟨q, rfl⟩, rfl⟩ | ⟨e, -, rfl⟩ | ⟨-, rfl⟩⟩ := exec_cases e
  · exact s.x.get_writeAll_of_not_mem w.regs r fun hm => hr (hw.regs r hm)
  · rfl
  · rfl

/-- What no command changes: CMD, CTRL, INF1, INF2, OVR, and the outside world but its RNG words. -/
theorem exec_keeps {i : Instr} {s t : State} (e : exec i s = .next t) :
    t.cmd = s.cmd ∧ t.ctrl = s.ctrl ∧ t.pflags.inf1 = s.pflags.inf1 ∧ t.pflags.inf2 = s.pflags.inf2 ∧
      t.status.ovr = s.status.ovr ∧ t.rstLow = s.rstLow ∧ t.response = s.response ∧
      t.events = s.events ∧ t.freeIdx = s.freeIdx := by
  obtain ⟨p, -, ⟨w, s', -, -, ⟨q, rfl⟩, rfl⟩ | ⟨e, -, rfl⟩ | ⟨-, rfl⟩⟩ := exec_cases e <;>
    exact ⟨rfl, rfl, rfl, rfl, rfl, rfl, rfl, rfl, rfl⟩

/-- INFR, VALID, KEYV and the RNG words change only by the commands they belong to (10_state.md R23,
R25). -/
theorem exec_keeps_flags {i : Instr} {s t : State} (e : exec i s = .next t) :
    ((∀ cs, i ≠ .padd cs ∧ i ≠ .pmul cs) → t.pflags.infr = s.pflags.infr) ∧
      (i ≠ .verify → t.status.valid = s.status.valid) ∧
      (i ≠ .keyld → t.status.keyv = s.status.keyv) ∧ (i ≠ .sign → t.rng = s.rng) := by
  obtain ⟨p, -, ⟨w, s', hw, ho, ⟨q, rfl⟩, rfl⟩ | ⟨e, -, rfl⟩ | ⟨hs, rfl⟩⟩ := exec_cases e
  · refine ⟨fun hi => ?_, fun hi => ?_, fun hi => ?_, fun hi => ?_⟩
    · simp [hw.infr hi]
    · simp [hw.valid hi]
    · simp [hw.keyv hi]
    · exact (commit_rng _ _).trans (congrArg State.rng (ho hi).1)
  · exact ⟨fun _ => rfl, fun _ => rfl, fun _ => rfl, fun _ => rfl⟩
  · exact ⟨fun _ => rfl, fun _ => rfl, fun _ => rfl, fun hi => absurd hs hi⟩

/-- Settles O56: the parts of the frame, and the reads that see no more than they leave alone. -/
theorem commandFrame : Obligations.CommandFrame := by
  intro i s t e
  have regs : ∀ r, r ∉ resultRegs i → t.x.get r = s.x.get r :=
    fun _ hr => exec_get_of_not_mem_resultRegs e hr
  obtain ⟨cmd, ctrl, inf1, inf2, ovr, rstLow, response, events, freeIdx⟩ := exec_keeps e
  obtain ⟨infr, valid, keyv, rng⟩ := exec_keeps_flags e
  exact ⟨regs, cmd, ctrl, inf1, inf2, ovr, rstLow, response, events, freeIdx, infr, valid, keyv, rng,
    fun _ hg => readTarget_eq_of_untouchedBy hg cmd ctrl regs⟩

end Sys2Proof.Machine
end

section
/-! PROOFS. What the host cannot see of KEY, and what a pending command does not see of the host
(10_state.md R13, R16, R26, R27). -/

namespace Sys2Proof.Machine

/-! ### KEY forgotten -/

/-- Only KEY is forgotten. -/
theorem RegFile.get_hideKey {r : Reg} (h : r ≠ .KEY) (x : RegFile) : x.hideKey.get r = x.get r :=
  x.get_set_of_ne 0 h

/-- What is written to a register does not bring KEY back. -/
theorem RegFile.hideKey_set_hideKey (x : RegFile) (r : Reg) (u : U256) :
    (x.hideKey.set r u).hideKey = (x.set r u).hideKey := by
  cases r <;> rfl

/-- With KEY forgotten, the register writes of an outcome see the other registers alone. -/
theorem RegFile.hideKey_writeAll {x y : RegFile} (ws : List (Reg × U256)) (h : x.hideKey = y.hideKey) :
    (x.writeAll ws).hideKey = (y.writeAll ws).hideKey := by
  induction ws generalizing x y with
  | nil => exact h
  | cons w ws ih =>
    refine ih ?_
    rw [← x.hideKey_set_hideKey, h, y.hideKey_set_hideKey]

/-- Forgetting KEY twice is forgetting it once. -/
@[simp] theorem State.hideKey_hideKey (s : State) : s.hideKey.hideKey = s.hideKey := by
  obtain hp | ⟨p, hp⟩ := Option.eq_none_or_eq_some s.pending <;> simp only [State.hideKey, hp] <;> rfl

@[simp] theorem State.hideKey_x (s : State) : s.hideKey.x = s.x.hideKey := rfl
@[simp] theorem State.hideKey_status (s : State) : s.hideKey.status = s.status := rfl
@[simp] theorem State.hideKey_rstLow (s : State) : s.hideKey.rstLow = s.rstLow := rfl

/-! ### Accesses -/

/-- No read shows KEY (10_state.md R16). -/
theorem readTarget_hideKey (s : State) (g : Target) : readTarget s.hideKey g = readTarget s g := by
  cases g with
  | data r j =>
    by_cases hk : r = .KEY
    · simp [readTarget, hk]
    · simp only [readTarget, hk, if_false]
      exact congrArg (getWord · j) (RegFile.get_hideKey hk s.x)
  | _ => rfl

/-- A choice that KEY has no part in does not show KEY when its branches do not. -/
theorem State.hideKey_ite (b : Bool) {t u t' u' : State} (ht : t.hideKey = t'.hideKey)
    (hu : u.hideKey = u'.hideKey) : (if b then t else u).hideKey = (if b then t' else u').hideKey := by
  cases b
  · exact hu
  · exact ht

/-- A write to a data register other than KEY does not see KEY. -/
theorem hideKey_writeRegWord {r : Reg} (hk : r ≠ .KEY) (j : Fin 8) (v : Word) (s : State) :
    (writeRegWord r j v s.hideKey).hideKey = (writeRegWord r j v s).hideKey := by
  refine State.hideKey_ite r.hostWritable ?_ s.hideKey_hideKey
  rw [State.hideKey_x, RegFile.get_hideKey hk]
  calc { s.hideKey with x := s.x.hideKey.set r (setWord (s.x.get r) j v) }.hideKey
      = { s.hideKey.hideKey with x := (s.x.hideKey.set r (setWord (s.x.get r) j v)).hideKey } := rfl
    _ = { s.hideKey with x := (s.x.set r (setWord (s.x.get r) j v)).hideKey } := by
        rw [s.hideKey_hideKey, RegFile.hideKey_set_hideKey]

/-- With KEY forgotten, a change of KEY is seen in KEYV and CTRL alone, whatever the value. -/
theorem hideKey_keyChanged (s : State) (k k' : U256) (c : Ctrl) :
    { s.hideKey with
      x := s.hideKey.x.set .KEY k, status := { s.status with keyv := false }, ctrl := c }.hideKey =
    { s with x := s.x.set .KEY k', status := { s.status with keyv := false }, ctrl := c }.hideKey :=
  congrArg (fun u : State => { u with status := { s.status with keyv := false }, ctrl := c })
    s.hideKey_hideKey

/-- A write does not see KEY. -/
theorem hideKey_writeTarget (v : Word) (s : State) (g : Target) :
    (writeTarget v s.hideKey g).hideKey = (writeTarget v s g).hideKey := by
  cases g with
  | id => exact s.hideKey_hideKey
  | const => exact s.hideKey_hideKey
  | reserved => exact s.hideKey_hideKey
  | status =>
    exact congrArg (fun u : State => { u with status := s.status.acknowledge v }) s.hideKey_hideKey
  | pflags =>
    exact congrArg (fun u : State => { u with pflags := s.pflags.hostWrite v }) s.hideKey_hideKey
  | cmd => exact State.hideKey_ite s.status.busy (congrArg dropWrite s.hideKey_hideKey) rfl
  | ctrl =>
    refine State.hideKey_ite v[1] rfl (State.hideKey_ite v[2] (State.hideKey_ite s.status.busy ?_ ?_) ?_)
    · exact congrArg dropWrite s.hideKey_hideKey
    · exact hideKey_keyChanged s 0 0 ⟨v[0]⟩
    · exact congrArg (fun u : State => { u with ctrl := ⟨v[0]⟩ }) s.hideKey_hideKey
  | data r j =>
    by_cases hk : r = .KEY
    · simp only [writeTarget, hk, if_true]
      exact State.hideKey_ite s.status.busy (congrArg dropWrite s.hideKey_hideKey)
        (hideKey_keyChanged s _ _ s.ctrl)
    · simp only [writeTarget, hk, if_false]
      exact hideKey_writeRegWord hk j v s

/-- A legal access does not see KEY. -/
theorem legalAccess_hideKey (a : Access) (s : State) :
    (legalAccess a s.hideKey).hideKey = (legalAccess a s).hideKey ∧
      (legalAccess a s.hideKey).response = (legalAccess a s).response := by
  unfold legalAccess
  split
  · rw [readTarget_hideKey]
    exact ⟨congrArg (fun u : State =>
      { u with response := some ⟨false, some (readTarget s (Target.ofOffset a.off))⟩ })
        s.hideKey_hideKey, rfl⟩
  · exact ⟨congrArg (fun u : State => { u with response := some ⟨false, none⟩ })
      (hideKey_writeTarget _ s _), rfl⟩

/-- An access does not see KEY: neither its answer nor, KEY apart, the state it leaves depends on it. -/
theorem busAccess_hideKey (a : Access) (s : State) :
    (busAccess a s.hideKey).hideKey = (busAccess a s).hideKey ∧
      (busAccess a s.hideKey).response = (busAccess a s).response := by
  unfold busAccess
  rw [State.hideKey_rstLow]
  split
  · exact ⟨congrArg (heldAccess a) s.hideKey_hideKey, rfl⟩
  split
  · exact legalAccess_hideKey a s
  · exact ⟨congrArg (busError a) s.hideKey_hideKey, rfl⟩

/-- Settles O30: an access to either state is, KEY apart, the access to the state with KEY forgotten. -/
theorem busAccessesDoNotRevealKey : Obligations.BusAccessesDoNotRevealKey := by
  intro a s t h
  obtain ⟨hs, rs⟩ := busAccess_hideKey a s
  obtain ⟨ht, rt⟩ := busAccess_hideKey a t
  rw [← hs, ← rs, h]
  exact ⟨ht, rt⟩

/-! ### Completions -/

/-- A snapshot with KEY forgotten. -/
def Snapshot.hideKey (S : Snapshot) : Snapshot := { S with x := S.x.hideKey }

/-- The pending command of a state with KEY forgotten. -/
theorem State.hideKey_pending {s : State} {p : Pending} (h : s.pending = some p) :
    s.hideKey.pending = some ⟨p.word, p.snap.hideKey⟩ := by
  simp [State.hideKey, h, Snapshot.hideKey]

/-- Of the outcomes that are functions of the snapshot, only KEYLD's reads KEY (43_ecdsa.md R80). -/
theorem outcomeOf_hideKey {i : Instr} (hi : i ≠ .keyld) (S : Snapshot) :
    outcomeOf i S.hideKey = outcomeOf i S := by
  cases i with
  | keyld => exact absurd rfl hi
  | _ => rfl

/-- With KEY forgotten, applying an outcome sees the rest of the state alone. -/
theorem hideKey_applyOutcome (o : Except CmdError Writes) (s : State) :
    (applyOutcome o s.hideKey).hideKey = (applyOutcome o s).hideKey := by
  cases o with
  | error e => rfl
  | ok w =>
    have hx := RegFile.hideKey_writeAll w.regs (x := s.x.hideKey) (y := s.x) rfl
    exact congrArg (fun x => { commit w s with x := x }) hx

/-- A command other than KEYLD and SIGN completes, KEY apart, as it does with KEY forgotten. -/
theorem exec_hideKey {i : Instr} {s s' : State} (hk : i ≠ .keyld) (hs : i ≠ .sign)
    (e : exec i s = .next s') : ∃ u, exec i s.hideKey = .next u ∧ u.hideKey = s'.hideKey := by
  rw [exec_eq_completeWith hs] at e ⊢
  obtain ⟨p, hp, -⟩ := completeWith_cases e
  rw [completeWith_eq _ hp] at e
  cases e
  rw [completeWith_eq _ (State.hideKey_pending hp), outcomeOf_hideKey hk]
  exact ⟨_, rfl, hideKey_applyOutcome _ s⟩

/-- Settles O31: both completions are, KEY apart, the completion with KEY forgotten. -/
theorem onlyKeyldAndSignDependOnKey : Obligations.OnlyKeyldAndSignDependOnKey := by
  intro i s t s' t' hk hs h es et
  obtain ⟨u, eu, hu⟩ := exec_hideKey hk hs es
  obtain ⟨u', eu', hu'⟩ := exec_hideKey hk hs et
  rw [h, eu'] at eu
  cases eu
  exact hu.symm.trans hu'

/-! ### A pending command and the host -/

/-- `u` agrees with `s` in all that a completion reads, and in the flags its outcome is reported by. -/
structure SameForEngine (s u : State) : Prop where
  pending : u.pending = s.pending
  rng : u.rng = s.rng
  busy : u.status.busy = s.status.busy
  err : u.status.err = s.status.err
  errcode : u.status.errcode = s.status.errcode
  errinfo : u.status.errinfo = s.status.errinfo
  valid : u.status.valid = s.status.valid
  keyv : u.status.keyv = s.status.keyv
  infr : u.pflags.infr = s.pflags.infr

/-- A write to a busy block, but for a soft reset, changes nothing of that (70_reset_and_hazards.md R116,
R118). -/
theorem WriteEffect.sameForEngine {v : Word} {s t : State} {g : Target} (e : WriteEffect v s g t)
    (hb : s.status.busy = true) (hg : g = .ctrl → v[1] = false) : SameForEngine s t := by
  cases e with
  | accepted idle => rw [hb] at idle; cases idle
  | keyChanged idle => rw [hb] at idle; cases idle
  | softReset target srst => rw [hg target] at srst; cases srst
  | _ => exact ⟨rfl, rfl, rfl, rfl, rfl, rfl, rfl, rfl, rfl⟩

/-- An access to a busy block, but for a soft reset, changes nothing of that. -/
theorem busAccess_sameForEngine {a : Access} {s : State} (hb : s.status.busy = true)
    (ha : ∀ v, a = wordWrite 0x00C#10 v → v[1] = false) : SameForEngine s (busAccess a s) := by
  rcases busAccess_effect a s with ⟨r, n, e⟩ | ⟨-, off, v, t, rfl, ht, e⟩ <;> rw [e]
  · exact ⟨rfl, rfl, rfl, rfl, rfl, rfl, rfl, rfl, rfl⟩
  · have hg : Target.ofOffset off = .ctrl → v[1] = false := fun h =>
      ha v (by rw [eq_of_ofOffset_eq_ctrl h])
    obtain ⟨pending, rng, busy, err, errcode, errinfo, valid, keyv, infr⟩ := ht.sameForEngine hb hg
    exact ⟨pending, rng, busy, err, errcode, errinfo, valid, keyv, infr⟩

/-- Commits of the same writes agree. -/
theorem SameForEngine.commit {s u : State} (h : SameForEngine s u) (w : Writes) (r : List U256) :
    SameForEngine (Machine.commit w { s with rng := r }) (Machine.commit w { u with rng := r }) :=
  ⟨rfl, rfl, rfl, h.err, h.errcode, h.errinfo, congrArg w.valid.getD h.valid,
    congrArg w.keyv.getD h.keyv, congrArg w.infr.getD h.infr⟩

/-- Entries of the same error agree. -/
theorem SameForEngine.errorEntry {s u : State} (h : SameForEngine s u) (e : CmdError) :
    SameForEngine (Machine.errorEntry e s) (Machine.errorEntry e u) :=
  ⟨rfl, h.rng, rfl, rfl, rfl, rfl, h.valid, h.keyv, h.infr⟩

/-- A written register reads the same whatever stood in the registers before. -/
theorem RegFile.get_writeAll_of_mem {ws : List (Reg × U256)} {r : Reg} (h : r ∈ ws.map Prod.fst)
    (x y : RegFile) : (x.writeAll ws).get r = (y.writeAll ws).get r := by
  induction ws generalizing x y with
  | nil => cases h
  | cons w ws ih =>
    by_cases hr : r ∈ ws.map Prod.fst
    · exact ih hr _ _
    · obtain rfl : r = w.1 := by simpa [hr] using h
      simp only [RegFile.writeAll_cons, RegFile.get_writeAll_of_not_mem ws _ _ hr,
        RegFile.get_set_same]

/-- An `Ok` outcome writes every result register of its command (10_state.md R15). -/
theorem outcomeOf_ok_regs {i : Instr} {S : Snapshot} {w : Writes} (hi : i ≠ .sign)
    (h : outcomeOf i S = .ok w) : w.regs.map Prod.fst = resultRegs i := by
  cases i with
  | sign => exact absurd rfl hi
  | nop => cases h; rfl
  | fadd | fsub | fmul | fdiv | fpow | finv | fchk =>
    obtain ⟨m, -, h⟩ := bind_eq_ok h
    cases h; rfl
  | pchk =>
    obtain ⟨C, -, h⟩ := bind_eq_ok h
    obtain ⟨P, -, h⟩ := bind_eq_ok h
    obtain ⟨_, -, h⟩ := bind_eq_ok h
    cases h; rfl
  | padd =>
    obtain ⟨C, -, h⟩ := bind_eq_ok h
    obtain ⟨P, -, h⟩ := bind_eq_ok h
    obtain ⟨Q, -, h⟩ := bind_eq_ok h
    obtain ⟨_, -, h⟩ := bind_eq_ok h
    obtain ⟨_, -, h⟩ := bind_eq_ok h
    cases h; exact (pointResult_writes _).1
  | pmul =>
    obtain ⟨C, -, h⟩ := bind_eq_ok h
    obtain ⟨P, -, h⟩ := bind_eq_ok h
    obtain ⟨_, -, h⟩ := bind_eq_ok h
    cases h; exact (pointResult_writes _).1
  | keyld =>
    obtain ⟨_, -, h⟩ := bind_eq_ok h
    cases h; rfl
  | verify =>
    obtain ⟨Q, -, h⟩ := bind_eq_ok h
    obtain ⟨_, -, h⟩ := bind_eq_ok h
    cases h; rfl

/-- What a command does is fixed by its snapshot and the RNG words: it commits, with every result register
written, enters an error, or, for SIGN, waits with the words used up. -/
theorem exec_fixed_by_snapshot_and_rng (i : Instr) (p : Pending) (l : List U256) :
    (∃ w r, w.regs.map Prod.fst = resultRegs i ∧ ∀ u : State, u.pending = some p → u.rng = l →
        exec i u = .next (commit w { u with rng := r })) ∨
      (∃ e, ∀ u : State, u.pending = some p → u.rng = l → exec i u = .next (errorEntry e u)) ∨
      (∀ u : State, u.pending = some p → u.rng = l → exec i u = .next { u with rng := [] }) := by
  by_cases hi : i = .sign
  · subst hi
    cases hk : p.snap.keyv with
    | false =>
      exact .inr (.inl ⟨⟨.noKey, Reg.KEY.index⟩, fun u hp hr => by
        simp [exec, execSign, hp, signComplete, hk]⟩)
    | true =>
      cases hf : signSearch (p.snap.val .KEY) (p.snap.val .Z) l with
      | none =>
        exact .inr (.inr fun u hp hr => by simp [exec, execSign, hp, signComplete, hk, hr, hf])
      | some q =>
        exact .inl ⟨signResult q.1, q.2, rfl, fun u hp hr => by
          simp [exec, execSign, hp, signComplete, hk, hr, hf]⟩
  · cases ho : outcomeOf i p.snap with
    | ok w =>
      exact .inl ⟨w, l, outcomeOf_ok_regs hi ho, fun u hp hr => by
        subst hr; exact exec_of_ok hi hp ho⟩
    | error e => exact .inr (.inl ⟨e, fun u hp _ => exec_of_error hi hp ho⟩)

/-- Completions of the same snapshot with the same RNG words agree in the report and in the result
registers. -/
theorem SameForEngine.exec {i : Instr} {s u t t' : State} (h : SameForEngine s u)
    (hp : s.pending ≠ none) (es : Machine.exec i s = .next t) (eu : Machine.exec i u = .next t') :
    SameForEngine t t' ∧
      (t.pending = none → t.status.err = false → ∀ r ∈ resultRegs i, t'.x.get r = t.x.get r) := by
  obtain ⟨p, hp⟩ := Option.ne_none_iff_exists'.mp hp
  rcases exec_fixed_by_snapshot_and_rng i p s.rng with ⟨w, r, hw, f⟩ | ⟨e, f⟩ | f <;>
    rw [f s hp rfl] at es <;> rw [f u (h.pending.trans hp) h.rng] at eu <;> cases es <;> cases eu
  · exact ⟨h.commit w r, fun _ _ q hq => RegFile.get_writeAll_of_mem (hw ▸ hq) _ _⟩
  · exact ⟨h.errorEntry e, fun _ he => by cases he⟩
  · obtain ⟨pending, -, busy, err, errcode, errinfo, valid, keyv, infr⟩ := h
    exact ⟨⟨pending, rfl, busy, err, errcode, errinfo, valid, keyv, infr⟩,
      fun hn => by rw [show s.pending = none from hn] at hp; cases hp⟩

/-- Settles O33: the access leaves all that the completion reads. -/
theorem laterAccessesDoNotReachThePendingCommand :
    Obligations.LaterAccessesDoNotReachThePendingCommand := by
  intro i s t t' a hp hb ha
  have h := busAccess_sameForEngine hb ha
  refine ⟨h.pending, h.busy.trans hb, fun es eu => ?_⟩
  obtain ⟨⟨pending, -, -, err, errcode, errinfo, valid, keyv, infr⟩, regs⟩ := h.exec hp es eu
  exact ⟨pending, err, errcode, errinfo, valid, keyv, infr, regs⟩

end Sys2Proof.Machine
end

section
/-! PROOFS. The window (20_memory.md R29 to R35): which addresses reach the block, what each offset names,
and the byte lanes of a command word. -/

namespace Sys2Proof.Machine

/-! ### Byte lanes -/

/-- All 32 bits of a word are its table bits. -/
@[simp] theorem tableWord_toNat (w : Word) : tableWord 32 w.toNat = w := by
  rw [tableWord, Nat.mod_eq_of_lt w.isLt, BitVec.ofNat_toNat, BitVec.setWidth_eq]

/-- Settles O5: the byte lanes of a word decode as the word, and a word is its own table word. -/
theorem byteLanesDecodeAsTheWord : Obligations.ByteLanesDecodeAsTheWord := by
  intro w i
  constructor
  · intro h
    simpa only [tableWord_toNat] using decodeWord_of_decodeTableWord h
  · intro h
    rw [decodeTableWord, tableWord_toNat, decodeBytes_bytesOfWord, h]
    rfl

/-! ### Addresses -/

/-- The window is the 0x400 bytes from `ECC_BASE` on (20_memory.md R29). -/
theorem windowOffset_eq_some_iff {addr : Nat} {off : Offset} :
    windowOffset addr = some off ↔ addr = Config.eccBase + off.toNat := by
  have hoff := off.isLt
  rw [windowOffset, Option.ite_none_right_eq_some, Option.some_inj, ← BitVec.toNat_inj,
    BitVec.toNat_ofNat]
  omega

/-- Settles O60: an access is seen exactly when its address has an offset in the window. -/
theorem windowIsAtEccBase : Obligations.WindowIsAtEccBase := by
  refine ⟨Nat.mul_mod_right _ _, fun off size op => ?_, fun addr size op a h => ?_⟩
  · rw [memAccess, windowOffset_eq_some_iff.mpr rfl]
    rfl
  · obtain ⟨off, hoff, rfl⟩ := Option.map_eq_some_iff.mp h
    exact windowOffset_eq_some_iff.mp hoff

/-! ### Legality -/

/-- A legal access is 4 bytes at a multiple of 4 (20_memory.md R33). -/
theorem Access.legal_iff {a : Access} : a.legal = true ↔ a.size = .word ∧ a.off.toNat % 4 = 0 := by
  simp [Access.legal]

/-- An illegal access outside reset. -/
theorem busAccess_illegal {a : Access} {s : State} (hs : s.rstLow = false) (ha : a.legal = false) :
    busAccess a s = busError a s := by simp [busAccess, hs, ha]

/-- A legal access answers without an error, a read with data and a write with none (20_memory.md R34). -/
theorem legalAccess_response (a : Access) (s : State) :
    (legalAccess a s).response =
      some ⟨false, a.op.answer (readTarget s (Target.ofOffset a.off))⟩ := by
  unfold legalAccess
  cases a.op <;> rfl

/-- Settles O14: an access is legal, and answers its target, or illegal, and answers the bus error. -/
theorem illegalAccessChangesNoState : Obligations.IllegalAccessChangesNoState := by
  intro s a hs
  constructor
  · intro h
    have ha : a.legal = false := by
      rw [Bool.eq_false_iff, Ne, Access.legal_iff, not_and_or]
      exact h
    rw [busAccess_illegal hs ha]
    exact ⟨fun hop => by rw [busError, hop]; rfl, fun v hop => by rw [busError, hop]; rfl⟩
  · intro hsize halign
    rw [busAccess_legal hs (Access.legal_iff.mpr ⟨hsize, halign⟩)]
    exact ⟨_, legalAccess_response a s⟩

/-! ### The register map -/

/-- Where a constant register stands in the window (20_memory.md R30). -/
def ConstReg.offset : ConstReg → Nat
  | .P => 0x300
  | .N => 0x320
  | .GX => 0x340
  | .GY => 0x360

/-- Where word `j` of a constant register stands in the window (20_memory.md R31). -/
def constWordOffset (c : ConstReg) (j : Fin 8) : Offset := BitVec.ofNat 10 (c.offset + 4 * j.val)

/-- A constant word's offset is aligned and names that word. -/
theorem ofOffset_constWordOffset (c : ConstReg) (j : Fin 8) :
    (constWordOffset c j).toNat % 4 = 0 ∧ Target.ofOffset (constWordOffset c j) = .const c j := by
  revert j; cases c <;> decide +kernel

/-- The offsets between 0x300 and 0x380 name words of the constants (20_memory.md R30). -/
theorem ofOffset_of_const_range {off : Offset} (h : 0x300 ≤ off.toNat ∧ off.toNat < 0x380) :
    ∃ c j, Target.ofOffset off = .const c j := by
  rw [Target.ofOffset, if_neg, if_neg, if_neg, if_neg, if_neg, dif_neg, dif_pos h]
  · exact ⟨_, _, rfl⟩
  all_goals omega

/-- The offsets between 0x100 and 0x300 name the words of the data registers, 0x20 bytes a register
(20_memory.md R30). -/
theorem ofOffset_of_data_range {off : Offset} (h : 0x100 ≤ off.toNat ∧ off.toNat < 0x300) :
    ∃ (i : Fin 16) (j : Fin 8), i.val = (off.toNat - 0x100) / 0x20 ∧
      Target.ofOffset off = .data (Reg.ofIndex i) j := by
  rw [Target.ofOffset, if_neg, if_neg, if_neg, if_neg, if_neg, dif_pos h]
  · exact ⟨_, _, rfl, rfl⟩
  all_goals omega

/-- The offsets between the control registers and the data registers, and those above the constants, are
reserved (20_memory.md R30, R35). -/
theorem ofOffset_of_reserved_range {off : Offset}
    (h : (0x014 ≤ off.toNat ∧ off.toNat < 0x100) ∨ 0x380 ≤ off.toNat) :
    Target.ofOffset off = .reserved := by
  rw [Target.ofOffset, if_neg, if_neg, if_neg, if_neg, if_neg, dif_neg, dif_neg] <;> omega

/-- Settles O15: the rows of the register map. -/
theorem registerMapPlacesEveryWord : Obligations.RegisterMapPlacesEveryWord :=
  ⟨⟨rfl, rfl, rfl, rfl, rfl⟩, fun r j => (ofOffset_regWordOffset r j).2,
    fun j => ⟨(ofOffset_constWordOffset .P j).2, (ofOffset_constWordOffset .N j).2,
      (ofOffset_constWordOffset .GX j).2, (ofOffset_constWordOffset .GY j).2⟩,
    fun _ => ofOffset_of_reserved_range⟩

end Sys2Proof.Machine
end

section
/-! PROOFS. Reads and writes of the words of the window (20_memory.md R31, R34, R35, 10_state.md R15,
R16). -/

namespace Sys2Proof.Machine

/-! ### Reads -/

/-- A legal read answers the word of the target its offset names. -/
theorem busAccess_wordRead_of_target {off : Offset} {g : Target} {s : State} (hs : s.rstLow = false)
    (h : off.toNat % 4 = 0 ∧ Target.ofOffset off = g) :
    busAccess (wordRead off) s = { s with response := some ⟨false, some (readTarget s g)⟩ } := by
  obtain ⟨halign, rfl⟩ := h
  exact busAccess_wordRead halign hs

/-- CTRL reads as IE (10_state.md R24). -/
theorem Ctrl.toWord_eq (c : Ctrl) : c.toWord = if c.ie then 1#32 else 0#32 := by
  obtain ⟨ie⟩ := c
  cases ie <;> rfl

/-- Settles O16: the read data of each row of the register map. -/
theorem legalReadReturnsTheMappedWord : Obligations.LegalReadReturnsTheMappedWord := by
  intro s hs
  have const (c : ConstReg) (j : Fin 8) := busAccess_wordRead_of_target hs (ofOffset_constWordOffset c j)
  refine ⟨?id, ?cmd, ?status, ?ctrl, ?pflags,
    fun r j => busAccess_wordRead_of_target hs (ofOffset_regWordOffset r j),
    fun j => ⟨const .P j, const .N j, const .GX j, const .GY j⟩,
    fun off halign h => busAccess_wordRead_of_target hs ⟨halign, ofOffset_of_reserved_range h⟩⟩
  case id => exact busAccess_wordRead_of_target (g := .id) hs ⟨rfl, rfl⟩
  case cmd => exact busAccess_wordRead_of_target (g := .cmd) hs ⟨rfl, rfl⟩
  case status => exact busAccess_wordRead_of_target (g := .status) hs ⟨rfl, rfl⟩
  case ctrl =>
    rw [← Ctrl.toWord_eq]
    exact busAccess_wordRead_of_target (g := .ctrl) hs ⟨rfl, rfl⟩
  case pflags => exact busAccess_wordRead_of_target (g := .pflags) hs ⟨rfl, rfl⟩

/-! ### A read after a write -/

/-- A word of the registers after a word write: the word written, or what was there before. -/
theorem getWord_get_set_setWord (x : RegFile) (r r' : Reg) (j j' : Fin 8) (v : Word) :
    getWord ((x.set r (setWord (x.get r) j v)).get r') j' =
      if r' = r ∧ j' = j then v else getWord (x.get r') j' := by
  by_cases hr : r' = r
  · subst hr
    rw [RegFile.get_set_same]
    by_cases hj : j' = j
    · simp [hj]
    · simp [hj, getWord_setWord_of_ne]
  · simp [hr, RegFile.get_set_of_ne]

/-- A word of the window after a word write to a data register other than KEY: the word written, or what
was there before. -/
theorem readTarget_set_setWord {r : Reg} (hk : r ≠ .KEY) (s : State) (j : Fin 8) (v : Word)
    (a : Option Response) (g : Target) :
    readTarget { s with x := s.x.set r (setWord (s.x.get r) j v), response := a } g =
      if g = .data r j then v else readTarget s g := by
  cases g with
  | data r' j' =>
    by_cases hr' : r' = .KEY
    · subst hr'
      simp [readTarget, hk.symm]
    · simp [readTarget, hr', getWord_get_set_setWord]
  | _ => rfl

/-- Settles O17: the write sets its word, and every read looks at one word. -/
theorem wordReadAfterWordWrite : Obligations.WordReadAfterWordWrite := by
  intro s r j v hs hw hk
  rw [busAccess_writeRegWord j v hs hw hk]
  refine ⟨rfl, readTarget_set_setWord hk s j v _, fun r' j' hk' => ?_⟩
  rw [busAccess_wordRead_of_target ?running (ofOffset_regWordOffset r' j'), readTarget_set_setWord hk]
  case running => exact hs
  simp only [Target.data.injEq, readTarget, hk', if_false]

/-! ### Eight writes -/

/-- Writing back what is there changes nothing. -/
@[simp] theorem RegFile.set_get (x : RegFile) (r : Reg) : x.set r (x.get r) = x := by
  cases r <;> rfl

/-- Of two writes to one register the later stands. -/
@[simp] theorem RegFile.set_set (x : RegFile) (r : Reg) (u v : U256) :
    (x.set r u).set r v = x.set r v := by
  cases r <;> rfl

/-- `u` with the listed words replaced by those of `v`. -/
def copyWords (v : U256) (js : List (Fin 8)) (u : U256) : U256 :=
  js.foldl (fun u j => setWord u j (getWord v j)) u

/-- The listed words are those of `v`, the others those of `u`. -/
theorem getWord_copyWords (v : U256) (js : List (Fin 8)) (u : U256) (j : Fin 8) :
    getWord (copyWords v js u) j = if j ∈ js then getWord v j else getWord u j := by
  induction js generalizing u with
  | nil => rfl
  | cons k js ih =>
    have step : copyWords v (k :: js) u = copyWords v js (setWord u k (getWord v k)) := rfl
    rw [step, ih]
    by_cases hjs : j ∈ js
    · simp [hjs]
    · by_cases hk : j = k
      · simp [hk]
      · simp [hjs, hk, getWord_setWord_of_ne]

/-- All eight words make the value. -/
theorem copyWords_finRange (v u : U256) : copyWords v (List.finRange 8) u = v :=
  eq_of_getWord_eq fun j => by rw [getWord_copyWords, if_pos (List.mem_finRange j)]

/-- A host write to a word of `r` takes effect: the block is not held in reset, the host may write `r`,
and for KEY the block is idle (10_state.md R15, R16). -/
structure State.Writable (s : State) (r : Reg) : Prop where
  running : s.rstLow = false
  writable : r.hostWritable = true
  idle : r = .KEY → s.status.busy = false

/-- A word write that takes effect sets the word, changes no other word of the data registers, and the
next one takes effect too. -/
theorem State.Writable.after_wordWrite {s : State} {r : Reg} (h : s.Writable r) (j : Fin 8) (v : Word) :
    (busAccess (wordWrite (regWordOffset r j) v) s).x = s.x.set r (setWord (s.x.get r) j v) ∧
      (busAccess (wordWrite (regWordOffset r j) v) s).Writable r := by
  obtain ⟨hs, hw, hidle⟩ := h
  by_cases hk : r = .KEY
  · subst hk
    rw [(keyWordAccess s j v hs).1 (hidle rfl)]
    exact ⟨rfl, hs, hw, hidle⟩
  · rw [busAccess_writeRegWord j v hs hw hk]
    exact ⟨rfl, hs, hw, hidle⟩

/-- Word writes that take effect copy the words they write. -/
theorem State.Writable.foldl_wordWrite {r : Reg} (v : U256) (js : List (Fin 8)) {s : State}
    (h : s.Writable r) :
    (js.foldl (fun t j => busAccess (wordWrite (regWordOffset r j) (getWord v j)) t) s).x =
      s.x.set r (copyWords v js (s.x.get r)) := by
  induction js generalizing s with
  | nil => exact (s.x.set_get r).symm
  | cons j js ih =>
    obtain ⟨hx, hnext⟩ := h.after_wordWrite j (getWord v j)
    rw [List.foldl_cons, ih hnext, hx, RegFile.set_set, RegFile.get_set_same]
    rfl

/-- Settles O18: the eight writes copy all eight words. -/
theorem eightWordWritesSetTheRegister : Obligations.EightWordWritesSetTheRegister := by
  intro s r v hs hw hidle
  have h : s.Writable r := ⟨hs, hw, hidle⟩
  rw [h.foldl_wordWrite v (List.finRange 8), copyWords_finRange]

/-! ### Writes that are ignored -/

/-- The targets that ignore every write (20_memory.md R34, R35, 10_state.md R15, R18, R20). -/
def Target.readOnly : Target → Bool
  | .id | .const _ _ | .reserved => true
  | .data r _ => !r.hostWritable
  | .cmd | .status | .ctrl | .pflags => false

/-- A read-only target ignores a write. -/
theorem writeTarget_of_readOnly (v : Word) (s : State) {g : Target} (h : g.readOnly = true) :
    writeTarget v s g = s := by
  cases g with
  | id => rfl
  | const => rfl
  | reserved => rfl
  | data r j =>
    have hw : r.hostWritable = false := by simpa [Target.readOnly] using h
    have hk : r ≠ .KEY := by rintro rfl; cases hw
    simp only [writeTarget, hk, if_false, writeRegWord, hw, Bool.false_eq_true]
  | cmd | status | ctrl | pflags => cases h

/-- The host may not write the registers XR, YR, PUBX and PUBY, of indices 9, 10, 14 and 15 (10_state.md
R15). -/
theorem hostWritable_ofIndex (i : Fin 16) :
    (Reg.ofIndex i).hostWritable = false ↔ i.val = 9 ∨ i.val = 10 ∨ i.val = 14 ∨ i.val = 15 := by
  revert i; decide

/-- The offsets of XR and YR, and those of PUBX and PUBY, are read-only (20_memory.md R30). -/
theorem readOnly_of_data_range {off : Offset}
    (h : (0x220 ≤ off.toNat ∧ off.toNat < 0x260) ∨ (0x2C0 ≤ off.toNat ∧ off.toNat < 0x300)) :
    (Target.ofOffset off).readOnly = true := by
  obtain ⟨i, j, hi, e⟩ := ofOffset_of_data_range (off := off) (by omega)
  have hw : (Reg.ofIndex i).hostWritable = false := (hostWritable_ofIndex i).mpr (by omega)
  rw [e, Target.readOnly, hw]
  rfl

/-- ID, the result registers, the constants and the reserved offsets are read-only. -/
theorem readOnly_ofOffset {off : Offset}
    (h : off.toNat = 0x000 ∨ (0x014 ≤ off.toNat ∧ off.toNat < 0x100) ∨
      (0x220 ≤ off.toNat ∧ off.toNat < 0x260) ∨ 0x2C0 ≤ off.toNat) :
    (Target.ofOffset off).readOnly = true := by
  rcases h with hid | hreserved | hresult | htop
  · rw [Target.ofOffset, if_pos hid]
    rfl
  · rw [ofOffset_of_reserved_range (.inl hreserved)]
    rfl
  · exact readOnly_of_data_range (.inl hresult)
  · by_cases hpub : off.toNat < 0x300
    · exact readOnly_of_data_range (.inr ⟨htop, hpub⟩)
    by_cases hconst : off.toNat < 0x380
    · obtain ⟨c, j, e⟩ := ofOffset_of_const_range (off := off) (by omega)
      rw [e]
      rfl
    · rw [ofOffset_of_reserved_range (.inr (by omega))]
      rfl

/-- Settles O19: the offsets listed name read-only targets. -/
theorem readOnlyTargetsIgnoreWrites : Obligations.ReadOnlyTargetsIgnoreWrites := by
  intro s off v hs halign h
  rw [busAccess_wordWrite v halign hs, writeTarget_of_readOnly v s (readOnly_ofOffset h)]

end Sys2Proof.Machine
end

section
/-! PROOFS. The command words (30_encoding.md R42 to R51): a word decodes to a command exactly when it is
the encoding of that command and the command is well formed; which words are legal; their rows of the
opcode table; and what a CMD write makes of them. -/

namespace Sys2Proof.Machine

/-! ### The one format -/

/-- A word is put together from given fields exactly when its fields are those and RSV is 0
(30_encoding.md R42). -/
theorem eq_commandWord_iff {w : Word} {op : BitVec 8} {ms : BitVec 2} {cs neg : BitVec 1} :
    w = commandWord op ms cs neg ↔
      rsvField w = 0#20 ∧ opField w = op ∧ msField w = ms ∧ csField w = cs ∧ negField w = neg := by
  constructor
  · rintro rfl
    have hop := op.isLt
    have hms := ms.isLt
    have hcs := cs.isLt
    have hneg := neg.isLt
    simp only [← BitVec.toNat_inj, rsvField_toNat, opField_toNat, msField_toNat, csField_toNat,
      negField_toNat, commandWord_toNat, BitVec.toNat_ofNat, Nat.zero_mod]
    omega
  · rintro ⟨hrsv, rfl, rfl, rfl, rfl⟩
    exact word_eq_commandWord hrsv

/-- CS selects the curve whose bit it is (30_encoding.md R46). -/
theorem eq_curveOfBit_iff {cs : CurveSel} {b : BitVec 1} : cs = curveOfBit b ↔ b = bitOfCurve cs := by
  revert b; cases cs <;> decide

/-- NEG is the bit of the exponent's sign (30_encoding.md R47). -/
theorem eq_beq_one_iff {neg : Bool} {b : BitVec 1} : neg = (b == 1#1) ↔ b = BitVec.ofBool neg := by
  revert b; cases neg <;> decide

/-! ### The words of each family's rows (30_encoding.md R49) -/

/-- The one word of a control or ecdsa row. -/
theorem bareRow_iff {w : Word} {op : BitVec 8} {i j : Instr} :
    (rsvField w = 0#20 ∧ opField w = op ∧ decodeBare w j = .ok i) ↔ i = j ∧ w = commandWord op 0 0 0 := by
  rw [decodeBare_ok, eq_commandWord_iff]
  tauto

/-- The words of a field row other than FPOW. -/
theorem fieldRow_iff {w : Word} {op : BitVec 8} {i : Instr} {mk : BitVec 2 → Instr} :
    (rsvField w = 0#20 ∧ opField w = op ∧ decodeField w mk = .ok i) ↔
      ∃ ms, legalModulusSelect ms = true ∧ i = mk ms ∧ w = commandWord op ms 0 0 := by
  simp only [decodeField_ok, eq_commandWord_iff, legalModulusSelect, bne_iff_ne]
  constructor
  · rintro ⟨hrsv, hop, hms, hcs, hneg, hi⟩
    exact ⟨msField w, hms, hi, hrsv, hop, rfl, hcs, hneg⟩
  · rintro ⟨ms, hms, hi, hrsv, hop, rfl, hcs, hneg⟩
    exact ⟨hrsv, hop, hms, hcs, hneg, hi⟩

/-- The words of the FPOW row. -/
theorem powRow_iff {w : Word} {op : BitVec 8} {i : Instr} :
    (rsvField w = 0#20 ∧ opField w = op ∧ decodePow w = .ok i) ↔
      ∃ ms neg, legalModulusSelect ms = true ∧ i = .fpow ms neg ∧
        w = commandWord op ms 0 (BitVec.ofBool neg) := by
  simp only [decodePow_ok, eq_commandWord_iff, legalModulusSelect, bne_iff_ne, ← eq_beq_one_iff]
  constructor
  · rintro ⟨hrsv, hop, hms, hcs, hi⟩
    exact ⟨msField w, _, hms, hi, hrsv, hop, rfl, hcs, rfl⟩
  · rintro ⟨ms, neg, hms, hi, hrsv, hop, rfl, hcs, rfl⟩
    exact ⟨hrsv, hop, hms, hcs, hi⟩

/-- The words of a point row. -/
theorem pointRow_iff {w : Word} {op : BitVec 8} {i : Instr} {mk : CurveSel → Instr} :
    (rsvField w = 0#20 ∧ opField w = op ∧ decodePoint w mk = .ok i) ↔
      ∃ cs, i = mk cs ∧ w = commandWord op 0 (bitOfCurve cs) 0 := by
  simp only [decodePoint_ok, eq_commandWord_iff, ← eq_curveOfBit_iff]
  constructor
  · rintro ⟨hrsv, hop, hms, hneg, hi⟩
    exact ⟨_, hi, hrsv, hop, hms, rfl, hneg⟩
  · rintro ⟨cs, hi, hrsv, hop, hms, rfl, hneg⟩
    exact ⟨hrsv, hop, hms, hneg, hi⟩

/-! ### Decoding and encoding -/

/-- A word decodes to a command exactly when it is the encoding of that command, which is well formed: of
the rows a decoded word can lie in, only the command's own can give the command. -/
theorem decodeWord_ok_iff_encode {w : Word} {i : Instr} :
    decodeWord w = .ok i ↔ i.WellFormed ∧ w = encode i := by
  simp only [decodeWord_ok, and_or_left, bareRow_iff, fieldRow_iff, powRow_iff, pointRow_iff]
  cases i <;> simp [Instr.WellFormed, Instr.wellFormed, encode]

/-- Settles O1: the encoding of a well-formed command is a word that decodes to it. -/
theorem decodeEncodeRoundTrip : Obligations.DecodeEncodeRoundTrip :=
  fun _ h => decodeWord_ok_iff_encode.mpr ⟨h, rfl⟩

/-- Settles O2: a word that decodes to a command is its encoding. -/
theorem decodedWordIsItsEncoding : Obligations.DecodedWordIsItsEncoding := by
  intro w i h
  obtain ⟨hwf, rfl⟩ := decodeWord_ok_iff_encode.mp h
  exact ⟨rfl, hwf⟩

/-- Settles O6: the six words are encodings; the last has RSV = 0 and an OP, but MS = 3. -/
theorem wordsOfTheOpcodeMapDecode : Obligations.WordsOfTheOpcodeMapDecode :=
  ⟨decodeEncodeRoundTrip .nop rfl, decodeEncodeRoundTrip (.fadd 1) rfl,
    decodeEncodeRoundTrip (.fpow 2 true) rfl, decodeEncodeRoundTrip (.padd .user) rfl,
    decodeEncodeRoundTrip (.pmul .secp) rfl, decodeEncodeRoundTrip .verify rfl, rfl⟩

/-! ### The legal words -/

/-- The decoder accepts a word exactly when its fields are legal: row by row, the row's fields are the
ones R49 lists (30_encoding.md R50). -/
theorem exists_decodeWord_ok_iff_legalWord {w : Word} : (∃ i, decodeWord w = .ok i) ↔ LegalWord w := by
  simp only [decodeWord_ok, decodeBare_ok, decodeField_ok, decodePow_ok, decodePoint_ok, exists_and_left,
    exists_or, exists_eq, and_true]
  simp only [← BitVec.toNat_inj, ne_eq, rsvField_toNat, opField_toNat, msField_toNat, csField_toNat,
    negField_toNat, BitVec.toNat_ofNat, Nat.reducePow, Nat.reduceMod, LegalWord]
  generalize w.toNat % 0x100 = op, w.toNat / 0x100 % 4 = ms, w.toNat / 0x400 % 2 = cs,
    w.toNat / 0x800 % 2 = neg, w.toNat / 0x1000 = rsv
  refine and_congr_right fun _ => ⟨?_, ?_⟩
  · rintro (h | h | h | h | h | h | h | h | h | h | h | h | h | h) <;> omega
  · rintro (control | ⟨hlo, hhi, field⟩ | ⟨hlo, hhi, point⟩ | ⟨hlo, hhi, ecdsa⟩)
    · exact .inl control
    · interval_cases op <;> simpa using field
    · interval_cases op <;> simpa using point
    · interval_cases op <;> simpa using ecdsa

/-- Settles O3: some row accepts the word exactly when its fields are legal. -/
theorem decoderAcceptsExactlyLegalWords : Obligations.DecoderAcceptsExactlyLegalWords :=
  fun _ => exists_decodeWord_ok_iff_legalWord

/-- A word that is not legal is rejected. -/
theorem decodeWord_error_of_not_legalWord {w : Word} (h : ¬ LegalWord w) :
    ∃ e, decodeWord w = .error e := by
  cases hd : decodeWord w with
  | error e => exact ⟨e, rfl⟩
  | ok i => exact absurd (exists_decodeWord_ok_iff_legalWord.mp ⟨i, hd⟩) h

/-! ### The opcode table -/

/-- Every command's word lies in the row of its mnemonic alone. -/
theorem ownRow : ∀ i : Instr, Laws.OwnRow.Statement i
  | .nop => Laws.OwnRow.nop
  | .fadd ms => Laws.OwnRow.fadd ms
  | .fsub ms => Laws.OwnRow.fsub ms
  | .fmul ms => Laws.OwnRow.fmul ms
  | .fdiv ms => Laws.OwnRow.fdiv ms
  | .fpow ms neg => Laws.OwnRow.fpow ms neg
  | .finv ms => Laws.OwnRow.finv ms
  | .fchk ms => Laws.OwnRow.fchk ms
  | .pchk cs => Laws.OwnRow.pchk cs
  | .padd cs => Laws.OwnRow.padd cs
  | .pmul cs => Laws.OwnRow.pmul cs
  | .keyld => Laws.OwnRow.keyld
  | .sign => Laws.OwnRow.sign
  | .verify => Laws.OwnRow.verify

/-- Settles O4: a decoded word is the command's own word. -/
theorem decodedWordLiesInItsTableRow : Obligations.DecodedWordLiesInItsTableRow := by
  intro w i h
  obtain ⟨-, rfl⟩ := decodeWord_ok_iff_encode.mp h
  exact ownRow i

/-! ### Writes to CMD -/

/-- A CMD write to an idle block is the acceptance of the word (30_encoding.md R44). -/
theorem busAccess_cmdWrite_of_idle {s : State} (v : Word) (hr : s.rstLow = false)
    (hb : s.status.busy = false) :
    busAccess (wordWrite 0x004#10 v) s = { accept v s with response := some ⟨false, none⟩ } := by
  have hwrite : writeTarget v s (Target.ofOffset 0x004#10) = accept v s :=
    if_neg (by simp [hb])
  rw [busAccess_wordWrite v rfl hr, hwrite]

/-- A CMD write to a busy block is dropped (30_encoding.md R44). -/
theorem busAccess_cmdWrite_of_busy {s : State} (v : Word) (hr : s.rstLow = false)
    (hb : s.status.busy = true) :
    busAccess (wordWrite 0x004#10 v) s = { dropWrite s with response := some ⟨false, none⟩ } := by
  have hwrite : writeTarget v s (Target.ofOffset 0x004#10) = dropWrite s := if_pos hb
  rw [busAccess_wordWrite v rfl hr, hwrite]

/-- Settles O20: the two cases of a CMD write. -/
theorem cmdWriteAcceptsOrDrops : Obligations.CmdWriteAcceptsOrDrops :=
  fun _ v hr => ⟨busAccess_cmdWrite_of_idle v hr, busAccess_cmdWrite_of_busy v hr⟩

/-- Settles O8: the idle block accepts the word, and the engine then finds it rejected. -/
theorem illegalWordIsAcceptedThenReported : Obligations.IllegalWordIsAcceptedThenReported := by
  intro s w hr hb hw
  obtain ⟨e, he⟩ := decodeWord_error_of_not_legalWord hw
  exact ⟨_, busAccess_cmdWrite_of_idle w hr hb, rfl, rfl, engineTurn_of_rejected hr rfl he⟩

end Sys2Proof.Machine
end

section
/-! PROOFS. The field commands (40_field.md): the arithmetic of their results, what they do with legal
operands, and the errors of their prologue. -/

namespace Sys2Proof.Machine

/-! ### The values -/

/-- The residue of a difference of reduced operands (40_field.md R62). -/
theorem residue_sub_eq {a b m : Nat} (ha : a < m) (hb : b < m) :
    residue ((a : Int) - b) m = if b ≤ a then a - b else a + m - b := by
  unfold residue
  split
  · rw [Int.emod_eq_of_lt] <;> omega
  · rw [← Int.add_emod_right, Int.emod_eq_of_lt] <;> omega

/-- `Pow` of the signed exponent: only a negative exponent is reduced modulo `m - 1`
(40_field.md R58, 30_encoding.md R47). -/
theorem pow_exponent_eq (a : Nat) (neg : Bool) (S : Snapshot) {m : Nat} (hm : 0 < m) :
    pow a (exponent neg S) m =
      if neg = true ∧ S.val .K ≠ 0 then a ^ residue (-(S.val .K : Int)) (m - 1) % m
      else a ^ S.val .K % m := by
  cases neg with
  | false => simp [exponent, pow_natCast a _ hm]
  | true =>
    by_cases hk : S.val .K = 0
    · simpa [exponent, hk] using pow_natCast a 0 hm
    · simp [exponent, hk, pow_of_neg a (show -(S.val .K : Int) < 0 by omega) hm]

/-- The Fermat power of zero is zero (40_field.md R66). -/
theorem fermatInverse_zero {m : Nat} (hm : 3 ≤ m) : fermatInverse 0 m = 0 := by
  rw [fermatInverse_eq 0 (by omega), Nat.zero_pow (by omega), Nat.zero_mod]

/-- A nonzero number below `m` is nonzero modulo `m`. -/
theorem natCast_zmod_ne_zero {m a : Nat} (h0 : 0 < a) (h : a < m) : (a : ZMod m) ≠ 0 := by
  rw [Ne, ZMod.natCast_eq_zero_iff]
  exact Nat.not_dvd_of_pos_of_lt h0 h

/-- Under a prime modulus the Fermat power of a nonzero operand is its inverse (40_field.md R66). -/
theorem mul_fermatInverse_mod {m a : Nat} (hm : m.Prime) (h0 : 0 < a) (h : a < m) :
    a * fermatInverse a m % m = 1 := by
  refine eq_of_zmod_eq (Nat.mod_lt _ hm.pos) hm.one_lt ?_
  have hinv := fermatInverse_zmod hm (natCast_zmod_ne_zero h0 h)
  rw [ZMod.natCast_mod]
  push_cast
  linear_combination hinv

/-- Under a prime modulus the quotient of a product by a nonzero factor is the other factor
(40_field.md R60). -/
theorem mul_mod_mul_fermatInverse_mod {m a b : Nat} (hm : m.Prime) (ha : a < m) (h0 : 0 < b)
    (hb : b < m) : a * b % m * fermatInverse b m % m = a := by
  rw [Nat.mod_mul_mod, Nat.mul_assoc, ← Nat.mul_mod_mod, mul_fermatInverse_mod hm h0 hb, Nat.mul_one,
    Nat.mod_eq_of_lt ha]

/-- A value below a legal modulus fits XR. -/
theorem IsModulus.toNat_toReg {ms : BitVec 2} {S : Snapshot} {m n : Nat} (hm : IsModulus ms S m)
    (h : n < m) : (toReg n).toNat = n := by
  obtain ⟨-, -, hfit⟩ := hm.bounds
  exact (BitVec.toNat_ofNat n 256).trans (Nat.mod_eq_of_lt (h.trans hfit))

/-! ### Legal operands -/

section
variable {s : State} {p : Pending} {ms : BitVec 2} {m : Nat}

/-- A command that is a field prologue followed by a result writes that result to XR and nothing else
(40_field.md R54, R55). -/
theorem exec_of_fieldPrologue_ok {i : Instr} {b : Bool} (f : Nat → Nat) (hi : i ≠ .sign)
    (hp : s.pending = some p) (hm : fieldPrologue ms p.snap b = .ok m)
    (ho : outcomeOf i p.snap = (do let m ← fieldPrologue ms p.snap b; return fieldResult (f m))) :
    exec i s = .next (s.completedWith { s.x with xr := toReg (f m) }) := by
  rw [hm] at ho
  exact exec_of_ok hi hp ho

variable (hp : s.pending = some p) (hm : IsModulus ms p.snap m) (ha : p.snap.x.x1.toNat < m)
include hp hm ha

/-- FPOW writes `Pow` of the signed exponent (40_field.md R65). -/
theorem exec_fpow (neg : Bool) : exec (.fpow ms neg) s = .next (s.completedWith
    { s.x with xr := toReg (pow p.snap.x.x1.toNat (exponent neg p.snap) m) }) :=
  exec_of_fieldPrologue_ok (fun m => pow (p.snap.val .X1) (exponent neg p.snap) m) nofun hp
    (fieldPrologue_unary hm ha) rfl

/-- FINV writes the Fermat power (40_field.md R66). -/
theorem exec_finv : exec (.finv ms) s = .next (s.completedWith
    { s.x with xr := toReg (fermatInverse p.snap.x.x1.toNat m) }) :=
  exec_of_fieldPrologue_ok (fermatInverse (p.snap.val .X1)) nofun hp (fieldPrologue_unary hm ha) rfl

variable (hb : p.snap.x.y1.toNat < m)
include hb

/-- FSUB writes the residue of the difference (40_field.md R62). -/
theorem exec_fsub : exec (.fsub ms) s = .next (s.completedWith
    { s.x with xr := toReg (residue ((p.snap.x.x1.toNat : Int) - p.snap.x.y1.toNat) m) }) :=
  exec_of_fieldPrologue_ok (residue ((p.snap.val .X1 : Int) - p.snap.val .Y1)) nofun hp
    (fieldPrologue_binary hm ha hb) rfl

/-- FDIV writes the product with the Fermat power (40_field.md R64). -/
theorem exec_fdiv : exec (.fdiv ms) s = .next (s.completedWith
    { s.x with xr := toReg (p.snap.x.x1.toNat * fermatInverse p.snap.x.y1.toNat m % m) }) :=
  exec_of_fieldPrologue_ok (fun m => p.snap.val .X1 * fermatInverse (p.snap.val .Y1) m % m) nofun hp
    (fieldPrologue_binary hm ha hb) rfl

end

/-- Settles O35: the sum is reduced by one `%`. -/
theorem faddWritesSum : Obligations.FaddWritesSum := by
  intro s p ms m hp hm ha hb
  exact exec_of_fieldPrologue_ok (fun m => (p.snap.val .X1 + p.snap.val .Y1) % m) nofun hp
    (fieldPrologue_binary hm ha hb) rfl

/-- Settles O37: the exact product is reduced by one `%`. -/
theorem fmulWritesProduct : Obligations.FmulWritesProduct := by
  intro s p ms m hp hm ha hb
  exact exec_of_fieldPrologue_ok (fun m => p.snap.val .X1 * p.snap.val .Y1 % m) nofun hp
    (fieldPrologue_binary hm ha hb) rfl

/-- Settles O36: a negative difference is brought into range by one addition of `m`. -/
theorem fsubWritesDifference : Obligations.FsubWritesDifference := by
  intro s p ms m hp hm ha hb
  rw [exec_fsub hp hm ha hb, residue_sub_eq ha hb]
  rfl

/-- Settles O38: the Fermat power is `b^(m-2) mod m`, and that of zero is zero. -/
theorem fdivWritesQuotient : Obligations.FdivWritesQuotient := by
  intro s p ms m hp hm ha hb
  obtain ⟨hm3, -, -⟩ := hm.bounds
  rw [exec_fdiv hp hm ha hb]
  constructor
  · rw [fermatInverse_eq _ (by omega)]
    rfl
  · intro hzero
    rw [hzero, fermatInverse_zero hm3, Nat.mul_zero, Nat.zero_mod]
    rfl

/-- Settles O39: `Pow` of the signed exponent; a zero magnitude is not negative, whatever NEG is. -/
theorem fpowWritesPower : Obligations.FpowWritesPower := by
  intro s p ms neg m hp hm ha
  obtain ⟨hm3, -, -⟩ := hm.bounds
  rw [exec_fpow hp hm ha, pow_exponent_eq _ _ _ (by omega)]
  refine ⟨rfl, fun hzero => ?_⟩
  have hk : p.snap.val .K = 0 := hzero
  rw [if_neg (fun h => h.2 hk), hk, Nat.pow_zero, Nat.mod_eq_of_lt (by omega)]
  rfl

/-- Settles O40: the Fermat power is `a^(m-2) mod m`, and that of zero is zero. -/
theorem finvWritesInverse : Obligations.FinvWritesInverse := by
  intro s p ms m hp hm ha
  obtain ⟨hm3, -, -⟩ := hm.bounds
  rw [exec_finv hp hm ha]
  constructor
  · rw [fermatInverse_eq _ (by omega)]
    rfl
  · intro hzero
    rw [hzero, fermatInverse_zero hm3]
    rfl

/-- Settles O41: the values FINV and FDIV write, read back from XR, under Fermat's little theorem. -/
theorem inverseAndQuotientUnderPrimeModulus : Obligations.InverseAndQuotientUnderPrimeModulus := by
  constructor
  · intro s t p ms m hp hm hprime h0 ha hexec
    cases (exec_finv hp hm ha).symm.trans hexec
    change p.snap.x.x1.toNat * (toReg (fermatInverse p.snap.x.x1.toNat m)).toNat % m = 1
    rw [hm.toNat_toReg (fermatInverse_lt _ hprime.two_le), mul_fermatInverse_mod hprime h0 ha]
  · intro s t p ms m a hp hm hprime ha h0 hb hprod hexec
    have hx : p.snap.x.x1.toNat < m := hprod ▸ Nat.mod_lt _ hprime.pos
    cases (exec_fdiv hp hm hx hb).symm.trans hexec
    change (toReg (p.snap.x.x1.toNat * fermatInverse p.snap.x.y1.toNat m % m)).toNat = a
    rw [hm.toNat_toReg (Nat.mod_lt _ hprime.pos), hprod, mul_mod_mul_fermatInverse_mod hprime ha h0 hb]

/-! ### Errors of the prologue -/

/-- A bad user modulus is found first (40_field.md R54). -/
theorem fieldPrologue_badModulus {S : Snapshot} (h : BadUserModulus S) (b : Bool) :
    fieldPrologue 2#2 S b = .error ⟨.badModulus, 11⟩ := by
  have hmod : resolveModulus 2#2 S = .error ⟨.badModulus, 11⟩ := userModulus_bad h
  rw [fieldPrologue, hmod, bind_error]

/-- Then A out of range (40_field.md R54). -/
theorem fieldPrologue_x1_outOfRange {ms : BitVec 2} {S : Snapshot} {m : Nat} (hm : IsModulus ms S m)
    (ha : m ≤ S.x.x1.toNat) (b : Bool) : fieldPrologue ms S b = .error ⟨.outOfRange, 0⟩ := by
  have hx : ¬ S.val .X1 < m := Nat.not_lt.mpr ha
  simp [fieldPrologue, resolveModulus_ok hm, hx, Reg.index]

/-- Then, for a binary command, B out of range (40_field.md R54). -/
theorem fieldPrologue_y1_outOfRange {ms : BitVec 2} {S : Snapshot} {m : Nat} (hm : IsModulus ms S m)
    (ha : S.x.x1.toNat < m) (hb : m ≤ S.x.y1.toNat) :
    fieldPrologue ms S true = .error ⟨.outOfRange, 1⟩ := by
  have hx : S.val .X1 < m := ha
  have hy : ¬ S.val .Y1 < m := Nat.not_lt.mpr hb
  simp [fieldPrologue, resolveModulus_ok hm, hx, hy, Reg.index]

/-- Every binary field command starts with the prologue that checks both operands (40_field.md R54). -/
theorem outcomeOf_binaryFieldCommand {ms : BitVec 2} {i : Instr} (hi : i ∈ binaryFieldCommands ms) :
    ∃ f : Snapshot → Nat → Except CmdError Writes,
      ∀ S, outcomeOf i S = fieldPrologue ms S true >>= f S := by
  simp only [binaryFieldCommands, List.mem_cons, List.not_mem_nil, or_false] at hi
  rcases hi with rfl | rfl | rfl | rfl <;> exact ⟨_, fun _ => rfl⟩

/-- Every field command starts with a prologue (40_field.md R54). -/
theorem outcomeOf_fieldCommand {ms : BitVec 2} {i : Instr} (hi : i ∈ fieldCommands ms) :
    ∃ (b : Bool) (f : Snapshot → Nat → Except CmdError Writes),
      ∀ S, outcomeOf i S = fieldPrologue ms S b >>= f S := by
  simp only [fieldCommands, List.mem_cons, List.not_mem_nil, or_false] at hi
  rcases hi with rfl | rfl | rfl | rfl | rfl | rfl | rfl | rfl <;> exact ⟨_, _, fun _ => rfl⟩

/-- SIGN is no field command. -/
theorem ne_sign_of_mem_fieldCommands {ms : BitVec 2} {i : Instr} (hi : i ∈ fieldCommands ms) :
    i ≠ .sign := by
  rintro rfl
  simp [fieldCommands] at hi

/-- The binary field commands are field commands. -/
theorem mem_fieldCommands_of_binary {ms : BitVec 2} {i : Instr} (hi : i ∈ binaryFieldCommands ms) :
    i ∈ fieldCommands ms :=
  (List.prefix_append (binaryFieldCommands ms)
    [.fpow ms false, .fpow ms true, .finv ms, .fchk ms]).mem hi

/-- An error of the prologue, whichever operands it checks, is the command's error. -/
theorem exec_fieldCommand_error {s : State} {p : Pending} {ms : BitVec 2} {i : Instr} {e : CmdError}
    (hp : s.pending = some p) (hi : i ∈ fieldCommands ms)
    (h : ∀ b, fieldPrologue ms p.snap b = .error e) :
    exec i s = .next (s.erroredWith e.code.number e.info) := by
  obtain ⟨b, f, hf⟩ := outcomeOf_fieldCommand hi
  exact exec_of_error (ne_sign_of_mem_fieldCommands hi) hp (by rw [hf, h b, bind_error])

/-- Settles O42: the prologue's first failing check is the command's error. -/
theorem fieldErrorsInPriorityOrder : Obligations.FieldErrorsInPriorityOrder := by
  intro s p ms hp
  refine ⟨?badModulus, ?rangeOfA, ?rangeOfB⟩
  case badModulus =>
    rintro rfl hbad i hi
    exact exec_fieldCommand_error hp hi (fieldPrologue_badModulus hbad)
  case rangeOfA =>
    intro m hm ha i hi
    exact exec_fieldCommand_error hp hi (fieldPrologue_x1_outOfRange hm ha)
  case rangeOfB =>
    intro m hm ha hb i hi
    obtain ⟨f, hf⟩ := outcomeOf_binaryFieldCommand hi
    exact exec_of_error (ne_sign_of_mem_fieldCommands (mem_fieldCommands_of_binary hi)) hp
      (by rw [hf, fieldPrologue_y1_outOfRange hm ha hb, bind_error])

end Sys2Proof.Machine
end

section
/-! PROOFS. The montgomery_multiplier's internal form (40_field.md R57), in the ring of integers modulo
`m`: its conversions multiply by `R` and by `R^-1`. -/

namespace Sys2Proof.Machine

/-- `montRInv` is the inverse of `R` modulo an odd `m` (log 15). -/
theorem montRInv_mul_montR_zmod {m : Nat} (hodd : m % 2 = 1) :
    (montRInv m : ZMod m) * (montR : ZMod m) = 1 := by
  have htwo : (((m + 1) / 2 : Nat) : ZMod m) * 2 = 1 := by
    have hdouble : (m + 1) / 2 * 2 = m + 1 := by omega
    have hcast := congrArg (Nat.cast : Nat → ZMod m) hdouble
    push_cast at hcast
    rw [hcast, ZMod.natCast_self, zero_add]
  rw [montRInv, modExp_eq _ _ (by omega), ZMod.natCast_mod, montR, Nat.cast_pow, Nat.cast_pow,
    Nat.cast_ofNat, ← mul_pow, htwo, one_pow]

theorem toMont_zmod (a m : Nat) : (toMont a m : ZMod m) = a * montR := by
  rw [toMont, ZMod.natCast_mod, Nat.cast_mul]

theorem montMul_zmod (abar bbar m : Nat) :
    (montMul abar bbar m : ZMod m) = abar * bbar * montRInv m := by
  rw [montMul, ZMod.natCast_mod, Nat.cast_mul, Nat.cast_mul]

theorem fromMont_zmod (abar m : Nat) : (fromMont abar m : ZMod m) = abar * montRInv m := by
  rw [fromMont, montMul_zmod, Nat.cast_one, mul_one]

/-- Settles O58: the two factors `R` of the operands meet the two factors `R^-1` of the product and of the
conversion back. -/
theorem montgomeryFormIsInvisible : Obligations.MontgomeryFormIsInvisible := by
  intro m a b hm hodd _ _
  have hpos : 0 < m := by omega
  have hinv := montRInv_mul_montR_zmod hodd
  refine eq_of_zmod_eq (Nat.mod_lt _ hpos) (Nat.mod_lt _ hpos) ?_
  calc (fromMont (montMul (toMont a m) (toMont b m) m) m : ZMod m)
      = a * b * (montRInv m * montR) ^ 2 := by
        rw [fromMont_zmod, montMul_zmod, toMont_zmod, toMont_zmod]; ring
    _ = (a * b % m : Nat) := by rw [hinv, ZMod.natCast_mod, Nat.cast_mul, one_pow, mul_one]

end Sys2Proof.Machine
end

section
/-! PROOFS. The point commands (41_point.md): the five cases of the group law and its results on the
curve, what PADD does with two valid points, and the errors of the three commands. -/

namespace Sys2Proof.Machine

/-! ### The five cases of the sum (41_point.md R70, R71) -/

@[simp] theorem pointAdd_inf_left (C : Curve) (P : Point) : pointAdd C .inf P = P := rfl

@[simp] theorem pointAdd_inf_right (C : Curve) (P : Point) : pointAdd C P .inf = P := by
  cases P <;> rfl

/-- Case 2, a vertical line. -/
theorem pointAdd_of_y_ne (C : Curve) (x : Nat) {y1 y2 : Nat} (h : y1 ≠ y2) :
    pointAdd C (.aff x y1) (.aff x y2) = .inf :=
  if_pos ⟨rfl, h⟩

/-- Case 3, a chord. -/
theorem pointAdd_of_x_ne (C : Curve) {x1 x2 : Nat} (y1 y2 : Nat) (h : x1 ≠ x2) :
    pointAdd C (.aff x1 y1) (.aff x2 y2) = thirdPoint C.m (chordSlope C.m x1 y1 x2 y2) x1 y1 x2 :=
  (if_neg fun hv => h hv.1).trans (if_pos h)

/-- Cases 4 and 5, a point doubled: a tangent, or for `y = 0` a vertical tangent. -/
theorem pointAdd_self (C : Curve) (x y : Nat) :
    pointAdd C (.aff x y) (.aff x y) =
      if y ≠ 0 then thirdPoint C.m (tangentSlope C.m C.a x y) x y x else .inf :=
  (if_neg fun hv => hv.2 rfl).trans (if_neg fun hx => hx rfl)

/-! ### The formulas on integers (41_point.md R70, 00_scope.md R7) -/

/-- The slope of a chord, with the power of Fermat's inverse written out. -/
theorem chordSlope_cast {m : Nat} (hm : 3 ≤ m) (x1 y1 x2 y2 : Nat) :
    (chordSlope m x1 y1 x2 y2 : Int) =
      ((y2 : Int) - y1) % m * ((((x2 : Int) - x1) % m) ^ (m - 2) % m) % m := by
  rw [chordSlope, fermatInverse_eq _ (by omega)]
  push_cast
  rw [residue_cast _ (by omega), residue_cast _ (by omega)]

/-- The slope of a tangent, with the power of Fermat's inverse written out. -/
theorem tangentSlope_cast {m : Nat} (hm : 3 ≤ m) (a x y : Nat) :
    (tangentSlope m a x y : Int) =
      (3 * (x : Int) * x + a) % m * ((2 * (y : Int) % m) ^ (m - 2) % m) % m := by
  rw [tangentSlope, fermatInverse_eq _ (by omega)]
  push_cast
  rfl

/-- The third point, with its `x3` named once. -/
theorem thirdPoint_eq {m : Nat} (hm : 0 < m) (s x1 y1 x2 : Nat) {x3 : Int}
    (hx3 : x3 = ((s : Int) * s - x1 - x2) % m) :
    thirdPoint m s x1 y1 x2 = .aff x3.toNat (((s : Int) * (x1 - x3) - y1) % m).toNat := by
  rw [thirdPoint, residue_cast _ hm, ← hx3, residue, residue, ← hx3]

/-! ### The sum lies on the curve (41_point.md R72) -/

/-- The line of slope `s` through two points of `y^2 = x^3 + a*x + b`, the tangent where they are one
point, meets the curve again at `x3 = s*s - x1 - x2`: the other two roots of the cubic on the line are
`x1`, by `h1`, and `x2`, by `hroot`. -/
theorem curveEquation_thirdPoint {R : Type} [CommRing R] {a b s x1 y1 x2 y2 x3 : R}
    (h1 : y1 ^ 2 = x1 ^ 3 + a * x1 + b) (hline : s * (x2 - x1) = y2 - y1)
    (hroot : s * (y1 + y2) = x1 ^ 2 + x1 * x2 + x2 ^ 2 + a) (hx3 : x3 = s * s - x1 - x2) :
    (s * (x1 - x3) - y1) ^ 2 = x3 ^ 3 + a * x3 + b := by
  subst hx3
  linear_combination h1 + (s * s - 2 * x1 - x2) * hroot + s * (s * s - 2 * x1 - x2) * hline

/-- The curve equation in the ring of integers modulo `m`. -/
theorem satisfiesCurve_aff_iff (C : Curve) (x y : Nat) :
    SatisfiesCurve C (.aff x y) ↔ (y : ZMod C.m) ^ 2 = (x : ZMod C.m) ^ 3 + C.a * x + C.b := by
  rw [SatisfiesCurve, ← Nat.ModEq, ← ZMod.natCast_eq_natCast_iff]
  push_cast
  rfl

/-- The third point of a line is in range. -/
theorem inRange_thirdPoint {m : Nat} (hm : 0 < m) (s x1 y1 x2 : Nat) :
    (thirdPoint m s x1 y1 x2).InRange m :=
  ⟨residue_lt _ hm, residue_lt _ hm⟩

/-- The third point of a line through two points of the curve is on the curve. -/
theorem satisfiesCurve_thirdPoint {C : Curve} {s x1 y1 x2 y2 : Nat} (hm : 0 < C.m)
    (h1 : SatisfiesCurve C (.aff x1 y1)) (hline : (s : ZMod C.m) * (x2 - x1) = y2 - y1)
    (hroot : (s : ZMod C.m) * (y1 + y2) = x1 ^ 2 + x1 * x2 + x2 ^ 2 + C.a) :
    SatisfiesCurve C (thirdPoint C.m s x1 y1 x2) := by
  have hx3 : ((residue ((s : Int) * s - x1 - x2) C.m : Nat) : ZMod C.m) = s * s - x1 - x2 := by
    rw [residue_zmod _ hm]
    push_cast
    rfl
  rw [thirdPoint, satisfiesCurve_aff_iff, residue_zmod _ hm]
  push_cast
  exact curveEquation_thirdPoint ((satisfiesCurve_aff_iff C x1 y1).mp h1) hline hroot hx3

/-- Under a prime modulus the chord's slope is the quotient of the differences. -/
theorem chordSlope_mul_zmod {m x1 x2 : Nat} (hm : m.Prime) (y1 y2 : Nat)
    (hx : (x2 : ZMod m) - x1 ≠ 0) :
    (chordSlope m x1 y1 x2 y2 : ZMod m) * (x2 - x1) = y2 - y1 := by
  have hcast (u v : Nat) : ((residue ((u : Int) - v) m : Nat) : ZMod m) = u - v := by
    rw [residue_zmod _ hm.pos]
    push_cast
    rfl
  have hinv := fermatInverse_zmod hm (a := residue ((x2 : Int) - x1) m) (by rwa [hcast])
  rw [hcast] at hinv
  rw [chordSlope, ZMod.natCast_mod, Nat.cast_mul, hcast]
  linear_combination ((y2 : ZMod m) - y1) * hinv

/-- Under a prime modulus the tangent's slope is the quotient of the derivatives. -/
theorem tangentSlope_mul_zmod {m y : Nat} (hm : m.Prime) (a x : Nat) (hy : (2 : ZMod m) * y ≠ 0) :
    (tangentSlope m a x y : ZMod m) * (2 * y) = 3 * x * x + a := by
  have hcast : ((2 * y % m : Nat) : ZMod m) = 2 * y := by
    rw [ZMod.natCast_mod]
    push_cast
    rfl
  have hinv := fermatInverse_zmod hm (a := 2 * y % m) (by rwa [hcast])
  rw [hcast] at hinv
  rw [tangentSlope, ZMod.natCast_mod, Nat.cast_mul, ZMod.natCast_mod]
  push_cast
  linear_combination (3 * (x : ZMod m) * x + a) * hinv

section
variable {C : Curve} {x1 y1 x2 y2 : Nat} (hprime : C.m.Prime) (h1 : SatisfiesCurve C (.aff x1 y1))
include hprime h1

/-- Under a prime modulus a chord meets the curve again at a point of the curve. -/
theorem satisfiesCurve_chord (h2 : SatisfiesCurve C (.aff x2 y2)) (hx1 : x1 < C.m) (hx2 : x2 < C.m)
    (hx : x1 ≠ x2) :
    SatisfiesCurve C (thirdPoint C.m (chordSlope C.m x1 y1 x2 y2) x1 y1 x2) := by
  have hfact := Fact.mk hprime
  have hne : (x2 : ZMod C.m) - x1 ≠ 0 := fun h => hx (eq_of_zmod_eq hx1 hx2 (sub_eq_zero.mp h).symm)
  have hline := chordSlope_mul_zmod hprime y1 y2 hne
  have e1 := (satisfiesCurve_aff_iff C x1 y1).mp h1
  have e2 := (satisfiesCurve_aff_iff C x2 y2).mp h2
  refine satisfiesCurve_thirdPoint hprime.pos h1 hline (mul_left_cancel₀ hne ?_)
  linear_combination ((y1 : ZMod C.m) + y2) * hline - e1 + e2

/-- Under an odd prime modulus a tangent meets the curve again at a point of the curve. -/
theorem satisfiesCurve_tangent (hm : 3 ≤ C.m) (hy1 : y1 < C.m) (hy : y1 ≠ 0) :
    SatisfiesCurve C (thirdPoint C.m (tangentSlope C.m C.a x1 y1) x1 y1 x1) := by
  have hfact := Fact.mk hprime
  have htwo : (2 : ZMod C.m) ≠ 0 := by
    simpa using natCast_zmod_ne_zero (m := C.m) (a := 2) (by omega) (by omega)
  have hne : (2 : ZMod C.m) * y1 ≠ 0 :=
    mul_ne_zero htwo (natCast_zmod_ne_zero (Nat.pos_of_ne_zero hy) hy1)
  have hslope := tangentSlope_mul_zmod hprime C.a x1 hne
  refine satisfiesCurve_thirdPoint (y2 := y1) hprime.pos h1 (by simp) ?_
  linear_combination hslope

end

/-- Settles O46: the two cases that compute a point, the chord and the tangent, stay on the curve. -/
theorem pointAddStaysOnCurve : Obligations.PointAddStaysOnCurve := by
  intro C P Q hprime hm hP hQ hcP hcQ
  cases P with
  | inf => exact ⟨hQ, hcQ⟩
  | aff x1 y1 =>
  cases Q with
  | inf => exact ⟨hP, hcP⟩
  | aff x2 y2 =>
  obtain ⟨hx1, hy1⟩ := hP
  obtain ⟨hx2, -⟩ := hQ
  by_cases hx : x1 = x2
  · subst hx
    by_cases hy : y1 = y2
    · subst hy
      rw [pointAdd_self]
      split
      case isTrue h0 =>
        exact ⟨inRange_thirdPoint hprime.pos .., satisfiesCurve_tangent hprime hcP hm hy1 h0⟩
      case isFalse => exact ⟨trivial, trivial⟩
    · rw [pointAdd_of_y_ne C x1 hy]
      exact ⟨trivial, trivial⟩
  · rw [pointAdd_of_x_ne C y1 y2 hx]
    exact ⟨inRange_thirdPoint hprime.pos .., satisfiesCurve_chord hprime hcP hcQ hx1 hx2 hx⟩

/-! ### PADD of two operands in range -/

/-- With a legal curve and both operands in range, PADD checks the first point, then the second, and adds
them (41_point.md R75). -/
theorem paddOutcome_of_operands {cs : CurveSel} {S : Snapshot} {C : Curve} {P Q : Point}
    (hC : IsCurve cs S C) (hP : IsPointOperand S.x.x1 S.x.y1 S.inf1 C P)
    (hQ : IsPointOperand S.x.x2 S.x.y2 S.inf2 C Q) :
    paddOutcome cs S = (do
      checkOnCurve P .X1 C
      checkOnCurve Q .X2 C
      return pointResult (pointAdd C P Q)) := by
  have h1 : firstPoint C S = .ok P := pointOperand_ok hP
  have h2 : secondPoint C S = .ok Q := pointOperand_ok hQ
  rw [paddOutcome, resolveCurve_ok hC, bind_ok, h1, bind_ok, h2, bind_ok]

/-- Settles O43: PADD commits the sum, and each case of the sum is R70's formula on integers. -/
theorem paddWritesSum : Obligations.PaddWritesSum := by
  refine ⟨?completion, fun C P => ⟨pointAdd_inf_left C P, pointAdd_inf_right C P⟩, ?cases⟩
  case completion =>
    intro s p cs C P Q hp hC hP hcP hQ hcQ
    have hout : outcomeOf (.padd cs) p.snap = .ok (pointResult (pointAdd C P Q)) := by
      rw [outcomeOf, paddOutcome_of_operands hC hP hQ, checkOnCurve_ok hcP, bind_ok,
        checkOnCurve_ok hcQ, bind_ok]
      rfl
    rw [exec_of_ok (i := .padd cs) nofun hp hout, commit_pointResult]
  case cases =>
    intro C x1 y1 x2 y2 hm
    have hpos : 0 < C.m := by omega
    refine ⟨?vertical, ?chord, ?tangent, ?verticalTangent⟩
    case vertical =>
      rintro rfl hy
      exact pointAdd_of_y_ne C x1 hy
    case chord =>
      intro hx s x3 hs hx3
      obtain rfl := hs.trans (chordSlope_cast hm x1 y1 x2 y2).symm
      rw [pointAdd_of_x_ne C y1 y2 hx, thirdPoint_eq hpos _ _ _ _ hx3]
    case tangent =>
      intro hy s x3 hs hx3
      obtain rfl := hs.trans (tangentSlope_cast hm C.a x1 y1).symm
      rw [two_mul, ← Int.sub_sub] at hx3
      rw [pointAdd_self, if_pos hy, thirdPoint_eq hpos _ _ _ _ hx3]
    case verticalTangent =>
      intro hy
      rw [pointAdd_self, if_neg (not_not_intro hy)]

/-! ### Errors, in the order of 60_exceptions.md R100 -/

section
variable {S : Snapshot}

/-- The first coordinate out of range (41_point.md R68). -/
theorem pointOperand_x_outOfRange {ix iy : Reg} {inf : Bool} {C : Curve} (hinf : inf = false)
    (hx : C.m ≤ S.val ix) : pointOperand ix iy inf C S = .error ⟨.outOfRange, ix.index⟩ := by
  simp [pointOperand, hinf, Nat.not_lt.mpr hx]

/-- Then the second (41_point.md R68). -/
theorem pointOperand_y_outOfRange {ix iy : Reg} {inf : Bool} {C : Curve} (hinf : inf = false)
    (hx : S.val ix < C.m) (hy : C.m ≤ S.val iy) :
    pointOperand ix iy inf C S = .error ⟨.outOfRange, iy.index⟩ := by
  simp [pointOperand, hinf, hx, Nat.not_lt.mpr hy]

/-- A bad user modulus is found before the coefficients (30_encoding.md R46). -/
theorem resolveCurve_badModulus (h : BadUserModulus S) :
    resolveCurve .user S = .error ⟨.badModulus, 11⟩ := by
  rw [resolveCurve, userModulus_bad h, bind_error]
  rfl

/-- Then CA out of range (30_encoding.md R46). -/
theorem resolveCurve_ca_outOfRange (h : ¬ BadUserModulus S) (ha : S.x.m.toNat ≤ S.x.ca.toNat) :
    resolveCurve .user S = .error ⟨.outOfRange, 12⟩ := by
  obtain ⟨h3, hodd⟩ := not_badUserModulus_iff.mp h
  have hca : ¬ S.val .CA < S.x.m.toNat := Nat.not_lt.mpr ha
  simp [resolveCurve, userModulus_ok h3 hodd, hca, Reg.index]

/-- Then CB out of range (30_encoding.md R46). -/
theorem resolveCurve_cb_outOfRange (h : ¬ BadUserModulus S) (ha : S.x.ca.toNat < S.x.m.toNat)
    (hb : S.x.m.toNat ≤ S.x.cb.toNat) : resolveCurve .user S = .error ⟨.outOfRange, 13⟩ := by
  obtain ⟨h3, hodd⟩ := not_badUserModulus_iff.mp h
  have hca : S.val .CA < S.x.m.toNat := ha
  have hcb : ¬ S.val .CB < S.x.m.toNat := Nat.not_lt.mpr hb
  simp [resolveCurve, userModulus_ok h3 hodd, hca, hcb, Reg.index]

end

/-- Every point command resolves its curve, then reads P1 (41_point.md R74, R75, 42_scalar.md R79). -/
theorem outcomeOf_pointCommand {cs : CurveSel} {i : Instr} (hi : i ∈ pointCommands cs) :
    i ≠ .sign ∧ ∃ f : Snapshot → Curve → Point → Except CmdError Writes,
      ∀ S, outcomeOf i S = resolveCurve cs S >>= fun C => firstPoint C S >>= f S C := by
  simp only [pointCommands, List.mem_cons, List.not_mem_nil, or_false] at hi
  rcases hi with rfl | rfl | rfl <;> exact ⟨nofun, _, fun _ => rfl⟩

section
variable {s : State} {p : Pending} {cs : CurveSel} {C : Curve} {P Q : Point} {e : CmdError}
  (hp : s.pending = some p)
include hp

/-- An error of the curve is the error of every point command. -/
theorem exec_pointCommand_of_curve_error (h : resolveCurve cs p.snap = .error e) :
    ∀ i ∈ pointCommands cs, exec i s = .next (s.erroredWith e.code.number e.info) := by
  intro i hi
  obtain ⟨hne, f, hf⟩ := outcomeOf_pointCommand hi
  exact exec_of_error hne hp (by rw [hf, h, bind_error])

variable (hC : IsCurve cs p.snap C)
include hC

/-- Then an error of P1's coordinates is the error of every point command. -/
theorem exec_pointCommand_of_firstPoint_error (h : firstPoint C p.snap = .error e) :
    ∀ i ∈ pointCommands cs, exec i s = .next (s.erroredWith e.code.number e.info) := by
  intro i hi
  obtain ⟨hne, f, hf⟩ := outcomeOf_pointCommand hi
  exact exec_of_error hne hp (by rw [hf, resolveCurve_ok hC, bind_ok, h, bind_error])

variable (hP : IsPointOperand p.snap.x.x1 p.snap.x.y1 p.snap.inf1 C P)
include hP

/-- Then an error of P2's coordinates is PADD's error. -/
theorem exec_padd_of_secondPoint_error (h : secondPoint C p.snap = .error e) :
    exec (.padd cs) s = .next (s.erroredWith e.code.number e.info) := by
  have h1 : firstPoint C p.snap = .ok P := pointOperand_ok hP
  refine exec_of_error nofun hp ?_
  rw [outcomeOf, paddOutcome, resolveCurve_ok hC, bind_ok, h1, bind_ok, h, bind_error]

/-- PCHK or PMUL of a point off the curve. -/
theorem exec_of_not_satisfiesCurve {i : Instr} (hi : i = .pchk cs ∨ i = .pmul cs)
    (hbad : ¬ SatisfiesCurve C P) : exec i s = .next (s.erroredWith 4#4 0#4) := by
  have h1 : firstPoint C p.snap = .ok P := pointOperand_ok hP
  have hne : i ≠ .sign := by rcases hi with rfl | rfl <;> nofun
  refine exec_of_error (e := ⟨.notOnCurve, Reg.X1.index⟩) hne hp ?_
  rcases hi with rfl | rfl
  · simp only [outcomeOf, pchkOutcome, resolveCurve_ok hC, h1, checkOnCurve_bad hbad, bind_ok,
      bind_error]
  · simp only [outcomeOf, pmulOutcome, resolveCurve_ok hC, h1, checkOnCurve_bad hbad, bind_ok,
      bind_error]

variable (hQ : IsPointOperand p.snap.x.x2 p.snap.x.y2 p.snap.inf2 C Q)
include hQ

/-- PADD with P1 off the curve. -/
theorem exec_padd_of_first_not_satisfiesCurve (hbad : ¬ SatisfiesCurve C P) :
    exec (.padd cs) s = .next (s.erroredWith 4#4 0#4) := by
  refine exec_of_error (e := ⟨.notOnCurve, Reg.X1.index⟩) nofun hp ?_
  rw [outcomeOf, paddOutcome_of_operands hC hP hQ, checkOnCurve_bad hbad, bind_error]

/-- Then PADD with P2 off the curve. -/
theorem exec_padd_of_second_not_satisfiesCurve (hcP : SatisfiesCurve C P)
    (hbad : ¬ SatisfiesCurve C Q) : exec (.padd cs) s = .next (s.erroredWith 4#4 2#4) := by
  refine exec_of_error (e := ⟨.notOnCurve, Reg.X2.index⟩) nofun hp ?_
  rw [outcomeOf, paddOutcome_of_operands hC hP hQ, checkOnCurve_ok hcP, bind_ok,
    checkOnCurve_bad hbad, bind_error]

end

/-- Settles O45: each clause is one failing check, after the checks that come before it. -/
theorem pointErrorsInPriorityOrder : Obligations.PointErrorsInPriorityOrder := by
  intro s p hp
  refine ⟨?badModulus, ?rangeOfCA, ?rangeOfCB, fun cs C hC => ⟨?rangeOfX1, ?rangeOfY1, fun P hP =>
    ⟨?rangeOfX2, ?rangeOfY2, ?curveOfP1, fun Q hQ => ⟨?paddCurveOfP1, ?paddCurveOfP2⟩⟩⟩⟩
  case badModulus =>
    exact fun hbad => exec_pointCommand_of_curve_error hp (resolveCurve_badModulus hbad)
  case rangeOfCA =>
    exact fun hm ha => exec_pointCommand_of_curve_error hp (resolveCurve_ca_outOfRange hm ha)
  case rangeOfCB =>
    exact fun hm ha hb => exec_pointCommand_of_curve_error hp (resolveCurve_cb_outOfRange hm ha hb)
  case rangeOfX1 =>
    exact fun hinf hx =>
      exec_pointCommand_of_firstPoint_error hp hC (pointOperand_x_outOfRange hinf hx)
  case rangeOfY1 =>
    exact fun hinf hx hy =>
      exec_pointCommand_of_firstPoint_error hp hC (pointOperand_y_outOfRange hinf hx hy)
  case rangeOfX2 =>
    exact fun hinf hx =>
      exec_padd_of_secondPoint_error hp hC hP (pointOperand_x_outOfRange hinf hx)
  case rangeOfY2 =>
    exact fun hinf hx hy =>
      exec_padd_of_secondPoint_error hp hC hP (pointOperand_y_outOfRange hinf hx hy)
  case curveOfP1 =>
    exact fun hbad => ⟨exec_of_not_satisfiesCurve hp hC hP (.inl rfl) hbad,
      exec_of_not_satisfiesCurve hp hC hP (.inr rfl) hbad⟩
  case paddCurveOfP1 => exact exec_padd_of_first_not_satisfiesCurve hp hC hP hQ
  case paddCurveOfP2 => exact exec_padd_of_second_not_satisfiesCurve hp hC hP hQ

end Sys2Proof.Machine
end

section
/-! PROOFS. Scalar multiplication (42_scalar.md): the loop as the reference sequence, PMUL of a valid point,
and multiples on secp256k1 as repeated sums. -/

namespace Sys2Proof.Machine

/-! ### The reference sequence (42_scalar.md R76) -/

/-- With fuel for every bit of `k` the loop is the reference sequence from its accumulator and current
point. -/
theorem referenceRun_scalarMulLoop (C : Curve) (fuel : Nat) :
    ∀ (acc cur : Point) (k : Nat), k < 2 ^ fuel →
      ReferenceRun C k acc cur (scalarMulLoop C fuel acc cur k) := by
  induction fuel with
  | zero =>
    intro acc cur k hk
    obtain rfl : k = 0 := by simpa using hk
    exact .stop acc cur
  | succ fuel ih =>
    intro acc cur k hk
    rw [scalarMulLoop]
    split
    case isTrue h0 =>
      subst h0
      exact .stop acc cur
    case isFalse h0 =>
      exact .round k acc cur _ (Nat.pos_of_ne_zero h0) (ih _ _ _ (by omega))

/-- Settles O47: the fuel of `scalarMul`, the bit length of `k`, is enough. -/
theorem scalarMulIsTheReferenceSequence : Obligations.ScalarMulIsTheReferenceSequence :=
  fun C P k => referenceRun_scalarMulLoop C (k.log2 + 1) .inf P k Nat.lt_log2_self

/-! ### PMUL (42_scalar.md R78, R79) -/

/-- Settles O44: the curve and the point pass their checks, and the multiple is committed. -/
theorem pmulWritesMultiple : Obligations.PmulWritesMultiple := by
  intro s p cs C P hp hC hP hcP k hk
  obtain rfl : k = scalarOf cs p.snap := by cases cs <;> exact hk
  have h1 : firstPoint C p.snap = .ok P := pointOperand_ok hP
  have hout : outcomeOf (.pmul cs) p.snap =
      .ok (pointResult (scalarMul C P (scalarOf cs p.snap))) := by
    rw [outcomeOf, pmulOutcome, resolveCurve_ok hC, bind_ok, h1, bind_ok, checkOnCurve_ok hcP, bind_ok]
    rfl
  rw [exec_of_ok (i := .pmul cs) nofun hp hout, commit_pointResult]

/-! ### Multiples on secp256k1 (42_scalar.md R77, R79) -/

section
variable [Fact (Nat.Prime Config.secpP)] {P : Point} {A : secpW.Point}

/-- Adding a point `k` times to `Inf` is the group's multiple. -/
theorem IsPt.iterate_pointAdd (h : IsPt P A) (k : Nat) :
    IsPt (Nat.iterate (pointAdd secp P) k .inf) (k • A) := by
  induction k with
  | zero => rw [zero_nsmul]; exact .inf
  | succ k ih => rw [Function.iterate_succ_apply', succ_nsmul']; exact h.add ih

/-- A group element other than zero is an affine point with coordinates in range. -/
theorem IsPt.exists_aff (h : IsPt P A) (hA : A ≠ 0) :
    ∃ x y, P = .aff x y ∧ x < Config.secpP ∧ y < Config.secpP := by
  cases h with
  | inf => exact absurd rfl hA
  | aff x y _ hx hy => exact ⟨x, y, rfl, hx, hy⟩

end

/-- On secp256k1 the doubling loop and the repeated sum are the same multiple in the group. -/
theorem scalarMul_secp_eq_iterate {P : Point} (hr : P.InRange Config.secpP)
    (hc : SatisfiesCurve secp P) (k : Nat) :
    scalarMul secp P k = Nat.iterate (pointAdd secp P) k .inf := by
  have hfact := Fact.mk secpP_prime
  obtain ⟨A, hA⟩ := exists_isPt hr hc
  exact (hA.scalarMul k).unique (hA.iterate_pointAdd k)

/-- A multiple of G below its order `SECP_N` is affine: it is not the group's zero. -/
theorem exists_aff_scalarMul_generator {k : Nat} (h1 : 1 ≤ k) (hN : k < Config.secpN) :
    ∃ x y, scalarMul secp generator k = .aff x y ∧ x < Config.secpP ∧ y < Config.secpP := by
  have hfact := Fact.mk secpP_prime
  obtain ⟨A, hA, hord⟩ := exists_generator
  have hne : k • A ≠ 0 :=
    nsmul_ne_zero_of_lt_addOrderOf (Nat.one_le_iff_ne_zero.mp h1) (by rwa [hord])
  exact (hA.scalarMul k).exists_aff hne

/-- Settles O48: both clauses in the group of secp256k1, where G has order `SECP_N`. -/
theorem multiplesOnSecpAreRepeatedSums : Obligations.MultiplesOnSecpAreRepeatedSums :=
  ⟨fun _ k hr hc => scalarMul_secp_eq_iterate hr hc k,
    fun _ h1 hN => exists_aff_scalarMul_generator h1 hN⟩

end Sys2Proof.Machine
end

section
/-! PROOFS. KEYLD and SIGN (43_ecdsa.md R80 to R84): the public point and the signature they commit, the
bounds of that signature, and the wait for the RNG. -/

namespace Sys2Proof.Machine

/-- A number that fits a register reads back from it (00_scope.md R7). -/
theorem toNat_toReg {n : Nat} (h : n < 2 ^ 256) : (toReg n).toNat = n :=
  (BitVec.toNat_ofNat n 256).trans (Nat.mod_eq_of_lt h)

/-! ### KEYLD (43_ecdsa.md R80) -/

/-- Settles O49: the secret passes its check, and its public point is committed. -/
theorem keyldLoadsThePublicPoint : Obligations.KeyldLoadsThePublicPoint := by
  intro s p hp h1 hN
  have hrange : keyInRange (p.snap.val .KEY) = true := (keyInRange_iff _).mpr ⟨h1, hN⟩
  have hout : outcomeOf .keyld p.snap =
      .ok { regs := [(.PUBX, toReg (publicPoint (p.snap.val .KEY)).xCoord),
                     (.PUBY, toReg (publicPoint (p.snap.val .KEY)).yCoord)]
            keyv := some true } := by
    rw [outcomeOf, keyldOutcome, hrange, require_true, bind_ok]
    rfl
  rw [exec_of_ok (i := .keyld) nofun hp hout]
  rfl

/-! ### Low-s normalization (43_ecdsa.md R84) -/

/-- A normalized `s` is at most `SECP_N div 2`. -/
theorem lowS_le {s : Nat} (hN : s < Config.secpN) : lowS s ≤ Config.secpN / 2 := by
  unfold lowS
  split <;> omega

/-- A normalized `s` is still below `SECP_N`. -/
theorem lowS_lt {s : Nat} (hN : s < Config.secpN) : lowS s < Config.secpN :=
  (lowS_le hN).trans_lt (by decide)

/-- Normalization keeps `s` nonzero. -/
theorem lowS_pos {s : Nat} (h0 : 0 < s) (hN : s < Config.secpN) : 0 < lowS s := by
  unfold lowS
  split <;> omega

/-- Normalization changes at most the sign modulo `SECP_N`. -/
theorem lowS_zmod {s : Nat} (hN : s < Config.secpN) :
    (lowS s : ZMod Config.secpN) = s ∨ (lowS s : ZMod Config.secpN) = -s := by
  unfold lowS
  split
  · right
    rw [Nat.cast_sub hN.le, ZMod.natCast_self, zero_sub]
  · exact .inl rfl

theorem nonceR_lt (k : Nat) : nonceR k < Config.secpN := Nat.mod_lt _ (by decide)

theorem nonceS_lt (d z k : Nat) : nonceS d z k < Config.secpN := Nat.mod_lt _ (by decide)

/-! ### The signing loop (43_ecdsa.md R81, R83) -/

section
variable {d z : Nat}

/-- A signature the search finds is that of a usable word. -/
theorem exists_usableNonce_of_signSearch {rs : Nat × Nat} {rest : List U256} (l : List U256)
    (h : signSearch d z l = some (rs, rest)) :
    ∃ w, UsableNonce d z w ∧ rs = (nonceR w.toNat, lowS (nonceS d z w.toNat)) := by
  induction l with
  | nil => cases h
  | cons w l ih =>
    by_cases hw : UsableNonce d z w
    · rw [signSearch_of_usable hw] at h
      cases h
      exact ⟨w, hw, rfl⟩
    · rw [signSearch_of_not_usable hw] at h
      exact ih h

/-- The search fails on words none of which is usable. -/
theorem signSearch_eq_none (l : List U256) (h : ∀ u ∈ l, ¬ UsableNonce d z u) :
    signSearch d z l = none := by
  rw [← List.append_nil l, signSearch_append l [] h]
  rfl

end

/-! ### SIGN (43_ecdsa.md R82) -/

section
variable {s : State} {p : Pending} (hp : s.pending = some p)
include hp

/-- SIGN with a command pending is the signing unit's completion. -/
theorem exec_sign_pending : exec .sign s = .next (signComplete p.snap s) := by
  rw [exec, execSign, hp]

/-- SIGN without a loaded key (43_ecdsa.md R82). -/
theorem exec_sign_of_no_key (hk : p.snap.keyv = false) :
    exec .sign s = .next (s.erroredWith 8#4 6#4) := by
  rw [exec_sign_pending hp, signComplete, hk]
  rfl

variable (hk : p.snap.keyv = true)
include hk

/-- SIGN commits the signature its search finds and leaves the words after it. -/
theorem exec_sign_of_found {rs : Nat × Nat} {rest : List U256}
    (h : signSearch p.snap.x.key.toNat p.snap.x.z.toNat s.rng = some (rs, rest)) :
    exec .sign s = .next ({ s with rng := rest }.completedWith
      { s.x with sr := toReg rs.1, ss := toReg rs.2 }) := by
  have hs : signSearch (p.snap.val .KEY) (p.snap.val .Z) s.rng = some (rs, rest) := h
  simp only [exec_sign_pending hp, signComplete, hk, if_true, hs]
  rfl

/-- SIGN waits when its search fails. -/
theorem exec_sign_of_not_found
    (h : signSearch p.snap.x.key.toNat p.snap.x.z.toNat s.rng = none) :
    exec .sign s = .next { s with rng := [] } := by
  have hs : signSearch (p.snap.val .KEY) (p.snap.val .Z) s.rng = none := h
  simp only [exec_sign_pending hp, signComplete, hk, if_true, hs]

/-- A SIGN that completes has committed the signature of a usable word. -/
theorem exists_usableNonce_of_exec_sign {t : State} (e : exec .sign s = .next t)
    (ht : t.pending = none) :
    ∃ w, UsableNonce p.snap.x.key.toNat p.snap.x.z.toNat w ∧
      t.x.sr.toNat = nonceR w.toNat ∧
      t.x.ss.toNat = lowS (nonceS p.snap.x.key.toNat p.snap.x.z.toNat w.toNat) := by
  cases hs : signSearch p.snap.x.key.toNat p.snap.x.z.toNat s.rng with
  | none =>
    rw [exec_sign_of_not_found hp hk hs] at e
    cases e
    rw [show s.pending = none from ht] at hp
    cases hp
  | some found =>
    obtain ⟨rs, rest⟩ := found
    obtain ⟨w, hw, rfl⟩ := exists_usableNonce_of_signSearch _ hs
    rw [exec_sign_of_found hp hk hs] at e
    cases e
    exact ⟨w, hw, toNat_toReg ((nonceR_lt _).trans (by decide)),
      toNat_toReg ((lowS_lt (nonceS_lt ..)).trans (by decide))⟩

end

/-- Settles O50: the words before the first usable one are discarded, and its signature is committed. -/
theorem signCommitsFirstUsableNonce : Obligations.SignCommitsFirstUsableNonce := by
  rintro s p pre rest w d z hp hk rfl rfl hrng hpre hw
  refine exec_sign_of_found
    (rs := (nonceR w.toNat, lowS (nonceS p.snap.x.key.toNat p.snap.x.z.toNat w.toNat))) hp hk ?_
  rw [hrng, signSearch_append pre _ hpre, signSearch_of_usable hw]

/-- Settles O51: the search fails. -/
theorem signWaitsForTheRng : Obligations.SignWaitsForTheRng :=
  fun s _ hp hk h => exec_sign_of_not_found hp hk (signSearch_eq_none s.rng h)

/-- Settles O52: the signature is that of a usable word, so `r` and `s` are nonzero residues modulo
`SECP_N`, and `s` is normalized. -/
theorem committedSignatureIsInRange : Obligations.CommittedSignatureIsInRange := by
  intro s t p hp hk e ht
  obtain ⟨w, ⟨-, -, hr, hs⟩, hsr, hss⟩ := exists_usableNonce_of_exec_sign hp hk e ht
  rw [hsr, hss]
  exact ⟨Nat.pos_of_ne_zero hr, Nat.le_pred_of_lt (nonceR_lt _),
    lowS_pos (Nat.pos_of_ne_zero hs) (nonceS_lt ..), lowS_le (nonceS_lt ..)⟩

end Sys2Proof.Machine
end

section
/-! PROOFS. VERIFY (43_ecdsa.md R86 to R88): the verdict, the round trip of a signature, and the errors of
the ECDSA commands. -/

namespace Sys2Proof.Machine

/-! ### The verdict (43_ecdsa.md R86) -/

/-- The verdict is 1 exactly for a valid signature. -/
theorem verdict_iff (Q : Point) (z r s : Nat) : verdict Q z r s = true ↔ ValidSignature Q z r s := by
  have hinv : fermatInverse s Config.secpN = s ^ (Config.secpN - 2) % Config.secpN :=
    fermatInverse_eq s secpN_prime.two_le
  unfold verdict ValidSignature
  rw [hinv]
  by_cases hrange : (sigInRange r && sigInRange s) = true
  case neg =>
    rw [if_neg hrange]
    rw [Bool.and_eq_true, sigInRange_iff, sigInRange_iff] at hrange
    exact ⟨nofun, fun ⟨hr, hs, _⟩ => absurd ⟨hr, hs⟩ hrange⟩
  case pos =>
    rw [if_pos hrange]
    rw [Bool.and_eq_true, sigInRange_iff, sigInRange_iff] at hrange
    obtain ⟨hr, hs⟩ := hrange
    simp only [hr, hs, and_self, true_and]
    generalize pointAdd secp _ _ = T
    cases T <;> simp

/-- VERIFY of a point operand on the curve completes with the verdict alone. -/
theorem exec_verify_of_satisfiesCurve {s : State} {p : Pending} {Q : Point} (hp : s.pending = some p)
    (hQ : IsPointOperand p.snap.x.x1 p.snap.x.y1 p.snap.inf1 secp Q) (hc : SatisfiesCurve secp Q) :
    exec .verify s = .next
      { s with
        status :=
          { s.status with
            valid := verdict Q p.snap.x.z.toNat p.snap.x.sr.toNat p.snap.x.ss.toNat
            busy := false, done := true }
        pending := none } := by
  have h1 : firstPoint secp p.snap = .ok Q := pointOperand_ok hQ
  have hout : outcomeOf .verify p.snap =
      .ok { valid := some (verdict Q p.snap.x.z.toNat p.snap.x.sr.toNat p.snap.x.ss.toNat) } := by
    rw [outcomeOf, verifyOutcome, h1, bind_ok, checkOnCurve_ok hc, bind_ok]
    rfl
  generalize verdict Q p.snap.x.z.toNat p.snap.x.sr.toNat p.snap.x.ss.toNat = b at hout ⊢
  rw [exec_of_ok (i := .verify) nofun hp hout]
  rfl

/-- Settles O53: the verdict is committed. -/
theorem verifyCommitsTheVerdict : Obligations.VerifyCommitsTheVerdict :=
  fun _ _ _ hp hQ hc => ⟨_, exec_verify_of_satisfiesCurve hp hQ hc, verdict_iff _ _ _ _⟩

/-! ### The scalars of the round trip (43_ecdsa.md R88) -/

/-- With `s*k = z + r*d` and `w` the inverse of `s` or of `-s`, the scalar `z*w + r*w*d` that VERIFY
multiplies G by is `k` or `-k`. -/
theorem verifyScalar_eq_or_neg {F : Type} [CommRing F] {d z k r s s' w : F} (hs : s * k = z + r * d)
    (hsign : s' = s ∨ s' = -s) (hw : w * s' = 1) : z * w + r * w * d = k ∨ z * w + r * w * d = -k := by
  rcases hsign with rfl | rfl
  · left; linear_combination k * hw - w * hs
  · right; linear_combination -k * hw - w * hs

/-- A nonce's `s` solves `s*k = z + r*d` modulo `SECP_N`. -/
theorem nonceS_mul_zmod (d z : Nat) {k : Nat} (h0 : 0 < k) (hN : k < Config.secpN) :
    (nonceS d z k : ZMod Config.secpN) * k = z + nonceR k * d := by
  have hinv := fermatInverse_zmod secpN_prime (natCast_zmod_ne_zero h0 hN)
  rw [nonceS, ← fermatInverse_eq k secpN_prime.two_le, ZMod.natCast_mod]
  push_cast
  linear_combination ((z : ZMod Config.secpN) + nonceR k * d) * hinv

/-- The scalar by which VERIFY's sum multiplies G, with the public point of `d` written as `d*G`, is the
nonce up to sign modulo `SECP_N`. -/
theorem verifyScalar_zmod (d z : Nat) {k w n : Nat} (h0 : 0 < k) (hN : k < Config.secpN)
    (hs : 0 < nonceS d z k) (hw : w = fermatInverse (lowS (nonceS d z k)) Config.secpN)
    (hn : n = z * w % Config.secpN + nonceR k * w % Config.secpN * d) :
    (n : ZMod Config.secpN) = k ∨ (n : ZMod Config.secpN) = -k := by
  have hS := nonceS_lt d z k
  have hinv := fermatInverse_zmod secpN_prime
    (natCast_zmod_ne_zero (lowS_pos hs hS) (lowS_lt hS))
  rw [← hw] at hinv
  simpa [hn] using verifyScalar_eq_or_neg (nonceS_mul_zmod d z h0 hN) (lowS_zmod hS) hinv

/-- Scalars that agree up to sign modulo the order of a group element give multiples that agree up to
sign. -/
theorem nsmul_eq_or_neg {G : Type} [AddGroup G] {A : G} {N n k : Nat} (hord : addOrderOf A = N)
    (h : (n : ZMod N) = k ∨ (n : ZMod N) = -k) : n • A = k • A ∨ n • A = -(k • A) := by
  subst hord
  rcases h with h | h
  · exact .inl (nsmul_eq_nsmul_iff_modEq.mpr ((ZMod.natCast_eq_natCast_iff _ _ _).mp h))
  · refine .inr (eq_neg_of_add_eq_zero_left ?_)
    rw [← add_nsmul, ← addOrderOf_dvd_iff_nsmul_eq_zero, ← ZMod.natCast_eq_zero_iff, Nat.cast_add, h,
      neg_add_cancel]

/-! ### The points of the round trip -/

section
variable [Fact (Nat.Prime Config.secpP)]

/-- A group element is a point of the curve. -/
theorem IsPt.satisfiesCurve {P : Point} {A : secpW.Point} (h : IsPt P A) : SatisfiesCurve secp P := by
  cases h with
  | inf => trivial
  | aff x y h _ _ =>
    have heq := (secpW_equation _ _).mp h.1
    refine (ZMod.natCast_eq_natCast_iff' (y ^ 2) (x ^ 3 + 0 * x + 7) Config.secpP).mp ?_
    push_cast
    linear_combination heq

/-- A point that is an affine point up to sign has its x coordinate. -/
theorem IsPt.exists_aff_of_eq_or_neg {x y : Nat} {Q : Point} {A B : secpW.Point}
    (hP : IsPt (.aff x y) A) (hQ : IsPt Q B) (h : B = A ∨ B = -A) : ∃ y', Q = .aff x y' := by
  rcases h with rfl | rfl
  · exact ⟨y, hQ.unique hP⟩
  · cases Q with
    | inf => exact absurd (hP.eq_zero_iff.mp (neg_eq_zero.mp (hQ.eq_zero_iff.mpr rfl))) nofun
    | aff x' y' => exact ⟨y', by rw [hP.x_eq_of_neg hQ]⟩

/-- The sum VERIFY computes under the public point of `d` is one multiple of G. -/
theorem IsPt.verifySum {A : secpW.Point} (hA : IsPt generator A) (d u v : Nat) :
    IsPt (pointAdd secp (Machine.scalarMul secp generator u)
      (Machine.scalarMul secp (Machine.scalarMul secp generator d) v)) ((u + v * d) • A) := by
  rw [add_nsmul, mul_nsmul']
  exact (hA.scalarMul u).add ((hA.scalarMul d).scalarMul v)

end

/-- The signature of a usable word is valid under the public point of its key: VERIFY's sum is the nonce
point up to sign. -/
theorem validSignature_of_usableNonce {d z : Nat} {w : U256} (h : UsableNonce d z w) :
    ValidSignature (scalarMul secp generator d) z (nonceR w.toNat) (lowS (nonceS d z w.toNat)) := by
  have hfact := Fact.mk secpP_prime
  obtain ⟨h1, h2, hr, hs⟩ := h
  have hN : w.toNat < Config.secpN := by omega
  have hS := nonceS_lt d z w.toNat
  have hs0 := Nat.pos_of_ne_zero hs
  obtain ⟨A, hA, hord⟩ := exists_generator
  obtain ⟨x, y, hxy, -, -⟩ := exists_aff_scalarMul_generator h1 hN
  have hR : IsPt (.aff x y) (w.toNat • A) := hxy ▸ hA.scalarMul w.toNat
  have hmultiple := nsmul_eq_or_neg hord (verifyScalar_zmod d z h1 hN hs0 rfl rfl)
  obtain ⟨y', hT⟩ := hR.exists_aff_of_eq_or_neg (hA.verifySum ..) hmultiple
  rw [fermatInverse_eq _ secpN_prime.two_le] at hT
  refine ⟨⟨Nat.pos_of_ne_zero hr, Nat.le_pred_of_lt (nonceR_lt _)⟩,
    ⟨lowS_pos hs0 hS, Nat.le_pred_of_lt (lowS_lt hS)⟩, x, y', hT, ?_⟩
  rw [nonceR, hxy]
  rfl

/-- The public point of a loaded key, read as VERIFY's operand (43_ecdsa.md R80, R88). -/
theorem RegFile.KeyLoaded.isPointOperand {x : RegFile} (h : x.KeyLoaded) :
    IsPointOperand x.pubx x.puby false secp (scalarMul secp generator x.key.toNat) := by
  obtain ⟨h1, hN, hx, hy⟩ := h
  obtain ⟨a, b, hab, ha, hb⟩ := exists_aff_scalarMul_generator h1 hN
  rw [hab] at hx hy ⊢
  have ea : x.pubx.toNat = a := by rw [hx]; exact toNat_toReg (ha.trans (by decide))
  have eb : x.puby.toNat = b := by rw [hy]; exact toNat_toReg (hb.trans (by decide))
  rw [IsPointOperand, ea, eb]
  exact .inr ⟨rfl, rfl, ha, hb⟩

/-- Every multiple of G is on the curve. -/
theorem satisfiesCurve_scalarMul_generator (k : Nat) :
    SatisfiesCurve secp (scalarMul secp generator k) := by
  have hfact := Fact.mk secpP_prime
  obtain ⟨A, hA, -⟩ := exists_generator
  exact (hA.scalarMul k).satisfiesCurve

/-- Settles O54: VERIFY's point is the public point of the key, and the committed signature, that of a
usable word, is valid under it. -/
theorem signedMessageVerifies : Obligations.SignedMessageVerifies := by
  intro s t v p q hp hk hload e ht hq hinf hx hy hz hsr hss
  obtain ⟨w, hw, er, es⟩ := exists_usableNonce_of_exec_sign hp hk e ht
  have hpub : IsPointOperand q.snap.x.x1 q.snap.x.y1 q.snap.inf1 secp
      (scalarMul secp generator p.snap.x.key.toNat) := by
    rw [hx, hy, hinf]
    exact hload.isPointOperand
  rw [exec_verify_of_satisfiesCurve hq hpub (satisfiesCurve_scalarMul_generator _), hz, hsr, hss, er, es,
    (verdict_iff _ _ _ _).mpr (validSignature_of_usableNonce hw)]

/-! ### Errors (43_ecdsa.md R80, R82, R86) -/

/-- KEYLD of a secret out of range. -/
theorem keyldOutcome_outOfRange {S : Snapshot}
    (h : S.x.key.toNat = 0 ∨ Config.secpN ≤ S.x.key.toNat) :
    keyldOutcome S = .error ⟨.outOfRange, Reg.KEY.index⟩ := by
  have hrange : keyInRange (S.val .KEY) = false := by
    rw [← Bool.not_eq_true, keyInRange_iff]
    rintro ⟨h1, hN⟩
    exact h.elim (Nat.ne_of_gt h1) (Nat.not_le.mpr hN)
  rw [keyldOutcome, hrange, require_false, bind_error]

/-- VERIFY of coordinates out of range. -/
theorem verifyOutcome_of_firstPoint_error {S : Snapshot} {e : CmdError}
    (h : firstPoint secp S = .error e) : verifyOutcome S = .error e := by
  rw [verifyOutcome, h, bind_error]

/-- VERIFY of a point off the curve. -/
theorem verifyOutcome_of_not_satisfiesCurve {S : Snapshot} {Q : Point}
    (hQ : IsPointOperand S.x.x1 S.x.y1 S.inf1 secp Q) (hbad : ¬ SatisfiesCurve secp Q) :
    verifyOutcome S = .error ⟨.notOnCurve, Reg.X1.index⟩ := by
  have h1 : firstPoint secp S = .ok Q := pointOperand_ok hQ
  rw [verifyOutcome, h1, bind_ok, checkOnCurve_bad hbad, bind_error]

/-- Settles O55: each clause is the check that fails. -/
theorem ecdsaErrors : Obligations.EcdsaErrors := by
  intro s p hp
  refine ⟨?keyRange, exec_sign_of_no_key hp, ?rangeOfX1, ?rangeOfY1, ?curve⟩
  case keyRange =>
    exact fun h => exec_of_error (i := .keyld) nofun hp (keyldOutcome_outOfRange h)
  case rangeOfX1 =>
    exact fun hinf hx => exec_of_error (i := .verify) nofun hp
      (verifyOutcome_of_firstPoint_error (pointOperand_x_outOfRange hinf hx))
  case rangeOfY1 =>
    exact fun hinf hx hy => exec_of_error (i := .verify) nofun hp
      (verifyOutcome_of_firstPoint_error (pointOperand_y_outOfRange hinf hx hy))
  case curve =>
    exact fun Q hQ hbad => exec_of_error (i := .verify) nofun hp
      (verifyOutcome_of_not_satisfiesCurve hQ hbad)

end Sys2Proof.Machine
end

section
/-! PROOFS. The message representative's words as bytes of the digest (43_ecdsa.md R89). -/

namespace Sys2Proof.Machine

/-- A word of a register as a number (20_memory.md R31). -/
theorem toNat_getWord (x : U256) (j : Fin 8) :
    (getWord x j).toNat = x.toNat / 256 ^ (4 * j.val) % 2 ^ 32 := by
  have hpow : 2 ^ (32 * j.val) = 256 ^ (4 * j.val) := by
    rw [show 32 * j.val = 8 * (4 * j.val) by omega, pow_mul]
    rfl
  rw [getWord, BitVec.extractLsb'_toNat, Nat.shiftRight_eq_div_pow, hpow]

/-- The low 32 bits of a number as its four base-256 digits. -/
theorem mod_two_pow_32_eq_bytes (n : Nat) :
    n % 2 ^ 32 =
      2 ^ 8 * (2 ^ 8 * (2 ^ 8 * (n / 256 ^ 3 % 256) + n / 256 ^ 2 % 256) + n / 256 % 256) + n % 256 := by
  omega

/-- Byte `i` of a digest is a base-256 digit of the digest's integer. -/
theorem toNat_digest_byte (b : Vector Byte 32) {m i : Nat} (h : i = 31 - m) (hm : m < 32) :
    digestInteger b / 256 ^ m % 256 = (b[i]'(by omega)).toNat := by
  subst h
  exact digestInteger_byte b hm

/-- Settles O59: word `j` is the digits `4*j` to `4*j + 3` of the digest's integer. -/
theorem digestWordsAreBigEndian : Obligations.DigestWordsAreBigEndian := by
  intro b j
  have hj := j.isLt
  have hZ : (digestToZ b).toNat = digestInteger b := toNat_toReg (digestInteger_lt b)
  apply BitVec.eq_of_toNat_eq
  simp only [toNat_append_eq_add]
  rw [toNat_getWord, hZ, mod_two_pow_32_eq_bytes, Nat.div_div_eq_div_mul, Nat.div_div_eq_div_mul,
    Nat.div_div_eq_div_mul, ← pow_add, ← pow_add, ← pow_succ,
    toNat_digest_byte b (i := 28 - 4 * j.val) (by omega) (by omega),
    toNat_digest_byte b (i := 29 - 4 * j.val) (by omega) (by omega),
    toNat_digest_byte b (i := 30 - 4 * j.val) (by omega) (by omega),
    toNat_digest_byte b (i := 31 - 4 * j.val) (by omega) (by omega)]

end Sys2Proof.Machine
end

section
/-! PROOFS. The control operations (44_control.md): the commands that write nothing, and the host writes to
CTRL, PFLAGS and STATUS. -/

namespace Sys2Proof.Machine

/-! ### Commands that write nothing (44_control.md R90, 40_field.md R67, 41_point.md R74) -/

/-- A command whose outcome writes nothing completes, and changes no register. -/
theorem exec_of_noWrites {i : Instr} {s : State} {p : Pending} (hi : i ≠ .sign)
    (hp : s.pending = some p) (h : outcomeOf i p.snap = .ok noWrites) :
    exec i s = .next (s.completedWith s.x) :=
  exec_of_ok hi hp h

/-- FCHK of an operand in range passes (40_field.md R67). -/
theorem fchkOutcome_ok {ms : BitVec 2} {S : Snapshot} {m : Nat} (hm : IsModulus ms S m)
    (ha : S.x.x1.toNat < m) : fchkOutcome ms S = .ok noWrites := by
  rw [fchkOutcome, fieldPrologue_unary hm ha, bind_ok]
  rfl

/-- PCHK of a valid point passes (41_point.md R74). -/
theorem pchkOutcome_ok {cs : CurveSel} {S : Snapshot} {C : Curve} {P : Point} (hC : IsCurve cs S C)
    (hP : IsPointOperand S.x.x1 S.x.y1 S.inf1 C P) (hc : SatisfiesCurve C P) :
    pchkOutcome cs S = .ok noWrites := by
  have h1 : firstPoint C S = .ok P := pointOperand_ok hP
  rw [pchkOutcome, resolveCurve_ok hC, bind_ok, h1, bind_ok, checkOnCurve_ok hc, bind_ok]
  rfl

/-- Settles O34: NOP by definition, the checks because every one of their conditions holds. -/
theorem nopAndPassedChecksWriteNothing : Obligations.NopAndPassedChecksWriteNothing :=
  ⟨fun _ _ hp => exec_of_noWrites nofun hp rfl,
    fun _ _ _ _ hp hm ha => exec_of_noWrites nofun hp (fchkOutcome_ok hm ha),
    fun _ _ _ _ _ hp hC hP hc => exec_of_noWrites nofun hp (pchkOutcome_ok hC hP hc)⟩

/-! ### Writes to CTRL (44_control.md R91 to R93) -/

/-- SRST acts alone, whatever the other bits (44_control.md R91). -/
theorem writeCtrl_of_srst {v : Word} (s : State) (h : v[1] = true) : writeCtrl v s = resetState s :=
  if_pos h

/-- KEYCLR without SRST is dropped by a busy block (44_control.md R92). -/
theorem writeCtrl_of_keyclr_busy {v : Word} {s : State} (hsrst : v[1] = false) (hkey : v[2] = true)
    (hb : s.status.busy = true) : writeCtrl v s = dropWrite s := by
  rw [writeCtrl, if_neg (by simp [hsrst]), if_pos hkey, if_pos hb]

/-- KEYCLR without SRST clears the key of an idle block and sets IE (44_control.md R92). -/
theorem writeCtrl_of_keyclr_idle {v : Word} {s : State} (hsrst : v[1] = false) (hkey : v[2] = true)
    (hb : s.status.busy = false) :
    writeCtrl v s =
      { s with
        x := s.x.set .KEY 0, status := { s.status with keyv := false }, ctrl := ⟨v[0]⟩ } := by
  rw [writeCtrl, if_neg (by simp [hsrst]), if_pos hkey, if_neg (by simp [hb])]

/-- Without SRST and KEYCLR a write sets IE, busy or not (44_control.md R93). -/
theorem writeCtrl_of_plain {v : Word} (s : State) (hsrst : v[1] = false) (hkey : v[2] = false) :
    writeCtrl v s = { s with ctrl := ⟨v[0]⟩ } := by
  rw [writeCtrl, if_neg (by simp [hsrst]), if_neg (by simp [hkey])]

/-- A write at CTRL's offset is a CTRL write (20_memory.md R30). -/
theorem busAccess_ctrlWrite {s : State} (v : Word) (hr : s.rstLow = false) :
    busAccess (wordWrite 0x00C#10 v) s = { writeCtrl v s with response := some ⟨false, none⟩ } :=
  busAccess_wordWrite v rfl hr

/-- Settles O23: the reset values, field by field, are those of `State.reset`. -/
theorem softResetClearsTheBlock : Obligations.SoftResetClearsTheBlock := by
  intro s v hr hsrst
  rw [busAccess_ctrlWrite v hr, writeCtrl_of_srst s hsrst]
  rfl

/-- Settles O24: the busy and the idle case of KEYCLR. -/
theorem keyClearWrite : Obligations.KeyClearWrite := by
  intro s v hr hkey hsrst
  rw [busAccess_ctrlWrite v hr]
  constructor
  · intro hb
    rw [writeCtrl_of_keyclr_busy hsrst hkey hb]
    rfl
  · intro hb
    rw [writeCtrl_of_keyclr_idle hsrst hkey hb]
    rfl

/-! ### Writes to PFLAGS and STATUS (10_state.md R25, 44_control.md R94) -/

/-- A write at PFLAGS' offset sets INF1 and INF2 (10_state.md R25). -/
theorem busAccess_pflagsWrite {s : State} (v : Word) (hr : s.rstLow = false) :
    busAccess (wordWrite 0x010#10 v) s =
      { s with pflags := s.pflags.hostWrite v, response := some ⟨false, none⟩ } :=
  busAccess_wordWrite v rfl hr

/-- A write at STATUS' offset acknowledges (44_control.md R94). -/
theorem busAccess_statusWrite {s : State} (v : Word) (hr : s.rstLow = false) :
    busAccess (wordWrite 0x008#10 v) s =
      { s with status := s.status.acknowledge v, response := some ⟨false, none⟩ } :=
  busAccess_wordWrite v rfl hr

/-- Settles O25: the plain CTRL write, and the PFLAGS write. -/
theorem interruptEnableAndPflagsWrites : Obligations.InterruptEnableAndPflagsWrites := by
  intro s v hr
  constructor
  · intro hsrst hkey
    rw [busAccess_ctrlWrite v hr, writeCtrl_of_plain s hsrst hkey]
  · exact busAccess_pflagsWrite v hr

/-- An acknowledgement clears DONE and OVR where asked, and no other flag (10_state.md R22). -/
theorem Status.acknowledge_eq (st : Status) (v : Word) :
    st.acknowledge v =
      { st with
        done := if v[1] then false else st.done, ovr := if v[5] then false else st.ovr } := by
  rw [acknowledge]
  cases v[1] <;> cases v[5] <;> simp

/-- Acknowledging DONE drops the interrupt (44_control.md R94, 60_exceptions.md R104). -/
theorem irq_statusWrite {s : State} {v : Word} (hr : s.rstLow = false) (hv : v[1] = true) :
    (busAccess (wordWrite 0x008#10 v) s).irq = false := by
  simp [busAccess_statusWrite v hr, State.irq, hv]

/-- Settles O26: STATUS is acknowledged, and the interrupt needs DONE. -/
theorem acknowledgeClearsOnlyDoneAndOverrun : Obligations.AcknowledgeClearsOnlyDoneAndOverrun := by
  intro s v hr
  refine ⟨?_, irq_statusWrite hr⟩
  rw [busAccess_statusWrite v hr, Status.acknowledge_eq]

end Sys2Proof.Machine
end

section
/-! PROOFS. Errors are precise, and the interrupt is a level (60_exceptions.md R97, R98, R102, R104). -/

namespace Sys2Proof.Machine

/-! ### Error entry (60_exceptions.md R102) -/

/-- Error entry writes the report, BUSY and DONE (60_exceptions.md R102). -/
theorem errorEntry_eq_erroredWith (e : CmdError) (s : State) :
    errorEntry e s = s.erroredWith e.code.number e.info := rfl

/-- Settles O57: of all a command can do, only error entry sets ERR. -/
theorem errorsArePrecise : Obligations.ErrorsArePrecise := by
  intro i s t p _ e noErr err
  obtain ⟨_, -, ⟨w, s', -, -, ⟨r, rfl⟩, rfl⟩ | ⟨c, legal, rfl⟩ | ⟨-, rfl⟩⟩ := exec_cases e
  · rw [commit_status] at err
    exact absurd (noErr.symm.trans err) (by decide)
  · rw [errorEntry_status]
    exact ⟨errorEntry_eq_erroredWith c s, legal⟩
  · exact absurd (noErr.symm.trans err) (by decide)

/-! ### The interrupt (60_exceptions.md R104) -/

/-- A command that is no longer pending has set DONE, with or without error (10_state.md R13). -/
theorem exec_done_of_not_pending {i : Instr} {s t : State} (e : exec i s = .next t)
    (ht : t.pending = none) : t.status.done = true := by
  obtain ⟨p, hp, ⟨w, s', -, -, -, rfl⟩ | ⟨c, -, rfl⟩ | ⟨-, rfl⟩⟩ := exec_cases e
  · rw [commit_status]
  · rw [errorEntry_status]
  · exact absurd (hp.symm.trans ht) nofun

/-- Without DONE there is no interrupt. -/
theorem irq_of_not_done {s : State} (h : s.status.done = false) : s.irq = false := by
  rw [State.irq, h, Bool.false_and]

/-- A completion raises the interrupt exactly when IE is set. -/
theorem irq_of_completion {i : Instr} {s t : State} (e : exec i s = .next t) (ht : t.pending = none) :
    t.irq = s.ctrl.ie := by
  obtain ⟨-, ctrl, -⟩ := exec_keeps e
  rw [State.irq, exec_done_of_not_pending e ht, Bool.true_and, ctrl]

/-- A plain CTRL write leaves DONE and sets IE, so it can raise or drop the interrupt. -/
theorem irq_ctrlWrite_of_plain {s : State} {v : Word} (hr : s.rstLow = false) (hsrst : v[1] = false)
    (hkey : v[2] = false) : (busAccess (wordWrite 0x00C#10 v) s).irq = (s.status.done && v[0]) := by
  rw [busAccess_ctrlWrite v hr, writeCtrl_of_plain s hsrst hkey]
  rfl

/-- Acceptance clears DONE (30_encoding.md R44). -/
theorem irq_cmdWrite_of_idle {s : State} (v : Word) (hr : s.rstLow = false)
    (hb : s.status.busy = false) : (busAccess (wordWrite 0x004#10 v) s).irq = false := by
  rw [busAccess_cmdWrite_of_idle v hr hb]
  exact irq_of_not_done s.status.accepted_done

/-- A soft reset clears DONE (44_control.md R91). -/
theorem irq_softReset {s : State} {v : Word} (hr : s.rstLow = false) (hsrst : v[1] = true) :
    (busAccess (wordWrite 0x00C#10 v) s).irq = false := by
  rw [busAccess_ctrlWrite v hr, writeCtrl_of_srst s hsrst]
  exact irq_of_not_done rfl

/-- Settles O28: the level by definition, then its rises and its falls. -/
theorem interruptIsDoneAndEnable : Obligations.InterruptIsDoneAndEnable :=
  ⟨fun _ => rfl,
    fun _ _ _ _ e ht => irq_of_completion e ht,
    fun _ _ hr hsrst hkey => irq_ctrlWrite_of_plain hr hsrst hkey,
    fun _ _ hr hv => irq_statusWrite hr hv,
    fun _ v hr hb => irq_cmdWrite_of_idle v hr hb,
    fun _ _ hr hsrst => irq_softReset hr hsrst,
    fun _ => irq_of_not_done rfl⟩

end Sys2Proof.Machine
end

section
/-! PROOFS. Reset, bounded progress, and the writes a busy block drops (70_reset_and_hazards.md R112 to
R117, R123). -/

namespace Sys2Proof.Machine

/-! ### A pending command ends (70_reset_and_hazards.md R123, log 1) -/

/-- No write changes what is still to come from outside (log 1). -/
theorem WriteEffect.events {v : Word} {s t : State} {g : Target} (e : WriteEffect v s g t) :
    t.events = s.events := by
  cases e <;> rfl

/-- A write to a busy block leaves the pending command, or abandons it by a soft reset
(70_reset_and_hazards.md R116). -/
theorem WriteEffect.pending_of_busy {v : Word} {s t : State} {g : Target} (e : WriteEffect v s g t)
    (hb : s.status.busy = true) : t.pending = none ∨ t.pending = s.pending := by
  cases e with
  | accepted idle => rw [hb] at idle; cases idle
  | softReset => exact .inl rfl
  | _ => exact .inr rfl

/-- An access to a busy block leaves the events to come, and leaves the pending command or abandons it. -/
theorem busAccess_pending_of_busy (a : Access) {s : State} (hb : s.status.busy = true) :
    (busAccess a s).events = s.events ∧
      ((busAccess a s).pending = none ∨ (busAccess a s).pending = s.pending) := by
  rcases busAccess_effect a s with ⟨r, n, e⟩ | ⟨-, off, v, t, -, ht, e⟩ <;> rw [e]
  · exact ⟨rfl, .inr rfl⟩
  · exact ⟨ht.events, ht.pending_of_busy hb⟩

/-- A state with nothing pending that meets the invariant is idle (10_state.md R14). -/
theorem State.Inv.busy_eq_false {s : State} (h : s.Inv) (hn : s.pending = none) :
    s.status.busy = false := by
  rw [h.busy, hn]
  rfl

section
variable {s t : State} {p : Pending} (h : s.Inv) (hp : s.pending = some p)
  (hd : decodeWord p.word ≠ .ok .sign)
include h hp

/-- A state with a pending command that meets the invariant is busy (10_state.md R14). -/
theorem State.Inv.busy_of_pending : s.status.busy = true := by
  rw [h.busy, hp]
  rfl

include hd

/-- The engine's turn ends a pending command other than SIGN, the one command that can wait, and leaves
the events to come. -/
theorem State.Inv.engineTurn_ends (e : Machine.engineTurn s = .next t) :
    t.pending = none ∧ t.events = s.events := by
  have running := (h.pending p hp).running
  cases hw : decodeWord p.word with
  | error r =>
    rw [engineTurn_of_rejected running hp hw] at e
    cases e
    exact ⟨rfl, rfl⟩
  | ok i =>
    rw [engineTurn_of_decoded running hp hw] at e
    obtain ⟨-, -, ⟨w, s', -, -, ⟨r, rfl⟩, rfl⟩ | ⟨c, -, rfl⟩ | ⟨rfl, -⟩⟩ := exec_cases e
    · exact ⟨rfl, rfl⟩
    · exact ⟨rfl, rfl⟩
    · exact absurd hw hd

/-- An event ends a pending command other than SIGN, or leaves it, and leaves the events to come. -/
theorem State.Inv.handle_ends_or_keeps {ev : Event} (e : Machine.handle ev s = .next t) :
    t.events = s.events ∧ (t.pending = none ∨ t.pending = some p) := by
  cases ev with
  | bus a =>
    cases e
    rw [← hp]
    exact busAccess_pending_of_busy a (h.busy_of_pending hp)
  | complete =>
    obtain ⟨hn, events⟩ := h.engineTurn_ends hp hd e
    exact ⟨events, .inl hn⟩
  | rngWord | rstRise => cases e; exact ⟨rfl, .inr hp⟩
  | rstFall => cases e; exact ⟨rfl, .inl rfl⟩

end

/-- A run starts with a step. -/
theorem run_succ_of_step {M : Host.Core} {s t : M.State} (h : M.step s = .next t) (k : Nat) :
    M.run (k + 1) s = M.run k t := by
  rw [Host.Core.run, h]

/-- A run from a state with a pending command other than SIGN ends the command, by induction on the events:
one that leaves the command is used up, and with none left the engine ends it. -/
theorem exists_run_ends_pending {p : Pending} (hd : decodeWord p.word ≠ .ok .sign) (l : List Event)
    {s : State} (hl : s.events = l) (h : s.Inv) (hp : s.pending = some p) :
    ∃ (k : Nat) (t : State), k ≤ l.length + 1 ∧ Host.Core.run Sys2Proof.core k s = .next t ∧
      t.Inv ∧ t.pending = none := by
  induction l generalizing s with
  | nil =>
    obtain ⟨t, ht⟩ := engineTurn_next s
    have last := run_succ_of_step (M := Sys2Proof.core) ((step_of_events_nil hl).trans ht)
    exact ⟨1, t, Nat.le_refl 1, last 0, h.engineTurn ht, (h.engineTurn_ends hp hd ht).1⟩
  | cons e rest ih =>
    have h' : { s with events := rest }.Inv := h.congr rfl rfl rfl rfl id
    obtain ⟨t, ht⟩ := handle_next e { s with events := rest }
    have inv : t.Inv := h'.handle ht
    have first := run_succ_of_step (M := Sys2Proof.core) ((step_of_events_cons hl).trans ht)
    obtain ⟨events, hn | hp'⟩ := h'.handle_ends_or_keeps hp hd ht
    · exact ⟨1, t, Nat.le_add_left 1 _, first 0, inv, hn⟩
    · obtain ⟨k, u, hk, run, ends⟩ := ih events inv hp'
      exact ⟨k + 1, u, Nat.succ_le_succ hk, (first k).trans run, ends⟩

/-- Settles O10: the run that ends the command keeps the invariant, so BUSY ends with it. -/
theorem pendingCommandEndsOnceEventsRunOut : Obligations.PendingCommandEndsOnceEventsRunOut := by
  intro s p h hp hd
  obtain ⟨k, t, hk, run, inv, hn⟩ := exists_run_ends_pending hd s.events rfl h hp
  exact ⟨k, t, hk, run, hn, inv.busy_eq_false hn⟩

/-! ### Writes to a busy block (70_reset_and_hazards.md R116) -/

/-- Settles O22: the dropped targets one by one, then those a busy block lets through. -/
theorem busyDropsOnlyCommandAndKeyWrites : Obligations.BusyDropsOnlyCommandAndKeyWrites := by
  intro s v hr hb
  refine ⟨?dropped, fun r j hw hk => busAccess_writeRegWord j v hr hw hk, busAccess_statusWrite v hr,
    busAccess_pflagsWrite v hr, fun hsrst => ?srst, (interruptEnableAndPflagsWrites s v hr).1⟩
  case dropped =>
    rintro off (rfl | ⟨j, rfl⟩ | ⟨rfl, hkey, hsrst⟩)
    · exact busAccess_cmdWrite_of_busy v hr hb
    · exact (keyWordAccess s j v hr).2.1 hb
    · exact (keyClearWrite s v hr hkey hsrst).1 hb
  case srst =>
    rw [softResetClearsTheBlock s v hr hsrst]
    rfl

/-! ### Accesses and results (70_reset_and_hazards.md R117) -/

/-- All an access can do: only answer, or have the effect of an aligned write on its target. -/
theorem busAccess_answer_or_write (a : Access) (s : State) :
    (∃ r n, busAccess a s = { s with response := r, freeIdx := n }) ∨
      ∃ off v, a = wordWrite off v ∧ off.toNat % 4 = 0 ∧ busAccess a s =
        { writeTarget v s (Target.ofOffset off) with response := some ⟨false, none⟩ } := by
  rcases busAccess_cases a s with ⟨-, h⟩ | ⟨hr, legal, h⟩ | ⟨-, -, h⟩
  · exact .inl ⟨_, _, h⟩
  · obtain ⟨off, size, op⟩ := a
    obtain ⟨rfl, aligned⟩ := Access.legal_iff.mp legal
    cases op with
    | read => exact .inl ⟨_, s.freeIdx, h⟩
    | write v => exact .inr ⟨off, v, rfl, aligned, busAccess_wordWrite v aligned hr⟩
  · exact .inl ⟨_, s.freeIdx, h⟩

/-- What a write that is no soft reset does to the registers: nothing, a change of KEY, or a change of the
host-writable register it names (10_state.md R15, R16). -/
theorem writeTarget_x_cases {v : Word} (s : State) {g : Target} (hg : g = .ctrl → v[1] = false) :
    (writeTarget v s g).x = s.x ∨ (∃ u, (writeTarget v s g).x = s.x.set .KEY u) ∨
      ∃ r j u, g = .data r j ∧ r.hostWritable = true ∧ (writeTarget v s g).x = s.x.set r u := by
  cases g with
  | id | const | reserved | status | pflags => exact .inl rfl
  | cmd =>
    left
    simp only [writeTarget, writeCmd]
    split <;> rfl
  | ctrl =>
    simp only [writeTarget, writeCtrl, hg rfl, Bool.false_eq_true, if_false]
    split
    · split
      · exact .inl rfl
      · exact .inr (.inl ⟨0, rfl⟩)
    · exact .inl rfl
  | data r j =>
    simp only [writeTarget, writeKeyWord, writeRegWord]
    split
    · split
      · exact .inl rfl
      · exact .inr (.inl ⟨_, rfl⟩)
    · split
      · exact .inr (.inr ⟨r, j, _, rfl, ‹_›, rfl⟩)
      · exact .inl rfl

section
variable {a : Access} (s : State) (ha : ∀ v, a = wordWrite 0x00C#10 v → v[1] = false)
include ha

/-- An access other than a soft reset changes a data register but KEY only where the host may write it, and
by a write to its words. -/
theorem busAccess_get_of_not_written {r : Reg} (hk : r ≠ .KEY)
    (hw : ∀ j v, a = wordWrite (regWordOffset r j) v → r.hostWritable = false) :
    (busAccess a s).x.get r = s.x.get r := by
  obtain ⟨q, n, e⟩ | ⟨off, v, rfl, aligned, e⟩ := busAccess_answer_or_write a s
  · rw [e]
  rw [e]
  have hg : Target.ofOffset off = .ctrl → v[1] = false := fun h =>
    ha v (by rw [eq_of_ofOffset_eq_ctrl h])
  obtain hx | ⟨u, hx⟩ | ⟨q, j, u, ht, writable, hx⟩ := writeTarget_x_cases s hg
  · exact congrArg (·.get r) hx
  · exact (congrArg (·.get r) hx).trans (s.x.get_set_of_ne u hk)
  · refine (congrArg (·.get r) hx).trans (s.x.get_set_of_ne u fun (hq : r = q) => ?_)
    subst hq
    have readOnly := hw j v (by rw [eq_regWordOffset aligned ht])
    exact absurd (writable.symm.trans readOnly) (by decide)

/-- An access other than a soft reset leaves INFR and never sets VALID. -/
theorem busAccess_infr_valid : (busAccess a s).pflags.infr = s.pflags.infr ∧
    ((busAccess a s).status.valid = true → s.status.valid = true) := by
  rcases busAccess_effect a s with ⟨r, n, e⟩ | ⟨-, off, v, t, rfl, ht, e⟩ <;> rw [e]
  · exact ⟨rfl, id⟩
  cases ht with
  | softReset target srst =>
    have plain := ha v (by rw [eq_of_ofOffset_eq_ctrl target])
    exact absurd (srst.symm.trans plain) (by decide)
  | accepted => exact ⟨rfl, nofun⟩
  | _ => exact ⟨rfl, id⟩

end

/-- Settles O32: the host may not write the result registers, and writes SR and SS only by name. -/
theorem busAccessesKeepResults : Obligations.BusAccessesKeepResults := by
  intro s a ha
  have readOnly (r : Reg) (hr : r.hostWritable = false) : (busAccess a s).x.get r = s.x.get r :=
    busAccess_get_of_not_written s ha (by rintro rfl; cases hr) fun _ _ _ => hr
  have unnamed (r : Reg) (hk : r ≠ .KEY) (hn : ∀ j v, a ≠ wordWrite (regWordOffset r j) v) :
      (busAccess a s).x.get r = s.x.get r :=
    busAccess_get_of_not_written s ha hk fun j v e => absurd e (hn j v)
  obtain ⟨infr, valid⟩ := busAccess_infr_valid s ha
  exact ⟨readOnly .XR rfl, readOnly .YR rfl, readOnly .PUBX rfl, readOnly .PUBY rfl, infr, valid,
    unnamed .SR nofun, unnamed .SS nofun⟩

/-! ### Reset (70_reset_and_hazards.md R112 to R114) -/

/-- Settles O12: STATUS is 0 and nothing is pending. -/
theorem resetMeetsInvariant : Obligations.ResetMeetsInvariant := inv_of_reset rfl rfl

/-- Settles O13: the rows of R114's table. -/
theorem resetLeavesTheListedValues : Obligations.ResetLeavesTheListedValues := by
  refine ⟨fun r => ?registers, rfl, rfl, rfl, rfl, rfl, irq_of_not_done rfl, rfl, rfl, rfl, rfl, rfl⟩
  case registers => cases r <;> rfl

/-- A state held in reset that meets the invariant has nothing pending and is idle. -/
theorem State.Inv.idle_of_rstLow {s : State} (h : s.Inv) (hr : s.rstLow = true) :
    s.pending = none ∧ s.status.busy = false := by
  have hn : s.pending = none := Option.eq_none_iff_forall_ne_some.mpr fun p hp =>
    absurd ((h.pending p hp).running.symm.trans hr) (by decide)
  exact ⟨hn, h.busy_eq_false hn⟩

/-- While `rst_n` is low an access is not performed (log 6). -/
theorem busAccess_of_rstLow (a : Access) {s : State} (hr : s.rstLow = true) :
    busAccess a s = heldAccess a s := if_pos hr

/-- Settles O29: the fall, an access and a completion while low, the rise. -/
theorem hardwareResetHoldsTheBlock : Obligations.HardwareResetHoldsTheBlock := by
  refine ⟨fun s rest he => ?fall, fun s a hr => ?access, fun s hr => engineTurn_of_idle (.inr hr),
    fun s rest he => ?rise⟩
  case fall => exact ⟨_, step_of_events_cons he, rfl, rfl, rfl⟩
  case access =>
    rw [busAccess_of_rstLow a hr]
    exact ⟨rfl, hr⟩
  case rise => exact ⟨_, step_of_events_cons he, rfl, fun h hr => h.idle_of_rstLow hr⟩

end Sys2Proof.Machine
end
